-- ==== Sys2Proof/Word.lean ====
section
/-! DEFINITION. The bit-vector types of the engine: bytes of BUF, 32-bit control registers, 64-bit command words. -/

namespace Sys2Proof

/-- One cell of `BUF` (10_state.md R42). -/
abbrev Byte := BitVec 8

/-- One control register, `RES` among them (10_state.md R34), and the 32-bit immediate (30_encoding.md R81). -/
abbrev Word := BitVec 32

/-- One command word (30_encoding.md R80). -/
abbrev CmdWord := BitVec 64

end Sys2Proof
end

