-- ==== Sys2Proof/Syntax.lean ====
section
/-! DEFINITION. The 48 commands of CAE-1, one constructor per row of spec/opcode_table.json (30_encoding.md R86), with
decoded operands. -/

namespace Sys2Proof

/-- An MPI register number; all 16 are legal (30_encoding.md R85). -/
abbrev MReg := Fin 16

/-- A point register number, `P0` to `P7` (30_encoding.md R85). -/
abbrev PReg := Fin 8

/-- The index of a constant of the curve ROM, 0..6 in this order (10_state.md R30). -/
inductive RomIndex where
  | p | a | b | gx | gy | n | h
  deriving DecidableEq, Repr

/-- A buffer operand `[addr, len]` of a B-format command, both unsigned 16-bit fields (30_encoding.md R83). -/
structure BufArg where
  addr : BitVec 16
  len  : BitVec 16
  deriving DecidableEq, Repr

/-- A command. Operands stand in the order of the fields `r0, r1, r2, r3`, then `aux`, then the low word
(30_encoding.md R91). -/
inductive Instr where
  -- system, load, move (40_system.md)
  | clrerr
  | curve   (id : Word)
  | ldcp    (md : MReg) (idx : RomIndex)
  | ldi     (md : MReg) (imm : Word)
  | mov     (md ma : MReg)
  -- integer arithmetic (41_mpi_arith.md)
  | add     (md ma mb : MReg)
  | sub     (md ma mb : MReg)
  | mul     (md ma mb : MReg)
  | sqr     (md ma : MReg)
  | div     (md ma mb : MReg)
  | mod     (md ma mb : MReg)
  | divrem  (mq mr ma mb : MReg)
  | modinv  (md ma mm : MReg)
  | shl     (md ma : MReg) (imm : Word)
  | shr     (md ma : MReg) (imm : Word)
  -- integer queries (42_mpi_query.md)
  | cmp     (ma mb : MReg)
  | iseven  (ma : MReg)
  | testbit (ma : MReg) (idx : Word)
  | bitlen  (ma : MReg)
  -- conversions (43_mpi_convert.md)
  | frombu  (md : MReg) (arg : BufArg)
  | tobu    (ma : MReg) (arg : BufArg)
  | frombs  (md : MReg) (arg : BufArg)
  | tobs    (ma : MReg) (arg : BufArg)
  | parse   (md : MReg) (radix : Nat) (arg : BufArg)
  | tostr   (ma : MReg) (radix : Nat) (arg : BufArg)
  -- field (44_field.md)
  | fadd    (md ma mb mm : MReg)
  | fsub    (md ma mb mm : MReg)
  | fmul    (md ma mb mm : MReg)
  | fsqr    (md ma mm : MReg)
  | fdiv    (md ma mb mm : MReg)
  | feq     (ma mma mb mmb : MReg)
  -- points (45_point_arith.md)
  | pinf    (pd : PReg)
  | pgen    (pd : PReg)
  | pseta   (pd : PReg) (mx my : MReg)
  | pmov    (pd pa : PReg)
  | pisinf  (pa : PReg)
  | pgetx   (md : MReg) (pa : PReg)
  | pgety   (md : MReg) (pa : PReg)
  | peq     (pa pb : PReg)
  | pneg    (pd pa : PReg)
  | padd    (pd pa pb : PReg)
  | pdbl    (pd pa : PReg)
  | pmul    (pd pa : PReg) (mk : MReg)
  | pmul2   (pd pa : PReg) (mj : MReg) (pb : PReg) (mk : MReg)
  -- point codec (46_point_codec.md)
  | penc    (pa : PReg) (compressed : Bool) (arg : BufArg)
  | pdec    (pd : PReg) (arg : BufArg)
  | pdechex (pd : PReg) (arg : BufArg)
  | pvalid  (pa : PReg)
  deriving DecidableEq, Repr

end Sys2Proof
end

