-- ==== Sys2Proof/WellFormed.lean ====
section
/-! DEFINITION. The checks on a command that its types do not make: lines 4 and 5 of 30_encoding.md R88. Register
numbers, ROM indexes and immediates are in range by type. -/

namespace Sys2Proof

/-- The legal radixes, 2 to 36 (30_encoding.md R87, R88 line 4). -/
def radixOk (r : Nat) : Bool := decide (2 ≤ r) && decide (r ≤ 36)

/-- A command that some command word stands for. -/
def Instr.wf : Instr → Bool
  | .clrerr => true
  | .curve _ => true
  | .ldcp _ _ => true
  | .ldi _ _ => true
  | .mov _ _ => true
  | .add _ _ _ => true
  | .sub _ _ _ => true
  | .mul _ _ _ => true
  | .sqr _ _ => true
  | .div _ _ _ => true
  | .mod _ _ _ => true
  | .divrem mq mr _ _ => decide (mq ≠ mr)
  | .modinv _ _ _ => true
  | .shl _ _ _ => true
  | .shr _ _ _ => true
  | .cmp _ _ => true
  | .iseven _ => true
  | .testbit _ _ => true
  | .bitlen _ => true
  | .frombu _ _ => true
  | .tobu _ _ => true
  | .frombs _ _ => true
  | .tobs _ _ => true
  | .parse _ r _ => radixOk r
  | .tostr _ r _ => radixOk r
  | .fadd _ _ _ _ => true
  | .fsub _ _ _ _ => true
  | .fmul _ _ _ _ => true
  | .fsqr _ _ _ => true
  | .fdiv _ _ _ _ => true
  | .feq _ _ _ _ => true
  | .pinf _ => true
  | .pgen _ => true
  | .pseta _ _ _ => true
  | .pmov _ _ => true
  | .pisinf _ => true
  | .pgetx _ _ => true
  | .pgety _ _ => true
  | .peq _ _ => true
  | .pneg _ _ => true
  | .padd _ _ _ => true
  | .pdbl _ _ => true
  | .pmul _ _ _ => true
  | .pmul2 _ _ _ _ _ => true
  | .penc _ _ _ => true
  | .pdec _ _ => true
  | .pdechex _ _ => true
  | .pvalid _ => true

end Sys2Proof
end

