-- ==== Sys2Proof/Decode.lean ====
section
/-! DEFINITION. Command words: the field layout (30_encoding.md R81), the opcode map (R86), the decoder with the
illegal words of R88, and the encoder written from the same map. A command is a number handed over by the host, not
bytes of a memory (20_memory.md R65), so the decoder takes the 64-bit word. -/

namespace Sys2Proof

/-- The fields of a command word (30_encoding.md R81). `low` is `w[31:0]`, which holds `imm32`, or `len` above
`addr`. -/
structure Fields where
  op  : BitVec 8
  r0  : BitVec 4 := 0
  r1  : BitVec 4 := 0
  r2  : BitVec 4 := 0
  r3  : BitVec 4 := 0
  aux : BitVec 8 := 0
  low : BitVec 32 := 0
  deriving DecidableEq, Repr

/-- `w[63:56] w[55:52] … w[31:0]` (30_encoding.md R81). -/
def fieldsOf (w : CmdWord) : Fields where
  op  := w.extractLsb' 56 8
  r0  := w.extractLsb' 52 4
  r1  := w.extractLsb' 48 4
  r2  := w.extractLsb' 44 4
  r3  := w.extractLsb' 40 4
  aux := w.extractLsb' 32 8
  low := w.extractLsb' 0 32

/-- The word with these fields, `op` highest (30_encoding.md R81). -/
def Fields.word (f : Fields) : CmdWord :=
  f.op ++ f.r0 ++ f.r1 ++ f.r2 ++ f.r3 ++ f.aux ++ f.low

/-- The illegal words of 30_encoding.md R88, named by its five lines. -/
inductive DecodeError where
  /-- Line 1: the opcode is unassigned. -/
  | unassignedOpcode
  /-- Line 2: a must-be-zero field is not zero. -/
  | reservedField
  /-- Line 3: a point register number 8..15. -/
  | pointNumber
  /-- Line 4: a radix outside 2..36, or a ROM index above 6. -/
  | immediateRange
  /-- Line 5: `DIVREM` with one register for quotient and remainder. -/
  | sameDestinations
  deriving DecidableEq, Repr

/-- The `info` of `IllegalCommandError(info)` (30_encoding.md R88). -/
def DecodeError.info : DecodeError → Nat
  | .unassignedOpcode => 1
  | .reservedField => 2
  | .pointNumber => 3
  | .immediateRange => 4
  | .sameDestinations => 5

/-- What a register field of a row is for: `-` (must be zero), class `M`, class `P` (30_encoding.md R85, R86). -/
inductive FieldClass where
  | unused | mpi | point
  deriving DecidableEq, Repr

/-- A class-`M` field names MPI register `M<field>` (30_encoding.md R85). -/
def mreg (b : BitVec 4) : MReg := b.toFin

/-- A class-`P` field names point register `P<field>`; only 0..7 reach here (30_encoding.md R85). -/
def preg (b : BitVec 4) : PReg := (b.setWidth 3).toFin

/-- The field that names an MPI register. -/
def mfield (r : MReg) : BitVec 4 := BitVec.ofNat 4 r.val

/-- The field that names a point register. -/
def pfield (r : PReg) : BitVec 4 := BitVec.ofNat 4 r.val

/-- `addr = w[15:0]`, `len = w[31:16]` (30_encoding.md R83). -/
def bufArg (low : BitVec 32) : BufArg where
  addr := low.extractLsb' 0 16
  len  := low.extractLsb' 16 16

/-- The low word of a B-format command. -/
def BufArg.low (a : BufArg) : BitVec 32 := a.len ++ a.addr

/-- ROM index 0..6 (10_state.md R30); a number above 6 names no constant. -/
def romIndex : Nat → Option RomIndex
  | 0 => some .p
  | 1 => some .a
  | 2 => some .b
  | 3 => some .gx
  | 4 => some .gy
  | 5 => some .n
  | 6 => some .h
  | _ => none

/-- The number of a ROM constant (10_state.md R30). -/
def RomIndex.num : RomIndex → Nat
  | .p => 0
  | .a => 1
  | .b => 2
  | .gx => 3
  | .gy => 4
  | .n => 5
  | .h => 6

/-- `aux` as a radix, with line 4 of 30_encoding.md R88. -/
def withRadix (aux : BitVec 8) (mk : Nat → Instr) : Except DecodeError Instr :=
  if radixOk aux.toNat then .ok (mk aux.toNat) else .error .immediateRange

/-- `aux` as a ROM index, with line 4 of 30_encoding.md R88. -/
def withRomIndex (aux : BitVec 8) (mk : RomIndex → Instr) : Except DecodeError Instr :=
  match romIndex aux.toNat with
  | some idx => .ok (mk idx)
  | none => .error .immediateRange

/-- Distinct destinations, line 5 of 30_encoding.md R88. -/
def withDistinct (a b : MReg) (i : Instr) : Except DecodeError Instr :=
  if a ≠ b then .ok i else .error .sameDestinations

/-- One row of the opcode map (30_encoding.md R86): the opcode, the class of each register field, the bits of `aux` that
must be zero, whether `w[31:0]` must be zero, and the command the fields stand for. -/
structure Row where
  op      : BitVec 8
  r0      : FieldClass := .unused
  r1      : FieldClass := .unused
  r2      : FieldClass := .unused
  r3      : FieldClass := .unused
  auxZero : BitVec 8 := 0xFF
  lowZero : Bool := true
  build   : Fields → Except DecodeError Instr

/-- A field marked `-` is zero (30_encoding.md R88 line 2). -/
def FieldClass.zeroOk : FieldClass → BitVec 4 → Bool
  | .unused, b => b == 0
  | .mpi, _ => true
  | .point, _ => true

/-- A field of class `P` is below 8 (30_encoding.md R88 line 3). -/
def FieldClass.pointOk : FieldClass → BitVec 4 → Bool
  | .unused, _ => true
  | .mpi, _ => true
  | .point, b => decide (b.toNat < 8)

/-- Line 2 of 30_encoding.md R88 does not apply. -/
def Row.zerosOk (row : Row) (f : Fields) : Bool :=
  row.r0.zeroOk f.r0 && row.r1.zeroOk f.r1 && row.r2.zeroOk f.r2 && row.r3.zeroOk f.r3
    && f.aux &&& row.auxZero == 0 && (!row.lowZero || f.low == 0)

/-- Line 3 of 30_encoding.md R88 does not apply. -/
def Row.pointsOk (row : Row) (f : Fields) : Bool :=
  row.r0.pointOk f.r0 && row.r1.pointOk f.r1 && row.r2.pointOk f.r2 && row.r3.pointOk f.r3

/-- System, load and move (40_system.md). -/
def systemRows : List Row := [
  { op := 0x01, build := fun _ => .ok .clrerr },
  { op := 0x02, lowZero := false, build := fun f => .ok (.curve f.low) },
  { op := 0x03, r0 := .mpi, auxZero := 0, build := fun f => withRomIndex f.aux (.ldcp (mreg f.r0)) },
  { op := 0x08, r0 := .mpi, lowZero := false, build := fun f => .ok (.ldi (mreg f.r0) f.low) },
  { op := 0x09, r0 := .mpi, r1 := .mpi, build := fun f => .ok (.mov (mreg f.r0) (mreg f.r1)) }]

/-- Integer arithmetic (41_mpi_arith.md). -/
def arithRows : List Row := [
  { op := 0x10, r0 := .mpi, r1 := .mpi, r2 := .mpi, build := fun f => .ok (.add (mreg f.r0) (mreg f.r1) (mreg f.r2)) },
  { op := 0x11, r0 := .mpi, r1 := .mpi, r2 := .mpi, build := fun f => .ok (.sub (mreg f.r0) (mreg f.r1) (mreg f.r2)) },
  { op := 0x12, r0 := .mpi, r1 := .mpi, r2 := .mpi, build := fun f => .ok (.mul (mreg f.r0) (mreg f.r1) (mreg f.r2)) },
  { op := 0x13, r0 := .mpi, r1 := .mpi, build := fun f => .ok (.sqr (mreg f.r0) (mreg f.r1)) },
  { op := 0x14, r0 := .mpi, r1 := .mpi, r2 := .mpi, build := fun f => .ok (.div (mreg f.r0) (mreg f.r1) (mreg f.r2)) },
  { op := 0x15, r0 := .mpi, r1 := .mpi, r2 := .mpi, build := fun f => .ok (.mod (mreg f.r0) (mreg f.r1) (mreg f.r2)) },
  { op := 0x16, r0 := .mpi, r1 := .mpi, r2 := .mpi, r3 := .mpi,
    build := fun f => withDistinct (mreg f.r0) (mreg f.r1)
      (.divrem (mreg f.r0) (mreg f.r1) (mreg f.r2) (mreg f.r3)) },
  { op := 0x17, r0 := .mpi, r1 := .mpi, r2 := .mpi, build := fun f => .ok (.modinv (mreg f.r0) (mreg f.r1) (mreg f.r2)) },
  { op := 0x18, r0 := .mpi, r1 := .mpi, lowZero := false, build := fun f => .ok (.shl (mreg f.r0) (mreg f.r1) f.low) },
  { op := 0x19, r0 := .mpi, r1 := .mpi, lowZero := false, build := fun f => .ok (.shr (mreg f.r0) (mreg f.r1) f.low) }]

/-- Integer queries (42_mpi_query.md). -/
def queryRows : List Row := [
  { op := 0x20, r1 := .mpi, r2 := .mpi, build := fun f => .ok (.cmp (mreg f.r1) (mreg f.r2)) },
  { op := 0x21, r1 := .mpi, build := fun f => .ok (.iseven (mreg f.r1)) },
  { op := 0x22, r1 := .mpi, lowZero := false, build := fun f => .ok (.testbit (mreg f.r1) f.low) },
  { op := 0x23, r1 := .mpi, build := fun f => .ok (.bitlen (mreg f.r1)) }]

/-- Conversions (43_mpi_convert.md). -/
def convertRows : List Row := [
  { op := 0x28, r0 := .mpi, lowZero := false, build := fun f => .ok (.frombu (mreg f.r0) (bufArg f.low)) },
  { op := 0x29, r1 := .mpi, lowZero := false, build := fun f => .ok (.tobu (mreg f.r1) (bufArg f.low)) },
  { op := 0x2A, r0 := .mpi, lowZero := false, build := fun f => .ok (.frombs (mreg f.r0) (bufArg f.low)) },
  { op := 0x2B, r1 := .mpi, lowZero := false, build := fun f => .ok (.tobs (mreg f.r1) (bufArg f.low)) },
  { op := 0x2C, r0 := .mpi, auxZero := 0, lowZero := false,
    build := fun f => withRadix f.aux fun r => .parse (mreg f.r0) r (bufArg f.low) },
  { op := 0x2D, r1 := .mpi, auxZero := 0, lowZero := false,
    build := fun f => withRadix f.aux fun r => .tostr (mreg f.r1) r (bufArg f.low) }]

/-- Field commands (44_field.md). -/
def fieldRows : List Row := [
  { op := 0x30, r0 := .mpi, r1 := .mpi, r2 := .mpi, r3 := .mpi,
    build := fun f => .ok (.fadd (mreg f.r0) (mreg f.r1) (mreg f.r2) (mreg f.r3)) },
  { op := 0x31, r0 := .mpi, r1 := .mpi, r2 := .mpi, r3 := .mpi,
    build := fun f => .ok (.fsub (mreg f.r0) (mreg f.r1) (mreg f.r2) (mreg f.r3)) },
  { op := 0x32, r0 := .mpi, r1 := .mpi, r2 := .mpi, r3 := .mpi,
    build := fun f => .ok (.fmul (mreg f.r0) (mreg f.r1) (mreg f.r2) (mreg f.r3)) },
  { op := 0x33, r0 := .mpi, r1 := .mpi, r3 := .mpi,
    build := fun f => .ok (.fsqr (mreg f.r0) (mreg f.r1) (mreg f.r3)) },
  { op := 0x34, r0 := .mpi, r1 := .mpi, r2 := .mpi, r3 := .mpi,
    build := fun f => .ok (.fdiv (mreg f.r0) (mreg f.r1) (mreg f.r2) (mreg f.r3)) },
  { op := 0x35, r0 := .mpi, r1 := .mpi, r2 := .mpi, r3 := .mpi,
    build := fun f => .ok (.feq (mreg f.r0) (mreg f.r1) (mreg f.r2) (mreg f.r3)) }]

/-- Point commands (45_point_arith.md). -/
def pointRows : List Row := [
  { op := 0x40, r0 := .point, build := fun f => .ok (.pinf (preg f.r0)) },
  { op := 0x41, r0 := .point, build := fun f => .ok (.pgen (preg f.r0)) },
  { op := 0x42, r0 := .point, r1 := .mpi, r2 := .mpi,
    build := fun f => .ok (.pseta (preg f.r0) (mreg f.r1) (mreg f.r2)) },
  { op := 0x43, r0 := .point, r1 := .point, build := fun f => .ok (.pmov (preg f.r0) (preg f.r1)) },
  { op := 0x44, r1 := .point, build := fun f => .ok (.pisinf (preg f.r1)) },
  { op := 0x45, r0 := .mpi, r1 := .point, build := fun f => .ok (.pgetx (mreg f.r0) (preg f.r1)) },
  { op := 0x46, r0 := .mpi, r1 := .point, build := fun f => .ok (.pgety (mreg f.r0) (preg f.r1)) },
  { op := 0x47, r1 := .point, r2 := .point, build := fun f => .ok (.peq (preg f.r1) (preg f.r2)) },
  { op := 0x48, r0 := .point, r1 := .point, build := fun f => .ok (.pneg (preg f.r0) (preg f.r1)) },
  { op := 0x49, r0 := .point, r1 := .point, r2 := .point,
    build := fun f => .ok (.padd (preg f.r0) (preg f.r1) (preg f.r2)) },
  { op := 0x4A, r0 := .point, r1 := .point, build := fun f => .ok (.pdbl (preg f.r0) (preg f.r1)) },
  { op := 0x4B, r0 := .point, r1 := .point, r2 := .mpi,
    build := fun f => .ok (.pmul (preg f.r0) (preg f.r1) (mreg f.r2)) },
  { op := 0x4C, r0 := .point, r1 := .point, r2 := .mpi, r3 := .point, auxZero := 0xF0,
    build := fun f => .ok (.pmul2 (preg f.r0) (preg f.r1) (mreg f.r2) (preg f.r3) (mreg (f.aux.setWidth 4))) }]

/-- Point codec commands (46_point_codec.md). -/
def codecRows : List Row := [
  { op := 0x4D, r1 := .point, auxZero := 0xFE, lowZero := false,
    build := fun f => .ok (.penc (preg f.r1) (f.aux.getLsbD 0) (bufArg f.low)) },
  { op := 0x4E, r0 := .point, lowZero := false, build := fun f => .ok (.pdec (preg f.r0) (bufArg f.low)) },
  { op := 0x4F, r0 := .point, lowZero := false, build := fun f => .ok (.pdechex (preg f.r0) (bufArg f.low)) },
  { op := 0x50, r1 := .point, build := fun f => .ok (.pvalid (preg f.r1)) }]

/-- The opcode map, 48 rows (30_encoding.md R86). -/
def opcodeMap : List Row :=
  systemRows ++ arithRows ++ queryRows ++ convertRows ++ fieldRows ++ pointRows ++ codecRows

/-- The command the fields stand for, or the first line of 30_encoding.md R88 that applies. -/
def decodeFields (f : Fields) : Except DecodeError Instr :=
  match opcodeMap.find? (fun row => row.op == f.op) with
  | none => .error .unassignedOpcode
  | some row =>
    if !row.zerosOk f then .error .reservedField
    else if !row.pointsOk f then .error .pointNumber
    else row.build f

/-- The decoder (30_encoding.md R80): it reads no state, and every word either is a command or is illegal by name. -/
def decodeWord (w : CmdWord) : Except DecodeError Instr := decodeFields (fieldsOf w)

/-- The fields of a command, every field it does not use zero (30_encoding.md R86, R91). -/
def encodeFields : Instr → Fields
  | .clrerr => { op := 0x01 }
  | .curve id => { op := 0x02, low := id }
  | .ldcp md idx => { op := 0x03, r0 := mfield md, aux := BitVec.ofNat 8 idx.num }
  | .ldi md imm => { op := 0x08, r0 := mfield md, low := imm }
  | .mov md ma => { op := 0x09, r0 := mfield md, r1 := mfield ma }
  | .add md ma mb => { op := 0x10, r0 := mfield md, r1 := mfield ma, r2 := mfield mb }
  | .sub md ma mb => { op := 0x11, r0 := mfield md, r1 := mfield ma, r2 := mfield mb }
  | .mul md ma mb => { op := 0x12, r0 := mfield md, r1 := mfield ma, r2 := mfield mb }
  | .sqr md ma => { op := 0x13, r0 := mfield md, r1 := mfield ma }
  | .div md ma mb => { op := 0x14, r0 := mfield md, r1 := mfield ma, r2 := mfield mb }
  | .mod md ma mb => { op := 0x15, r0 := mfield md, r1 := mfield ma, r2 := mfield mb }
  | .divrem mq mr ma mb => { op := 0x16, r0 := mfield mq, r1 := mfield mr, r2 := mfield ma, r3 := mfield mb }
  | .modinv md ma mm => { op := 0x17, r0 := mfield md, r1 := mfield ma, r2 := mfield mm }
  | .shl md ma imm => { op := 0x18, r0 := mfield md, r1 := mfield ma, low := imm }
  | .shr md ma imm => { op := 0x19, r0 := mfield md, r1 := mfield ma, low := imm }
  | .cmp ma mb => { op := 0x20, r1 := mfield ma, r2 := mfield mb }
  | .iseven ma => { op := 0x21, r1 := mfield ma }
  | .testbit ma idx => { op := 0x22, r1 := mfield ma, low := idx }
  | .bitlen ma => { op := 0x23, r1 := mfield ma }
  | .frombu md arg => { op := 0x28, r0 := mfield md, low := arg.low }
  | .tobu ma arg => { op := 0x29, r1 := mfield ma, low := arg.low }
  | .frombs md arg => { op := 0x2A, r0 := mfield md, low := arg.low }
  | .tobs ma arg => { op := 0x2B, r1 := mfield ma, low := arg.low }
  | .parse md radix arg => { op := 0x2C, r0 := mfield md, aux := BitVec.ofNat 8 radix, low := arg.low }
  | .tostr ma radix arg => { op := 0x2D, r1 := mfield ma, aux := BitVec.ofNat 8 radix, low := arg.low }
  | .fadd md ma mb mm => { op := 0x30, r0 := mfield md, r1 := mfield ma, r2 := mfield mb, r3 := mfield mm }
  | .fsub md ma mb mm => { op := 0x31, r0 := mfield md, r1 := mfield ma, r2 := mfield mb, r3 := mfield mm }
  | .fmul md ma mb mm => { op := 0x32, r0 := mfield md, r1 := mfield ma, r2 := mfield mb, r3 := mfield mm }
  | .fsqr md ma mm => { op := 0x33, r0 := mfield md, r1 := mfield ma, r3 := mfield mm }
  | .fdiv md ma mb mm => { op := 0x34, r0 := mfield md, r1 := mfield ma, r2 := mfield mb, r3 := mfield mm }
  | .feq ma mma mb mmb => { op := 0x35, r0 := mfield ma, r1 := mfield mma, r2 := mfield mb, r3 := mfield mmb }
  | .pinf pd => { op := 0x40, r0 := pfield pd }
  | .pgen pd => { op := 0x41, r0 := pfield pd }
  | .pseta pd mx my => { op := 0x42, r0 := pfield pd, r1 := mfield mx, r2 := mfield my }
  | .pmov pd pa => { op := 0x43, r0 := pfield pd, r1 := pfield pa }
  | .pisinf pa => { op := 0x44, r1 := pfield pa }
  | .pgetx md pa => { op := 0x45, r0 := mfield md, r1 := pfield pa }
  | .pgety md pa => { op := 0x46, r0 := mfield md, r1 := pfield pa }
  | .peq pa pb => { op := 0x47, r1 := pfield pa, r2 := pfield pb }
  | .pneg pd pa => { op := 0x48, r0 := pfield pd, r1 := pfield pa }
  | .padd pd pa pb => { op := 0x49, r0 := pfield pd, r1 := pfield pa, r2 := pfield pb }
  | .pdbl pd pa => { op := 0x4A, r0 := pfield pd, r1 := pfield pa }
  | .pmul pd pa mk => { op := 0x4B, r0 := pfield pd, r1 := pfield pa, r2 := mfield mk }
  | .pmul2 pd pa mj pb mk =>
    { op := 0x4C, r0 := pfield pd, r1 := pfield pa, r2 := mfield mj, r3 := pfield pb, aux := (mfield mk).setWidth 8 }
  | .penc pa c arg => { op := 0x4D, r1 := pfield pa, aux := (BitVec.ofBool c).setWidth 8, low := arg.low }
  | .pdec pd arg => { op := 0x4E, r0 := pfield pd, low := arg.low }
  | .pdechex pd arg => { op := 0x4F, r0 := pfield pd, low := arg.low }
  | .pvalid pa => { op := 0x50, r1 := pfield pa }

/-- The word of a well-formed command (30_encoding.md R81, R86). -/
def encode (i : Instr) : CmdWord := (encodeFields i).word

/-- The command this decoder reads from a table row's word: its bits as spec/opcode_table.json numbers them are the
bits of the command word (30_encoding.md R93), the bits from `nbits` up zero. -/
def decodeTableWord (nbits w : Nat) : Option Instr :=
  match decodeWord (BitVec.ofNat 64 (w % 2 ^ nbits)) with
  | .ok i => some i
  | .error _ => none

end Sys2Proof
end

