-- ==== Sys2Proof/Config.lean ====
section
/-! DEFINITION. What one engine fixes: the width of a limb and the parameters of 00_scope.md R5, and the free value of a
byte of BUF that nothing has written since reset. -/

namespace Sys2Proof.Config

/-- `W`, bits per limb (00_scope.md R5, fixed by the source). -/
def limbBits : Nat := 26

/-- The parameters that a model takes as arguments, within their bounds (00_scope.md R5, 92_eei_decisions.md D4, D5): the
largest limb count `NLIMB` of an MPI register, and the size `BUFSZ` of the buffer memory. -/
structure Params where
  nlimb      : Nat
  bufsz      : Nat
  nlimb_low  : 10 ≤ nlimb
  nlimb_high : 26 * nlimb < 2 ^ 32
  bufsz_low  : 1 ≤ bufsz
  bufsz_high : bufsz ≤ 65536
  deriving DecidableEq, Repr

/-- The spec's defaults, `NLIMB = 40` and `BUFSZ = 4096` (00_scope.md R5). -/
def Params.standard : Params where
  nlimb      := 40
  bufsz      := 4096
  nlimb_low  := by decide
  nlimb_high := by decide
  bufsz_low  := by decide
  bufsz_high := by decide

/-- The parameters of the machine of Machine/Step.lean, whose step has no argument for them: the spec's defaults
(00_scope.md R5; log 1). The machine of any other parameters is `Machine.stepAt`. -/
def params : Params := Params.standard

/-- The bits of a magnitude that an MPI register can hold, `26 * NLIMB` (00_scope.md R15). -/
def Params.capacityBits (c : Params) : Nat := limbBits * c.nlimb

/-- The first magnitude an MPI register cannot hold, `2^(26*NLIMB)` (00_scope.md R15, 10_state.md R20), as the radix to
the power of the limb count: for the default both exponents are small, so Lean evaluates it. -/
def Params.capacity (c : Params) : Nat := (2 ^ limbBits) ^ c.nlimb

/-- The value of the byte of `BUF` at `addr` that nothing has written since the `epoch`-th reset: a FREE VALUE, of which
nothing is known (10_state.md R43, 20_memory.md R70, 93_implementation_defined.md U1; log 3). -/
opaque freeByte (epoch addr : Nat) : Byte

end Sys2Proof.Config
end

