-- ==== Sys2Proof/Machine/State.lean ====
section
/-! DEFINITION. The state of the engine (10_state.md), the host's transactions and the engine's answers
(00_scope.md R8), the error kinds (60_exceptions.md R261), and the state right after reset (10_state.md R43). -/

namespace Sys2Proof.Machine

/-- The value of a point register: the point at infinity, or affine coordinates (10_state.md R26). The coordinates of a
register lie in `0..p-1`; that is an invariant (Safety.lean), not part of the type. -/
inductive Point where
  | inf
  | aff (x y : Nat)
  deriving DecidableEq, Repr

/-- The bytes of `BUF` written since reset, by strictly rising address (70_reset_and_hazards.md R301: a byte is
*defined* once written). An address not listed holds a free value (log 3, log 4). -/
abbrev Memory := List Host.Cell

/-- What the host can do to the engine (00_scope.md R8). -/
inductive Transaction where
  | command  (w : BitVec 64)
  | bufWrite (addr : Nat) (b : BitVec 8)
  | bufRead  (addr : Nat)
  | csrRead  (i : Nat)
  | reset
  deriving DecidableEq, Repr

/-- What the last transaction gave the host: nothing yet, the response of a command (60_exceptions.md R272), the byte of
a `BufRead`, the register of a `CsrRead`, or the end of a transaction that has no result (00_scope.md R8; log 6). -/
inductive Answer where
  | none
  | response (status : BitVec 8) (res : BitVec 32)
  | byte (b : BitVec 8)
  | csr (v : BitVec 32)
  | done
  deriving DecidableEq, Repr

/-- The nine error kinds (60_exceptions.md R261). -/
inductive ErrorKind where
  | parse
  | domain
  | unsupportedEncoding
  | noInverse
  | divideByZero
  | capacity
  | bufferRange
  | operand
  | illegalCommand
  deriving DecidableEq, Repr

/-- A `raise <Error>(info)` of a command's pseudocode (00_scope.md R14, 60_exceptions.md R260). It is TAKEN by the
engine (Ops.lean, `takeError`), it never stops the machine. -/
structure Raise where
  kind : ErrorKind
  info : BitVec 32
  deriving DecidableEq, Repr

/-- The state of the engine, and nothing else: what 10_state.md R20 to R43 names, `BUF` in the two fields `buf` and
`epoch`. The parameters, the curve ROM, the host's commands and the intermediates of a command are no part of it (R44). -/
structure Engine where
  /-- `M0..M15` (10_state.md R20, R22). -/
  m       : Vector Int 16
  /-- `P0..P7` (10_state.md R25, R26). -/
  p       : Vector Point 8
  /-- The bytes of `BUF` that are defined (10_state.md R42). -/
  buf     : Memory
  /-- The MODEL's own: which reset the other bytes of `BUF` are left from, the argument of their free values (R43; log
  3). -/
  epoch   : Nat
  /-- Control register 0: bit 0 is `FAULT`, bits 31:1 read as 0 (10_state.md R34, R35). -/
  status  : BitVec 32
  /-- Control register 1 (R36). -/
  errcode : BitVec 32
  /-- Control register 2 (R37). -/
  errinfo : BitVec 32
  /-- Control register 3 (R38). -/
  errseq  : BitVec 32
  /-- Control register 4 (R39). -/
  res     : BitVec 32
  /-- Control register 5 (R40). -/
  cseq    : BitVec 32
  /-- Control register 6 (R41). -/
  curveid : BitVec 32
  deriving DecidableEq, Repr

/-- What a step is a function of: the engine's state, and beside it the transaction that the host is making and the
answer to its last one (00_scope.md R8). Neither the parameters nor the host's list of commands is there (10_state.md R44):
the parameters are arguments (Config.lean), and the host presents its transactions one at a time. -/
structure State extends Engine where
  /-- The INPUT of the step: the transaction that the host is making, if any (00_scope.md R8; log 2). -/
  input  : Option Transaction
  /-- The OUTPUT of the step: the answer to the host's last transaction (00_scope.md R8; log 6). -/
  answer : Answer
  deriving DecidableEq, Repr

/-- What stops the machine. No command and no state of the engine does. -/
inductive Fault where
  /-- Raised by the transactions `BufRead` and `BufWrite` at an address that does not exist, `addr >= BUFSZ`
  (00_scope.md R8, 93_implementation_defined.md U5: the model has no move for it). Safe: it stops (log 7). -/
  | noSuchAddress (addr : Nat)
  deriving DecidableEq, Repr

/-- What the model gives no meaning. -/
inductive Refusal where
  /-- Raised by `exec` for an instruction that has no meaning yet. Safe: it stops. -/
  | notModelled (mnemonic : String)
  /-- Raised by the transaction `CsrRead(i)` with `i > 6`, which is no transaction of the interface (00_scope.md R8,
  93_implementation_defined.md U5). Safe: it stops (log 7). -/
  | noSuchCsr (i : Nat)
  deriving DecidableEq, Repr

/-- The engine right after the `epoch`-th reset (10_state.md R43, 70_reset_and_hazards.md R300). -/
def Engine.reset (epoch : Nat) : Engine where
  m       := Vector.replicate 16 0
  p       := Vector.replicate 8 Point.inf
  buf     := []
  epoch   := epoch
  status  := 0
  errcode := 0
  errinfo := 0
  errseq  := 0
  res     := 0
  cseq    := 0
  curveid := 0

/-- An engine, of whatever parameters, right after power-on, which is a `Reset` (70_reset_and_hazards.md R300),
with no transaction begun and no answer given (DESIGN CHOICE: log 2, log 3, log 6). -/
def State.reset : State where
  toEngine := Engine.reset 0
  input    := none
  answer   := .none

end Sys2Proof.Machine
end

