-- ==== Sys2Proof/Machine/Flags.lean ====
section
/-! DEFINITION. The one status flag, `STATUS.FAULT` (10_state.md R35), the error codes of `ERRCODE` (R36), and the
answers that the query commands leave in `RES`, the engine's only predicate register (R39; 92_eei_decisions.md D32).
There are no carry, zero, sign or overflow flags (R39). -/

namespace Sys2Proof.Machine

/-- `CSR.STATUS.FAULT = 1`, bit 0 of `STATUS` (10_state.md R34, R35). -/
def faultBit (status : Word) : Bool := status.getLsbD 0

/-- `CSR.STATUS.FAULT <- 1`: bit 0 set, the others kept. -/
def setFaultBit (status : Word) : Word := status ||| 1#32

/-- `CSR.STATUS.FAULT <- 0`: bit 0 cleared, the others kept. -/
def clearFaultBit (status : Word) : Word := status &&& ~~~1#32

/-- The code of an error kind, 1..9 (10_state.md R36, 60_exceptions.md R261), as it stands in `ERRCODE` bits 7:0 and in
a response's status. -/
def ErrorKind.code : ErrorKind → Byte
  | .parse => 1
  | .domain => 2
  | .unsupportedEncoding => 3
  | .noInverse => 4
  | .divideByZero => 5
  | .capacity => 6
  | .bufferRange => 7
  | .operand => 8
  | .illegalCommand => 9

/-- A boolean answer: 1 for true, 0 for false (42_mpi_query.md R161, 92_eei_decisions.md D32). -/
def boolRes (b : Bool) : Word := if b then 1 else 0

/-- The answer of `CMP`: -1 as a 32-bit two's complement number, 0, or 1 (42_mpi_query.md R160). -/
def cmpRes (a b : Int) : Word :=
  if a < b then 0xFFFFFFFF else if a = b then 0 else 1

/-- A count, unsigned (42_mpi_query.md R163, 20_memory.md R67). -/
def countRes (n : Nat) : Word := BitVec.ofNat 32 n

end Sys2Proof.Machine
end

