-- ==== Sys2Proof/Machine/Numbers.lean ====
section
/-! DEFINITION. The arithmetic of the value-level rules: bit lengths (00_scope.md R12), division (41_mpi_arith.md R133),
inverses (R12, R136), shifts of the magnitude (R139, R140), big-endian byte lists (20_memory.md R63), digits
(43_mpi_convert.md R176). -/

namespace Sys2Proof.Machine

/-- `bitlen(m)`, the least `k` with `m < 2^k` (00_scope.md R12). -/
def bitlen (m : Nat) : Nat := if m = 0 then 0 else m.log2 + 1

/-- `nlimbs(v) = ceil(bitlen(|v|) / 26)` (10_state.md R22). -/
def nlimbs (v : Int) : Nat := (bitlen v.natAbs + (Config.limbBits - 1)) / Config.limbBits

/-- `tquo(a, b)`, the quotient truncated toward zero (41_mpi_arith.md R133). -/
def tquo (a b : Int) : Int := a.sign * b.sign * ((a.natAbs / b.natAbs : Nat) : Int)

/-- `trem(a, b) = a - tquo(a, b) * b` (41_mpi_arith.md R133). -/
def trem (a b : Int) : Int := a - tquo a b * b

/-- `nmod(a, b) = a mod |b|`, in `0..|b|-1` (41_mpi_arith.md R133, 00_scope.md R12). -/
def nmod (a b : Int) : Int := a % (b.natAbs : Int)

/-- Euclid's algorithm on `r0, r1` with the cofactors `t0, t1` of one operand modulo `n`; the last cofactor is that of
the gcd. `fuel` bounds the divisions. -/
def euclid (n : Nat) : Nat → Nat → Nat → Nat → Nat → Nat
  | 0, _, _, t0, _ => t0
  | fuel + 1, r0, r1, t0, t1 =>
    if r1 = 0 then t0
    else euclid n fuel r1 (r0 % r1) t1 ((t0 + (n - r0 / r1 * t1 % n)) % n)

/-- `inv(a, n)`: for `n >= 2` and `gcd(a, n) = 1` the unique `x` with `1 <= x < n` and `a * x mod n = 1`; for `n = 1` it
is 0 (00_scope.md R12, 41_mpi_arith.md R136). Any algorithm will do (00_scope.md R17); Laws/Numbers.lean proves that this
one gives that `x`. -/
def invMod (a n : Nat) : Nat := euclid n (n + 1) n (a % n) 0 (1 % n)

/-- `sign(v) * floor(|v| / 2^s)`: a right shift of the magnitude (41_mpi_arith.md R140). -/
def shiftDown (v : Int) (s : Nat) : Int := v.sign * ((v.natAbs >>> s : Nat) : Int)

/-- `v * 2^s` (41_mpi_arith.md R139). The zero is taken out first so that no power is formed for it. -/
def shiftUp (v : Int) (s : Nat) : Int := if v = 0 then 0 else v * 2 ^ s

/-- `be(b)`, the unsigned value of a big-endian byte list (20_memory.md R63). -/
def beValue (bs : List Byte) : Nat := bs.foldl (fun acc b => acc * 256 + b.toNat) 0

/-- The `n` low bytes of `v`, most significant first (20_memory.md R63). -/
def beBytes : Nat → Nat → List Byte
  | 0, _ => []
  | n + 1, v => beBytes n (v / 256) ++ [BitVec.ofNat 8 v]

/-- `ceil(bitlen(m) / 8)`, the bytes of a magnitude with no leading zero byte (43_mpi_convert.md R171). -/
def byteLen (m : Nat) : Nat := (bitlen m + 7) / 8

/-- The big-endian bytes of a magnitude, none for 0 (43_mpi_convert.md R171). -/
def unsignedBytes (m : Nat) : List Byte := beBytes (byteLen m) m

/-- Bit 7 of the first byte as the sign, the magnitude below it, with a lead byte where the magnitude needs its own bit 7
(43_mpi_convert.md R172). -/
def signedBytes (v : Int) : List Byte :=
  match unsignedBytes v.natAbs with
  | [] => []
  | b :: bs =>
    if 0 ≤ v then (if b.toNat < 0x80 then b :: bs else 0x00 :: b :: bs)
    else (if b.toNat < 0x80 then (b + 0x80) :: bs else 0x80 :: b :: bs)

/-- The value of a sign-bit-and-magnitude byte list, "negative zero" included (43_mpi_convert.md R173). -/
def signedValue : List Byte → Int
  | [] => 0
  | b :: bs =>
    let m := beValue (BitVec.ofNat 8 (b.toNat % 128) :: bs)
    if 0x80 ≤ b.toNat then -(m : Int) else (m : Int)

/-- `digitval(c)` (43_mpi_convert.md R176). -/
def digitVal (c : Byte) : Option Nat :=
  if 0x30 ≤ c.toNat ∧ c.toNat ≤ 0x39 then some (c.toNat - 0x30)
  else if 0x61 ≤ c.toNat ∧ c.toNat ≤ 0x7A then some (c.toNat - 0x61 + 10)
  else if 0x41 ≤ c.toNat ∧ c.toNat ≤ 0x5A then some (c.toNat - 0x41 + 10)
  else none

/-- A digit of base `r`, or none (43_mpi_convert.md R175). -/
def digitOf (r : Nat) (c : Byte) : Option Nat :=
  match digitVal c with
  | some x => if x < r then some x else none
  | none => none

/-- `digitchar(x)`, lower case (43_mpi_convert.md R176). -/
def digitChar (x : Nat) : Byte :=
  if x ≤ 9 then BitVec.ofNat 8 (0x30 + x) else BitVec.ofNat 8 (0x61 + x - 10)

/-- The digits of `m` in base `r` in front of `ds`, most significant first; `fuel` bounds the divisions
(43_mpi_convert.md R177). -/
def digitsOnto (r : Nat) : Nat → Nat → List Byte → List Byte
  | 0, _, ds => ds
  | fuel + 1, m, ds => if m = 0 then ds else digitsOnto r fuel (m / r) (digitChar (m % r) :: ds)

/-- `'-'` (20_memory.md R64). -/
def minusSign : Byte := 0x2D

/-- The digit string of `v` in base `r`: "0" for zero, a leading `'-'` for negative values (43_mpi_convert.md R177). -/
def toDigits (r : Nat) (v : Int) : List Byte :=
  if v = 0 then [0x30]
  else (if v < 0 then [minusSign] else []) ++ digitsOnto r (bitlen v.natAbs) v.natAbs []

/-- The value of a digit list read on from `acc`, none at the first byte that is no digit of base `r`
(43_mpi_convert.md R175). -/
def digitsValue (r : Nat) : List Byte → Nat → Option Nat
  | [], acc => some acc
  | c :: cs, acc =>
    match digitOf r c with
    | some x => digitsValue r cs (acc * r + x)
    | none => none

end Sys2Proof.Machine
end

