-- ==== Sys2Proof/Machine/Ops.lean ====
section
/-! DEFINITION. The named operations over registers and `BUF`, taking an error and returning from one, and the frame
that every command runs in (60_exceptions.md R262). -/

namespace Sys2Proof.Machine

/-! ## Memory: the list of defined bytes -/

/-- The byte written at `a` since reset, if any. -/
def Memory.find : Memory → Nat → Option Byte
  | [], _ => none
  | c :: rest, a => if c.1 = a then some c.2 else Memory.find rest a

/-- `BUF[a] <- b`, keeping the addresses strictly rising. -/
def Memory.put : Memory → Nat → Byte → Memory
  | [], a, b => [(a, b)]
  | c :: rest, a, b =>
    if a < c.1 then (a, b) :: c :: rest
    else if a = c.1 then (a, b) :: rest
    else c :: Memory.put rest a b

/-- Addresses strictly rising, so that equal contents are equal lists. -/
def Memory.rising : Memory → Bool
  | [] => true
  | c :: rest => rest.all (fun d => decide (c.1 < d.1)) && Memory.rising rest

/-- The canonical form in a buffer of `bufsz` bytes: strictly rising, and every listed address exists. No listed byte can
be what an unlisted address reads as, which is no stored byte at all but a free value (log 4). -/
def Memory.wf (bufsz : Nat) (mem : Memory) : Bool :=
  Memory.rising mem && mem.all (fun c => decide (c.1 < bufsz))

/-- `BUF[a]`: the byte written there since reset, else the free value of that byte (20_memory.md R70). -/
def Engine.readByte (e : Engine) (a : Nat) : Byte := (e.buf.find a).getD (Config.freeByte e.epoch a)

/-- `BUF[a] <- b`. -/
def Engine.writeByte (e : Engine) (a : Nat) (b : Byte) : Engine := { e with buf := e.buf.put a b }

/-- `MemRead(addr, n)` (00_scope.md R14). -/
def Engine.memRead (e : Engine) (addr : Nat) : Nat → List Byte
  | 0 => []
  | n + 1 => e.readByte addr :: e.memRead (addr + 1) n

/-- `MemWrite(addr, n, v)`, `n` the length of `v` (00_scope.md R14). -/
def Engine.memWrite (e : Engine) (addr : Nat) : List Byte → Engine
  | [] => e
  | b :: bs => (e.writeByte addr b).memWrite (addr + 1) bs

/-! ## Registers -/

/-- `M[i]` read (00_scope.md R14). -/
def Engine.readM (e : Engine) (i : MReg) : Int := e.m.get i

/-- Register `i` holds `v`. -/
def Engine.setM (e : Engine) (i : MReg) (v : Int) : Engine := { e with m := e.m.set i.val v }

/-- `P[i]` read (00_scope.md R14). -/
def Engine.readP (e : Engine) (i : PReg) : Point := e.p.get i

/-- `P[i] <- v` (00_scope.md R14). -/
def Engine.writeP (e : Engine) (i : PReg) (v : Point) : Engine := { e with p := e.p.set i.val v }

/-- `RES <- v` (00_scope.md R14). -/
def Engine.writeRes (e : Engine) (v : Word) : Engine := { e with res := v }

/-- `raise <kind>(info)` (00_scope.md R14). -/
def raise {α : Type} (kind : ErrorKind) (info : Nat) : Except Raise α := .error ⟨kind, BitVec.ofNat 32 info⟩

/-- `M[i] <- v`: `CapacityError(0)` if `|v| >= 2^(26*NLIMB)`, else register `i` holds `v` (00_scope.md R15,
10_state.md R23). -/
def writeM (i : MReg) (v : Int) (c : Config.Params) (e : Engine) : Except Raise Engine :=
  if c.capacity ≤ v.natAbs then raise .capacity 0 else .ok (e.setM i v)

/-! ## The step of a command, its errors, and the return from one -/

/-- The engine is in fault (60_exceptions.md R260). -/
def Engine.inFault (e : Engine) : Bool := faultBit e.status

/-- `CSR.CSEQ <- (CSEQ + 1) mod 2^32`, the first effect of every `Command` transaction (10_state.md R40). -/
def Engine.countCommand (e : Engine) : Engine := { e with cseq := e.cseq + 1 }

/-- TAKING AN ERROR (60_exceptions.md R262, R263, R268): from the state before the command, `CSEQ` advances,
`STATUS.FAULT` is set, `ERRCODE` and `ERRINFO` describe the error, and `ERRSEQ` is the `CSEQ` the command was taken
with. Nothing the command would have written is written; there is no vector, no saved pc and no mode. -/
def Engine.takeError (e : Engine) (r : Raise) : Engine :=
  { e.countCommand with
      status  := setFaultBit e.status
      errcode := r.kind.code.setWidth 32
      errinfo := r.info
      errseq  := e.cseq }

/-- THE RETURN FROM AN ERROR, the clears of `CLRERR` (40_system.md R101, 60_exceptions.md R269). -/
def Engine.clearError (e : Engine) : Engine :=
  { e with status := clearFaultBit e.status, errcode := 0, errinfo := 0, errseq := 0 }

/-- The end of a `Command` transaction: the engine is left as `e`, and the host gets `Response(status, CSR.RES)`
(60_exceptions.md R262, R272). -/
def State.respond (s : State) (e : Engine) (status : Byte) : State :=
  { s with toEngine := e, answer := .response status e.res }

/-- The command fails with `r`: the error is taken, and the response carries its code (60_exceptions.md R262). -/
def State.failedWith (s : State) (r : Raise) : State := s.respond (s.takeError r) r.kind.code

/-- Rejection while in fault: only `CSEQ` changes, and the response is `0xFF` (60_exceptions.md R265). -/
def State.rejected (s : State) : State := s.respond s.countCommand 0xFF

/-- What every step answers here: the engine goes on, or the named stop. -/
abbrev Outcome := Host.Outcome State Fault Refusal

/-- The pseudocode of a command: a function of the parameters and of the engine's state alone (00_scope.md R5, 10_state.md
R44). -/
abbrev Body : Type := Config.Params → Engine → Except Raise Engine

/-- The pseudocode `body` runs on an engine with the parameters `c` (60_exceptions.md R262): `CSEQ` advances, and either the
writes of the command are committed or its error is taken. -/
def runBody (c : Config.Params) (body : Body) (s : State) : Outcome :=
  match body c s.countCommand with
  | .ok e => .next (s.respond e 0)
  | .error r => .next (s.failedWith r)

/-- One `Command` transaction, on an engine with the parameters `c`, whose command has the pseudocode `body` 
(60_exceptions.md R262): rejected while in fault, else the pseudocode runs. Decoding reads no state and the rejection does
not depend on the word but for `CLRERR`, so this one gate serves every other word (log 8). -/
def runCommand (c : Config.Params) (body : Body) (s : State) : Outcome :=
  if s.inFault then .next s.rejected else runBody c body s

end Sys2Proof.Machine
end

