-- ==== Sys2Proof/Machine/Operands.lean ====
section
/-! DEFINITION. The operand forms: signed and unsigned immediates (30_encoding.md R87), the buffer operand for input
(20_memory.md R66) and for output (R67), and the operand values that a command tests. -/

namespace Sys2Proof.Machine

/-- `sext_32(w[31:0])` (00_scope.md R13, 30_encoding.md R87). -/
def signedImm (w : Word) : Int := w.toInt

/-- `w[31:0]` unsigned (30_encoding.md R87). -/
def unsignedImm (w : Word) : Nat := w.toNat

/-- `addr + len <= BUFSZ`, as integers, with no wrap-around (20_memory.md R66). -/
def inRange (c : Config.Params) (addr len : Nat) : Bool := decide (addr + len ≤ c.bufsz)

/-- The input bytes: `BufferRangeError(1)` if the operand leaves `BUF`, else `MemRead(addr, len)` (20_memory.md R66). -/
def inputBytes (arg : BufArg) (c : Config.Params) (e : Engine) : Except Raise (List Byte) :=
  if inRange c arg.addr.toNat arg.len.toNat then .ok (e.memRead arg.addr.toNat arg.len.toNat)
  else raise .bufferRange 1

/-- The output of `out`: `BufferRangeError(2)` if it is longer than the room granted, `BufferRangeError(1)` if it leaves
`BUF`, else `MemWrite(addr, L, out)` and `RES <- L` (20_memory.md R67). -/
def outputBytes (arg : BufArg) (out : List Byte) (c : Config.Params) (e : Engine) : Except Raise Engine :=
  if arg.len.toNat < out.length then raise .bufferRange 2
  else if inRange c arg.addr.toNat out.length then
    .ok ((e.memWrite arg.addr.toNat out).writeRes (countRes out.length))
  else raise .bufferRange 1

/-- A scalar operand: `OperandError(3)` if negative (45_point_arith.md R215, R218). -/
def scalarOperand (v : Int) : Except Raise Nat := if v < 0 then raise .operand 3 else .ok v.toNat

/-- A divisor operand: `DivideByZeroError(0)` if zero (41_mpi_arith.md R130; 44_field.md R190 for a modulus). -/
def nonzeroOperand (v : Int) : Except Raise Int := if v = 0 then raise .divideByZero 0 else .ok v

/-- A point operand whose affine coordinates are wanted: `OperandError(2)` for the infinity (45_point_arith.md R206). -/
def affineOperand : Point → Except Raise (Nat × Nat)
  | .inf => raise .operand 2
  | .aff x y => .ok (x, y)

end Sys2Proof.Machine
end

