-- ==== Sys2Proof/Machine/Field.lean ====
section
/-! DEFINITION. Field element commands (44_field.md): a value register and a modulus register, the modulus tested for
zero before anything else (R190). -/

namespace Sys2Proof.Machine

/-- The pseudocode of `FADD md, ma, mb, mm` (44_field.md R191). -/
def bodyFadd (md ma mb mm : MReg) : Body := fun c e => do
  let m ← nonzeroOperand (e.readM mm)
  writeM md (nmod (e.readM ma + e.readM mb) m) c e

/-- `FADD` (44_field.md R191) as a `Command` transaction. -/
def execFadd (md ma mb mm : MReg) (s : State) : Outcome := runCommand Config.params (bodyFadd md ma mb mm) s

/-- The pseudocode of `FSUB md, ma, mb, mm` (R192). -/
def bodyFsub (md ma mb mm : MReg) : Body := fun c e => do
  let m ← nonzeroOperand (e.readM mm)
  writeM md (nmod (e.readM ma - e.readM mb) m) c e

/-- `FSUB` (R192) as a `Command` transaction. -/
def execFsub (md ma mb mm : MReg) (s : State) : Outcome := runCommand Config.params (bodyFsub md ma mb mm) s

/-- The pseudocode of `FMUL md, ma, mb, mm` (R193). -/
def bodyFmul (md ma mb mm : MReg) : Body := fun c e => do
  let m ← nonzeroOperand (e.readM mm)
  writeM md (nmod (e.readM ma * e.readM mb) m) c e

/-- `FMUL` (R193) as a `Command` transaction. -/
def execFmul (md ma mb mm : MReg) (s : State) : Outcome := runCommand Config.params (bodyFmul md ma mb mm) s

/-- The pseudocode of `FSQR md, ma, mm` (R194). -/
def bodyFsqr (md ma mm : MReg) : Body := fun c e => do
  let m ← nonzeroOperand (e.readM mm)
  writeM md (nmod (e.readM ma * e.readM ma) m) c e

/-- `FSQR` (R194) as a `Command` transaction. -/
def execFsqr (md ma mm : MReg) (s : State) : Outcome := runCommand Config.params (bodyFsqr md ma mm) s

/-- The pseudocode of `FDIV md, ma, mb, mm` (R195). -/
def bodyFdiv (md ma mb mm : MReg) : Body := fun c e => do
  let m ← nonzeroOperand (e.readM mm)
  let b0 := (nmod (e.readM mb) m).toNat
  if b0.gcd m.natAbs ≠ 1 then raise .noInverse 2
  else writeM md (nmod (e.readM ma * (invMod b0 m.natAbs : Int)) m) c e

/-- `FDIV` (R195) as a `Command` transaction. -/
def execFdiv (md ma mb mm : MReg) (s : State) : Outcome := runCommand Config.params (bodyFdiv md ma mb mm) s

/-- The pseudocode of `FEQ ma, mma, mb, mmb` (R196): equal moduli as signed integers, and equal reduced values. -/
def bodyFeq (ma mma mb mmb : MReg) : Body := fun _ e => do
  let ka ← nonzeroOperand (e.readM mma)
  let kb ← nonzeroOperand (e.readM mmb)
  .ok (e.writeRes (boolRes (decide (ka = kb ∧ nmod (e.readM ma) ka = nmod (e.readM mb) kb))))

/-- `FEQ` (R196) as a `Command` transaction. -/
def execFeq (ma mma mb mmb : MReg) (s : State) : Outcome := runCommand Config.params (bodyFeq ma mma mb mmb) s

end Sys2Proof.Machine
end

