-- ==== Sys2Proof/Machine/MpiArith.lean ====
section
/-! DEFINITION. Multi-precision integer arithmetic (41_mpi_arith.md), the value-level rules. -/

namespace Sys2Proof.Machine

/-- The pseudocode of `ADD md, ma, mb` (41_mpi_arith.md R120). -/
def bodyAdd (md ma mb : MReg) : Body := fun c e => writeM md (e.readM ma + e.readM mb) c e

/-- `ADD` (41_mpi_arith.md R120) as a `Command` transaction. -/
def execAdd (md ma mb : MReg) (s : State) : Outcome := runCommand Config.params (bodyAdd md ma mb) s

/-- The pseudocode of `SUB md, ma, mb` (R121). -/
def bodySub (md ma mb : MReg) : Body := fun c e => writeM md (e.readM ma - e.readM mb) c e

/-- `SUB` (R121) as a `Command` transaction. -/
def execSub (md ma mb : MReg) (s : State) : Outcome := runCommand Config.params (bodySub md ma mb) s

/-- The pseudocode of `MUL md, ma, mb` (R126). -/
def bodyMul (md ma mb : MReg) : Body := fun c e => writeM md (e.readM ma * e.readM mb) c e

/-- `MUL` (R126) as a `Command` transaction. -/
def execMul (md ma mb : MReg) (s : State) : Outcome := runCommand Config.params (bodyMul md ma mb) s

/-- The pseudocode of `SQR md, ma` (R128). -/
def bodySqr (md ma : MReg) : Body := fun c e => writeM md (e.readM ma * e.readM ma) c e

/-- `SQR` (R128) as a `Command` transaction. -/
def execSqr (md ma : MReg) (s : State) : Outcome := runCommand Config.params (bodySqr md ma) s

/-- The pseudocode of `DIV md, ma, mb` (R130). -/
def bodyDiv (md ma mb : MReg) : Body := fun c e => do
  let b ← nonzeroOperand (e.readM mb)
  writeM md (tquo (e.readM ma) b) c e

/-- `DIV` (R130) as a `Command` transaction. -/
def execDiv (md ma mb : MReg) (s : State) : Outcome := runCommand Config.params (bodyDiv md ma mb) s

/-- The pseudocode of `MOD md, ma, mb` (R131). -/
def bodyMod (md ma mb : MReg) : Body := fun c e => do
  let b ← nonzeroOperand (e.readM mb)
  writeM md (nmod (e.readM ma) b) c e

/-- `MOD` (R131) as a `Command` transaction. -/
def execMod (md ma mb : MReg) (s : State) : Outcome := runCommand Config.params (bodyMod md ma mb) s

/-- The pseudocode of `DIVREM mq, mr, ma, mb` (R132): both operands are read before either destination is
written (00_scope.md R11). -/
def bodyDivrem (mq mr ma mb : MReg) : Body := fun c e => do
  let a := e.readM ma
  let b ← nonzeroOperand (e.readM mb)
  let t ← writeM mq (tquo a b) c e
  writeM mr (trem a b) c t

/-- `DIVREM` (R132) as a `Command` transaction. -/
def execDivrem (mq mr ma mb : MReg) (s : State) : Outcome := runCommand Config.params (bodyDivrem mq mr ma mb) s

/-- The pseudocode of `MODINV md, ma, mm` (R136). -/
def bodyModinv (md ma mm : MReg) : Body := fun c e =>
  let n := (e.readM mm).natAbs
  let a0 := (e.readM ma % (n : Int)).toNat
  if n = 0 then raise .noInverse 1
  else if a0.gcd n ≠ 1 then raise .noInverse 2
  else writeM md (invMod a0 n) c e

/-- `MODINV` (R136) as a `Command` transaction. -/
def execModinv (md ma mm : MReg) (s : State) : Outcome := runCommand Config.params (bodyModinv md ma mm) s

/-- `M[md] <- v * 2^k`, with the capacity check of `M[i] <- v` made on the bit length, so that no power is formed for a
value that cannot fit: a non-zero `v` with `bitlen(|v|) + k > 26*NLIMB` faults (R139, corner cases). -/
def writeShiftedUp (md : MReg) (v : Int) (k : Nat) (c : Config.Params) (e : Engine) : Except Raise Engine :=
  if v ≠ 0 ∧ c.capacityBits < bitlen v.natAbs + k then raise .capacity 0
  else writeM md (shiftUp v k) c e

/-- The pseudocode of `SHL md, ma, #s` (R139). -/
def bodyShl (md ma : MReg) (imm : Word) : Body := fun c e =>
  let k := signedImm imm
  if 0 ≤ k then writeShiftedUp md (e.readM ma) k.toNat c e
  else writeM md (shiftDown (e.readM ma) (-k).toNat) c e

/-- `SHL` (R139) as a `Command` transaction. -/
def execShl (md ma : MReg) (imm : Word) (s : State) : Outcome := runCommand Config.params (bodyShl md ma imm) s

/-- The pseudocode of `SHR md, ma, #s` (R140), of the magnitude (90_conflicts.md C3). -/
def bodyShr (md ma : MReg) (imm : Word) : Body := fun c e =>
  let k := signedImm imm
  if 0 ≤ k then writeM md (shiftDown (e.readM ma) k.toNat) c e
  else writeShiftedUp md (e.readM ma) (-k).toNat c e

/-- `SHR` (R140) as a `Command` transaction. -/
def execShr (md ma : MReg) (imm : Word) (s : State) : Outcome := runCommand Config.params (bodyShr md ma imm) s

end Sys2Proof.Machine
end

