-- ==== Sys2Proof/Machine/MpiConvert.lean ====
section
/-! DEFINITION. Integer conversions: byte arrays and digit strings (43_mpi_convert.md). -/

namespace Sys2Proof.Machine

/-- The pseudocode of `FROMBU md, [addr, len]` (43_mpi_convert.md R170). -/
def bodyFrombu (md : MReg) (arg : BufArg) : Body := fun c e => do
  let bs ← inputBytes arg c e
  writeM md (beValue bs) c e

/-- `FROMBU` (43_mpi_convert.md R170) as a `Command` transaction. -/
def execFrombu (md : MReg) (arg : BufArg) (s : State) : Outcome := runCommand Config.params (bodyFrombu md arg) s

/-- The pseudocode of `TOBU ma, [addr, len]` (R171). -/
def bodyTobu (ma : MReg) (arg : BufArg) : Body := fun c e => outputBytes arg (unsignedBytes (e.readM ma).natAbs) c e

/-- `TOBU` (R171) as a `Command` transaction. -/
def execTobu (ma : MReg) (arg : BufArg) (s : State) : Outcome := runCommand Config.params (bodyTobu ma arg) s

/-- The pseudocode of `FROMBS md, [addr, len]` (R173). -/
def bodyFrombs (md : MReg) (arg : BufArg) : Body := fun c e => do
  let bs ← inputBytes arg c e
  writeM md (signedValue bs) c e

/-- `FROMBS` (R173) as a `Command` transaction. -/
def execFrombs (md : MReg) (arg : BufArg) (s : State) : Outcome := runCommand Config.params (bodyFrombs md arg) s

/-- The pseudocode of `TOBS ma, [addr, len]` (R172). -/
def bodyTobs (ma : MReg) (arg : BufArg) : Body := fun c e => outputBytes arg (signedBytes (e.readM ma)) c e

/-- `TOBS` (R172) as a `Command` transaction. -/
def execTobs (ma : MReg) (arg : BufArg) (s : State) : Outcome := runCommand Config.params (bodyTobs ma arg) s

/-- The integer that a string of base `r` stands for: an optional `'-'`, then one or more digits (R175). -/
def parseInt (r : Nat) (bs : List Byte) : Except Raise Int :=
  let neg := bs.head? == some minusSign
  let ds := if neg then bs.tail else bs
  if ds.isEmpty then raise .parse 1
  else match digitsValue r ds 0 with
    | none => raise .parse 2
    | some v => .ok (if neg then -(v : Int) else (v : Int))

/-- The pseudocode of `PARSE md, r=R, [addr, len]` (R175). -/
def bodyParse (md : MReg) (radix : Nat) (arg : BufArg) : Body := fun c e => do
  let bs ← inputBytes arg c e
  let v ← parseInt radix bs
  writeM md v c e

/-- `PARSE` (R175) as a `Command` transaction. -/
def execParse (md : MReg) (radix : Nat) (arg : BufArg) (s : State) : Outcome :=
  runCommand Config.params (bodyParse md radix arg) s

/-- The pseudocode of `TOSTR ma, r=R, [addr, len]` (R177). -/
def bodyTostr (ma : MReg) (radix : Nat) (arg : BufArg) : Body :=
  fun c e => outputBytes arg (toDigits radix (e.readM ma)) c e

/-- `TOSTR` (R177) as a `Command` transaction. -/
def execTostr (ma : MReg) (radix : Nat) (arg : BufArg) (s : State) : Outcome :=
  runCommand Config.params (bodyTostr ma radix arg) s

end Sys2Proof.Machine
end

