-- ==== Sys2Proof/Machine/MpiQuery.lean ====
section
/-! DEFINITION. Integer comparison and bit queries (42_mpi_query.md): each writes `RES` and nothing else. -/

namespace Sys2Proof.Machine

/-- The pseudocode of `CMP ma, mb` (42_mpi_query.md R160). -/
def bodyCmp (ma mb : MReg) : Body := fun _ e => .ok (e.writeRes (cmpRes (e.readM ma) (e.readM mb)))

/-- `CMP` (42_mpi_query.md R160) as a `Command` transaction. -/
def execCmp (ma mb : MReg) (s : State) : Outcome := runCommand Config.params (bodyCmp ma mb) s

/-- The pseudocode of `ISEVEN ma` (R161). -/
def bodyIseven (ma : MReg) : Body := fun _ e => .ok (e.writeRes (boolRes (decide (e.readM ma % 2 = 0))))

/-- `ISEVEN` (R161) as a `Command` transaction. -/
def execIseven (ma : MReg) (s : State) : Outcome := runCommand Config.params (bodyIseven ma) s

/-- The pseudocode of `TESTBIT ma, #n` (R162), of the magnitude (90_conflicts.md C3). -/
def bodyTestbit (ma : MReg) (idx : Word) : Body :=
  fun _ e => .ok (e.writeRes (boolRes ((e.readM ma).natAbs.testBit (unsignedImm idx))))

/-- `TESTBIT` (R162) as a `Command` transaction. -/
def execTestbit (ma : MReg) (idx : Word) (s : State) : Outcome := runCommand Config.params (bodyTestbit ma idx) s

/-- The pseudocode of `BITLEN ma` (R163), of the magnitude (90_conflicts.md C3). -/
def bodyBitlen (ma : MReg) : Body := fun _ e => .ok (e.writeRes (countRes (bitlen (e.readM ma).natAbs)))

/-- `BITLEN` (R163) as a `Command` transaction. -/
def execBitlen (ma : MReg) (s : State) : Outcome := runCommand Config.params (bodyBitlen ma) s

end Sys2Proof.Machine
end

