-- ==== Sys2Proof/Machine/Curve.lean ====
section
/-! DEFINITION. The curve ROM (10_state.md R30), and on point values the negation, doubling, addition and the two scalar
multiplications (45_point_arith.md R209, R210, R215, R218). -/

namespace Sys2Proof.Machine

namespace Rom

/-- `ROM.p = 2^256 - 2^32 - 977` (10_state.md R30, 90_conflicts.md C1). -/
def p : Nat := 0xFFFFFFFFFFFFFFFFFFFFFFFFFFFFFFFFFFFFFFFFFFFFFFFFFFFFFFFEFFFFFC2F

/-- `ROM.a` (10_state.md R30). -/
def a : Nat := 0

/-- `ROM.b` (10_state.md R30). -/
def b : Nat := 7

/-- `ROM.Gx` (10_state.md R30). -/
def gx : Nat := 0x79BE667EF9DCBBAC55A06295CE870B07029BFCDB2DCE28D959F2815B16F81798

/-- `ROM.Gy` (10_state.md R30). -/
def gy : Nat := 0x483ADA7726A3C4655DA4FBFC0E1108A8FD17B448A68554199C47D08FFB10D4B8

/-- `ROM.n` (10_state.md R30). -/
def n : Nat := 0xFFFFFFFFFFFFFFFFFFFFFFFFFFFFFFFEBAAEDCE6AF48A03BBFD25E8CD0364141

/-- `ROM.h` (10_state.md R30). -/
def h : Nat := 1

end Rom

/-- `ROM[0..6]` (10_state.md R30, 40_system.md R103). -/
def romValue : RomIndex → Nat
  | .p => Rom.p
  | .a => Rom.a
  | .b => Rom.b
  | .gx => Rom.gx
  | .gy => Rom.gy
  | .n => Rom.n
  | .h => Rom.h

/-- An integer modulo `p`, in `0..p-1` (45_point_arith.md R200). -/
def modP (v : Int) : Nat := (v % (Rom.p : Int)).toNat

/-- `inv(t)`, the inverse of `t` modulo `p` (45_point_arith.md R210). -/
def invP (t : Int) : Nat := invMod (modP t) Rom.p

/-- `G` (45_point_arith.md R202). -/
def generator : Point := .aff Rom.gx Rom.gy

/-- `negate` (45_point_arith.md R209). -/
def negPoint : Point → Point
  | .inf => .inf
  | .aff x y => .aff x (modP ((Rom.p : Int) - y))

/-- The third point of the line with slope `lam` through `(x1, y1)` and a point with abscissa `x2`, reflected: the last
lines of `pdbl` and `padd` (45_point_arith.md R210). -/
def chordPoint (lam x1 y1 x2 : Nat) : Point :=
  let x3 := modP ((lam : Int) * lam - x1 - x2)
  .aff x3 (modP ((lam : Int) * ((x1 : Int) - x3) - y1))

/-- `pdbl(A)` (45_point_arith.md R210). -/
def pdbl : Point → Point
  | .inf => .inf
  | .aff x y =>
    if y = 0 then .inf
    else chordPoint (modP ((3 * (x : Int) * x + Rom.a) * invP (2 * (y : Int)))) x y x

/-- `padd(A, B)` (45_point_arith.md R210). -/
def padd : Point → Point → Point
  | .inf, q => q
  | .aff x1 y1, .inf => .aff x1 y1
  | .aff x1 y1, .aff x2 y2 =>
    if x1 = x2 ∧ y1 = y2 then pdbl (.aff x1 y1)
    else if x1 = x2 then .inf
    else chordPoint (modP (((y2 : Int) - y1) * invP ((x2 : Int) - x1))) x1 y1 x2

/-- The scan of `multiply` for the bit positions `i, i-1, …, 1` of `h` and `k`: double, and where the bits differ add `A`
or `N` (45_point_arith.md R215). -/
def pmulScan (A N : Point) (h k : Nat) : Nat → Point → Point
  | 0, R => R
  | i + 1, R =>
    let D := pdbl R
    let hb := h.testBit (i + 1)
    pmulScan A N h k i (if hb = k.testBit (i + 1) then D else padd D (if hb then A else N))

/-- `multiply(A, k)` for `k >= 0` (45_point_arith.md R215): the scan starts below the top bit of `h = 3k`. -/
def pmul (A : Point) (k : Nat) : Point :=
  if k = 0 ∨ A = .inf then .inf
  else pmulScan A (negPoint A) (3 * k) k (bitlen (3 * k) - 2) A

/-- The scan of `multiplyTwo` for the bit positions `i-1, …, 0` of `j` and `k`, with `B = A + Q` (45_point_arith.md
R218). -/
def pmul2Scan (A Q B : Point) (j k : Nat) : Nat → Point → Point
  | 0, R => R
  | i + 1, R =>
    let D := pdbl R
    let jb := j.testBit i
    let kb := k.testBit i
    pmul2Scan A Q B j k i
      (if jb && kb then padd D B else if jb then padd D A else if kb then padd D Q else D)

/-- `multiplyTwo(A, j, Q, k)` for `j, k >= 0` (45_point_arith.md R218). -/
def pmul2 (A : Point) (j : Nat) (Q : Point) (k : Nat) : Point :=
  pmul2Scan A Q (padd A Q) j k (max (bitlen j) (bitlen k)) .inf

/-- `y^2 = x^3 + a*x + b` modulo `p` (46_point_codec.md R247, 10_state.md R30). -/
def onCurve (x y : Nat) : Bool :=
  decide (y * y % Rom.p = (x * x * x + Rom.a * x + Rom.b) % Rom.p)

end Sys2Proof.Machine
end

