-- ==== Sys2Proof/Machine/PointArith.lean ====
section
/-! DEFINITION. Point commands: construction, access, group law, scalar multiplication (45_point_arith.md). -/

namespace Sys2Proof.Machine

/-- The pseudocode of `PINF pd` (45_point_arith.md R201). -/
def bodyPinf (pd : PReg) : Body := fun _ e => .ok (e.writeP pd .inf)

/-- `PINF` (45_point_arith.md R201) as a `Command` transaction. -/
def execPinf (pd : PReg) (s : State) : Outcome := runCommand Config.params (bodyPinf pd) s

/-- The pseudocode of `PGEN pd` (R202). -/
def bodyPgen (pd : PReg) : Body := fun _ e => .ok (e.writeP pd generator)

/-- `PGEN` (R202) as a `Command` transaction. -/
def execPgen (pd : PReg) (s : State) : Outcome := runCommand Config.params (bodyPgen pd) s

/-- `Aff(x, y)` from two integers: `DomainError(2)` if either is outside `[0, p)` (R203). -/
def pointOf (x y : Int) : Except Raise Point :=
  if x < 0 ∨ (Rom.p : Int) ≤ x ∨ y < 0 ∨ (Rom.p : Int) ≤ y then raise .domain 2
  else .ok (.aff x.toNat y.toNat)

/-- The pseudocode of `PSETA pd, mx, my` (R203). -/
def bodyPseta (pd : PReg) (mx my : MReg) : Body := fun _ e => do
  let A ← pointOf (e.readM mx) (e.readM my)
  .ok (e.writeP pd A)

/-- `PSETA` (R203) as a `Command` transaction. -/
def execPseta (pd : PReg) (mx my : MReg) (s : State) : Outcome := runCommand Config.params (bodyPseta pd mx my) s

/-- The pseudocode of `PMOV pd, pa` (R204). -/
def bodyPmov (pd pa : PReg) : Body := fun _ e => .ok (e.writeP pd (e.readP pa))

/-- `PMOV` (R204) as a `Command` transaction. -/
def execPmov (pd pa : PReg) (s : State) : Outcome := runCommand Config.params (bodyPmov pd pa) s

/-- The pseudocode of `PISINF pa` (R205). -/
def bodyPisinf (pa : PReg) : Body := fun _ e => .ok (e.writeRes (boolRes (decide (e.readP pa = .inf))))

/-- `PISINF` (R205) as a `Command` transaction. -/
def execPisinf (pa : PReg) (s : State) : Outcome := runCommand Config.params (bodyPisinf pa) s

/-- The pseudocode of `PGETX md, pa` (R206). -/
def bodyPgetx (md : MReg) (pa : PReg) : Body := fun c e => do
  let xy ← affineOperand (e.readP pa)
  writeM md xy.1 c e

/-- `PGETX` (R206) as a `Command` transaction. -/
def execPgetx (md : MReg) (pa : PReg) (s : State) : Outcome := runCommand Config.params (bodyPgetx md pa) s

/-- The pseudocode of `PGETY md, pa` (R207). -/
def bodyPgety (md : MReg) (pa : PReg) : Body := fun c e => do
  let xy ← affineOperand (e.readP pa)
  writeM md xy.2 c e

/-- `PGETY` (R207) as a `Command` transaction. -/
def execPgety (md : MReg) (pa : PReg) (s : State) : Outcome := runCommand Config.params (bodyPgety md pa) s

/-- The pseudocode of `PEQ pa, pb` (R208): equality of the values, the infinity equal to itself alone. -/
def bodyPeq (pa pb : PReg) : Body := fun _ e => .ok (e.writeRes (boolRes (decide (e.readP pa = e.readP pb))))

/-- `PEQ` (R208) as a `Command` transaction. -/
def execPeq (pa pb : PReg) (s : State) : Outcome := runCommand Config.params (bodyPeq pa pb) s

/-- The pseudocode of `PNEG pd, pa` (R209). -/
def bodyPneg (pd pa : PReg) : Body := fun _ e => .ok (e.writeP pd (negPoint (e.readP pa)))

/-- `PNEG` (R209) as a `Command` transaction. -/
def execPneg (pd pa : PReg) (s : State) : Outcome := runCommand Config.params (bodyPneg pd pa) s

/-- The pseudocode of `PADD pd, pa, pb` (R211). -/
def bodyPadd (pd pa pb : PReg) : Body :=
  fun _ e => .ok (e.writeP pd (Sys2Proof.Machine.padd (e.readP pa) (e.readP pb)))

/-- `PADD` (R211) as a `Command` transaction. -/
def execPadd (pd pa pb : PReg) (s : State) : Outcome := runCommand Config.params (bodyPadd pd pa pb) s

/-- The pseudocode of `PDBL pd, pa` (R213). -/
def bodyPdbl (pd pa : PReg) : Body := fun _ e => .ok (e.writeP pd (Sys2Proof.Machine.pdbl (e.readP pa)))

/-- `PDBL` (R213) as a `Command` transaction. -/
def execPdbl (pd pa : PReg) (s : State) : Outcome := runCommand Config.params (bodyPdbl pd pa) s

/-- The pseudocode of `PMUL pd, pa, mk` (R215). -/
def bodyPmul (pd pa : PReg) (mk : MReg) : Body := fun _ e => do
  let k ← scalarOperand (e.readM mk)
  .ok (e.writeP pd (Sys2Proof.Machine.pmul (e.readP pa) k))

/-- `PMUL` (R215) as a `Command` transaction. -/
def execPmul (pd pa : PReg) (mk : MReg) (s : State) : Outcome := runCommand Config.params (bodyPmul pd pa mk) s

/-- The pseudocode of `PMUL2 pd, pa, mj, pb, mk` (R218). -/
def bodyPmul2 (pd pa : PReg) (mj : MReg) (pb : PReg) (mk : MReg) : Body := fun _ e => do
  let j ← scalarOperand (e.readM mj)
  let k ← scalarOperand (e.readM mk)
  .ok (e.writeP pd (Sys2Proof.Machine.pmul2 (e.readP pa) j (e.readP pb) k))

/-- `PMUL2` (R218) as a `Command` transaction. -/
def execPmul2 (pd pa : PReg) (mj : MReg) (pb : PReg) (mk : MReg) (s : State) : Outcome :=
  runCommand Config.params (bodyPmul2 pd pa mj pb mk) s

end Sys2Proof.Machine
end

