-- ==== Sys2Proof/Machine/PointCodec.lean ====
section
/-! DEFINITION. Point encoding, decoding and validation (46_point_codec.md). -/

namespace Sys2Proof.Machine

/-- `FLEN`, the bytes of one coordinate in a SEC1 encoding (00_scope.md R5). -/
def coordBytes : Nat := 32

/-- The SEC1 encoding of `Aff(x, y)` (46_point_codec.md R240). -/
def sec1Bytes (compressed : Bool) (x y : Nat) : List Byte :=
  if compressed then (if y % 2 = 0 then 0x02 else 0x03) :: beBytes coordBytes x
  else 0x04 :: (beBytes coordBytes x ++ beBytes coordBytes y)

/-- The pseudocode of `PENC pa, c=C, [addr, len]` (R240). -/
def bodyPenc (pa : PReg) (compressed : Bool) (arg : BufArg) : Body := fun c e => do
  let xy ← affineOperand (e.readP pa)
  outputBytes arg (sec1Bytes compressed xy.1 xy.2) c e

/-- `PENC` (R240) as a `Command` transaction. -/
def execPenc (pa : PReg) (compressed : Bool) (arg : BufArg) (s : State) : Outcome :=
  runCommand Config.params (bodyPenc pa compressed arg) s

/-- Two coordinates from the bytes behind the lead byte, split evenly (R242). -/
def decodeCoords (ds : List Byte) : Except Raise Point :=
  if ds.length = 0 ∨ ds.length % 2 = 1 then raise .parse 4
  else
    let x := beValue (ds.take (ds.length / 2))
    let y := beValue (ds.drop (ds.length / 2))
    if Rom.p ≤ x ∨ Rom.p ≤ y then raise .domain 2
    else .ok (.aff x y)

/-- `decode_point(e)`, its tests in the order written (R242, R243). -/
def decodePoint : List Byte → Except Raise Point
  | [] => raise .parse 1
  | lead :: ds =>
    if lead = 0x00 then (if ds.length ≠ 0 then raise .parse 4 else .ok .inf)
    else if lead = 0x02 ∨ lead = 0x03 then raise .unsupportedEncoding 1
    else if lead ≠ 0x04 ∧ lead ≠ 0x06 ∧ lead ≠ 0x07 then raise .unsupportedEncoding 2
    else decodeCoords ds

/-- The pseudocode of `PDEC pd, [addr, len]` (R244). -/
def bodyPdec (pd : PReg) (arg : BufArg) : Body := fun c e => do
  let bs ← inputBytes arg c e
  let A ← decodePoint bs
  .ok (e.writeP pd A)

/-- `PDEC` (R244) as a `Command` transaction. -/
def execPdec (pd : PReg) (arg : BufArg) (s : State) : Outcome := runCommand Config.params (bodyPdec pd arg) s

/-- The bytes that an even number of hex digits stand for; none at a byte that is no hex digit (R245). -/
def hexPairs : List Byte → Option (List Byte)
  | hi :: lo :: rest =>
    match digitOf 16 hi, digitOf 16 lo, hexPairs rest with
    | some h, some l, some bs => some (BitVec.ofNat 8 (16 * h + l) :: bs)
    | _, _, _ => none
  | _ => some []

/-- The bytes of a hex string: `ParseError(3)` for an odd length, `ParseError(2)` for a bad digit (R245). -/
def hexBytes (cs : List Byte) : Except Raise (List Byte) :=
  if cs.length % 2 = 1 then raise .parse 3
  else match hexPairs cs with
    | none => raise .parse 2
    | some bs => .ok bs

/-- The pseudocode of `PDECHEX pd, [addr, len]` (R245). -/
def bodyPdechex (pd : PReg) (arg : BufArg) : Body := fun c e => do
  let cs ← inputBytes arg c e
  let bs ← hexBytes cs
  let A ← decodePoint bs
  .ok (e.writeP pd A)

/-- `PDECHEX` (R245) as a `Command` transaction. -/
def execPdechex (pd : PReg) (arg : BufArg) (s : State) : Outcome := runCommand Config.params (bodyPdechex pd arg) s

/-- `validate()`: the four tests in order (R247). -/
def validatePoint : Point → Except Raise Unit
  | .inf => raise .domain 1
  | .aff x y =>
    if x < 1 ∨ Rom.p - 1 < x ∨ y < 1 ∨ Rom.p - 1 < y then raise .domain 2
    else if onCurve x y = false then raise .domain 3
    else if pmul (.aff x y) Rom.n ≠ .inf then raise .domain 4
    else .ok ()

/-- The pseudocode of `PVALID pa` (R247). -/
def bodyPvalid (pa : PReg) : Body := fun _ e => do
  validatePoint (e.readP pa)
  .ok (e.writeRes 1)

/-- `PVALID` (R247) as a `Command` transaction. -/
def execPvalid (pa : PReg) (s : State) : Outcome := runCommand Config.params (bodyPvalid pa) s

end Sys2Proof.Machine
end

