-- ==== Sys2Proof/Machine/System.lean ====
section
/-! DEFINITION. System, load and move commands (40_system.md). -/

namespace Sys2Proof.Machine

/-- The pseudocode of `CLRERR` (40_system.md R101). -/
def bodyClrerr : Body := fun _ e => .ok e.clearError

/-- `CLRERR` (40_system.md R101) as a `Command` transaction, the one that is executed while in fault (60_exceptions.md
R265). -/
def execClrerr (s : State) : Outcome := runBody Config.params bodyClrerr s

/-- The pseudocode of `CURVE #id` (40_system.md R102). -/
def bodyCurve (id : Word) : Body :=
  fun _ e => if unsignedImm id ≠ 0 then raise .operand 1 else .ok { e with curveid := 0 }

/-- `CURVE` (40_system.md R102) as a `Command` transaction. -/
def execCurve (id : Word) (s : State) : Outcome := runCommand Config.params (bodyCurve id) s

/-- The pseudocode of `LDCP md, #idx` (40_system.md R103). -/
def bodyLdcp (md : MReg) (idx : RomIndex) : Body := fun c e => writeM md (romValue idx) c e

/-- `LDCP` (40_system.md R103) as a `Command` transaction. -/
def execLdcp (md : MReg) (idx : RomIndex) (s : State) : Outcome := runCommand Config.params (bodyLdcp md idx) s

/-- The pseudocode of `LDI md, #imm` (40_system.md R104). -/
def bodyLdi (md : MReg) (imm : Word) : Body := fun c e => writeM md (signedImm imm) c e

/-- `LDI` (40_system.md R104) as a `Command` transaction. -/
def execLdi (md : MReg) (imm : Word) (s : State) : Outcome := runCommand Config.params (bodyLdi md imm) s

/-- The pseudocode of `MOV md, ma` (40_system.md R105). -/
def bodyMov (md ma : MReg) : Body := fun c e => writeM md (e.readM ma) c e

/-- `MOV` (40_system.md R105) as a `Command` transaction. -/
def execMov (md ma : MReg) (s : State) : Outcome := runCommand Config.params (bodyMov md ma) s

end Sys2Proof.Machine
end

