-- ==== Sys2Proof/Machine/Bodies.lean ====
section
/-! DEFINITION. The pseudocode of every command, and the execution of a command on an engine of any parameters:
00_scope.md R5 has a model take them as arguments, which the type of `exec` (Dispatch.lean) has no place for (log 1). -/

namespace Sys2Proof.Machine

/-- The pseudocode of a command. -/
def body : Instr → Body
  | .clrerr => bodyClrerr
  | .curve id => bodyCurve id
  | .ldcp md idx => bodyLdcp md idx
  | .ldi md imm => bodyLdi md imm
  | .mov md ma => bodyMov md ma
  | .add md ma mb => bodyAdd md ma mb
  | .sub md ma mb => bodySub md ma mb
  | .mul md ma mb => bodyMul md ma mb
  | .sqr md ma => bodySqr md ma
  | .div md ma mb => bodyDiv md ma mb
  | .mod md ma mb => bodyMod md ma mb
  | .divrem mq mr ma mb => bodyDivrem mq mr ma mb
  | .modinv md ma mm => bodyModinv md ma mm
  | .shl md ma imm => bodyShl md ma imm
  | .shr md ma imm => bodyShr md ma imm
  | .cmp ma mb => bodyCmp ma mb
  | .iseven ma => bodyIseven ma
  | .testbit ma idx => bodyTestbit ma idx
  | .bitlen ma => bodyBitlen ma
  | .frombu md arg => bodyFrombu md arg
  | .tobu ma arg => bodyTobu ma arg
  | .frombs md arg => bodyFrombs md arg
  | .tobs ma arg => bodyTobs ma arg
  | .parse md radix arg => bodyParse md radix arg
  | .tostr ma radix arg => bodyTostr ma radix arg
  | .fadd md ma mb mm => bodyFadd md ma mb mm
  | .fsub md ma mb mm => bodyFsub md ma mb mm
  | .fmul md ma mb mm => bodyFmul md ma mb mm
  | .fsqr md ma mm => bodyFsqr md ma mm
  | .fdiv md ma mb mm => bodyFdiv md ma mb mm
  | .feq ma mma mb mmb => bodyFeq ma mma mb mmb
  | .pinf pd => bodyPinf pd
  | .pgen pd => bodyPgen pd
  | .pseta pd mx my => bodyPseta pd mx my
  | .pmov pd pa => bodyPmov pd pa
  | .pisinf pa => bodyPisinf pa
  | .pgetx md pa => bodyPgetx md pa
  | .pgety md pa => bodyPgety md pa
  | .peq pa pb => bodyPeq pa pb
  | .pneg pd pa => bodyPneg pd pa
  | .padd pd pa pb => bodyPadd pd pa pb
  | .pdbl pd pa => bodyPdbl pd pa
  | .pmul pd pa mk => bodyPmul pd pa mk
  | .pmul2 pd pa mj pb mk => bodyPmul2 pd pa mj pb mk
  | .penc pa compressed arg => bodyPenc pa compressed arg
  | .pdec pd arg => bodyPdec pd arg
  | .pdechex pd arg => bodyPdechex pd arg
  | .pvalid pa => bodyPvalid pa

/-- The command `i` on an engine with the parameters `c` (60_exceptions.md R262, R265); `exec` is the same for
`Config.params` (Laws/Ops.lean, `exec_eq_execAt`). -/
def execAt (c : Config.Params) (i : Instr) (s : State) : Outcome :=
  if s.inFault = true ∧ i ≠ .clrerr then .next s.rejected else runBody c (body i) s

end Sys2Proof.Machine
end

