-- ==== Sys2Proof/Machine/Dispatch.lean ====
section
/-! DEFINITION. One arm per command. -/

namespace Sys2Proof.Machine

def exec (i : Instr) (s : State) : Host.Outcome State Fault Refusal :=
  match i with
  | .clrerr => Sys2Proof.Machine.execClrerr s
  | .curve id => Sys2Proof.Machine.execCurve id s
  | .ldcp md idx => Sys2Proof.Machine.execLdcp md idx s
  | .ldi md imm => Sys2Proof.Machine.execLdi md imm s
  | .mov md ma => Sys2Proof.Machine.execMov md ma s
  | .add md ma mb => Sys2Proof.Machine.execAdd md ma mb s
  | .sub md ma mb => Sys2Proof.Machine.execSub md ma mb s
  | .mul md ma mb => Sys2Proof.Machine.execMul md ma mb s
  | .sqr md ma => Sys2Proof.Machine.execSqr md ma s
  | .div md ma mb => Sys2Proof.Machine.execDiv md ma mb s
  | .mod md ma mb => Sys2Proof.Machine.execMod md ma mb s
  | .divrem mq mr ma mb => Sys2Proof.Machine.execDivrem mq mr ma mb s
  | .modinv md ma mm => Sys2Proof.Machine.execModinv md ma mm s
  | .shl md ma imm => Sys2Proof.Machine.execShl md ma imm s
  | .shr md ma imm => Sys2Proof.Machine.execShr md ma imm s
  | .cmp ma mb => Sys2Proof.Machine.execCmp ma mb s
  | .iseven ma => Sys2Proof.Machine.execIseven ma s
  | .testbit ma idx => Sys2Proof.Machine.execTestbit ma idx s
  | .bitlen ma => Sys2Proof.Machine.execBitlen ma s
  | .frombu md arg => Sys2Proof.Machine.execFrombu md arg s
  | .tobu ma arg => Sys2Proof.Machine.execTobu ma arg s
  | .frombs md arg => Sys2Proof.Machine.execFrombs md arg s
  | .tobs ma arg => Sys2Proof.Machine.execTobs ma arg s
  | .parse md radix arg => Sys2Proof.Machine.execParse md radix arg s
  | .tostr ma radix arg => Sys2Proof.Machine.execTostr ma radix arg s
  | .fadd md ma mb mm => Sys2Proof.Machine.execFadd md ma mb mm s
  | .fsub md ma mb mm => Sys2Proof.Machine.execFsub md ma mb mm s
  | .fmul md ma mb mm => Sys2Proof.Machine.execFmul md ma mb mm s
  | .fsqr md ma mm => Sys2Proof.Machine.execFsqr md ma mm s
  | .fdiv md ma mb mm => Sys2Proof.Machine.execFdiv md ma mb mm s
  | .feq ma mma mb mmb => Sys2Proof.Machine.execFeq ma mma mb mmb s
  | .pinf pd => Sys2Proof.Machine.execPinf pd s
  | .pgen pd => Sys2Proof.Machine.execPgen pd s
  | .pseta pd mx my => Sys2Proof.Machine.execPseta pd mx my s
  | .pmov pd pa => Sys2Proof.Machine.execPmov pd pa s
  | .pisinf pa => Sys2Proof.Machine.execPisinf pa s
  | .pgetx md pa => Sys2Proof.Machine.execPgetx md pa s
  | .pgety md pa => Sys2Proof.Machine.execPgety md pa s
  | .peq pa pb => Sys2Proof.Machine.execPeq pa pb s
  | .pneg pd pa => Sys2Proof.Machine.execPneg pd pa s
  | .padd pd pa pb => Sys2Proof.Machine.execPadd pd pa pb s
  | .pdbl pd pa => Sys2Proof.Machine.execPdbl pd pa s
  | .pmul pd pa mk => Sys2Proof.Machine.execPmul pd pa mk s
  | .pmul2 pd pa mj pb mk => Sys2Proof.Machine.execPmul2 pd pa mj pb mk s
  | .penc pa compressed arg => Sys2Proof.Machine.execPenc pa compressed arg s
  | .pdec pd arg => Sys2Proof.Machine.execPdec pd arg s
  | .pdechex pd arg => Sys2Proof.Machine.execPdechex pd arg s
  | .pvalid pa => Sys2Proof.Machine.execPvalid pa s

end Sys2Proof.Machine
end

