-- ==== Sys2Proof/Machine/Sequencer.lean ====
section
/-! DEFINITION. The sequencer: what each transaction of the host does (00_scope.md R8, 60_exceptions.md R262), on an engine
with the parameters `c` that executes a command as `run` says: `execAt c`, which is `exec` for `Config.params` (log 1). -/

namespace Sys2Proof.Machine

/-- `Command(w)` (60_exceptions.md R262): the word is decoded, and its command is executed, fails, or is rejected; an
illegal word raises `IllegalCommandError(info)` (30_encoding.md R88), or is rejected while in fault. -/
def commandOn (c : Config.Params) (run : Instr → State → Outcome) (w : CmdWord) (s : State) : Outcome :=
  match decodeWord w with
  | .ok i => run i s
  | .error e => runCommand c (fun _ _ => raise .illegalCommand e.info) s

/-- `BufWrite(addr, b)` (00_scope.md R8). -/
def bufWrite (c : Config.Params) (addr : Nat) (b : Byte) (s : State) : Outcome :=
  if addr < c.bufsz then .next { s with toEngine := s.writeByte addr b, answer := .done }
  else .fault (.noSuchAddress addr)

/-- `BufRead(addr)` (00_scope.md R8): no side effect. -/
def bufRead (c : Config.Params) (addr : Nat) (s : State) : Outcome :=
  if addr < c.bufsz then .next { s with answer := .byte (s.readByte addr) } else .fault (.noSuchAddress addr)

/-- Control register `i` (10_state.md R34). -/
def Engine.csr? (e : Engine) : Nat → Option Word
  | 0 => some e.status
  | 1 => some e.errcode
  | 2 => some e.errinfo
  | 3 => some e.errseq
  | 4 => some e.res
  | 5 => some e.cseq
  | 6 => some e.curveid
  | _ => none

/-- `CsrRead(i)` (00_scope.md R8): no side effect. -/
def csrRead (i : Nat) (s : State) : Outcome :=
  match s.csr? i with
  | some v => .next { s with answer := .csr v }
  | none => .refused (.noSuchCsr i)

/-- `Reset` (70_reset_and_hazards.md R300): every register at its reset value and every byte of `BUF` unspecified anew,
which the next epoch stands for (log 3). -/
def resetEngine (s : State) : Outcome :=
  .next { s with toEngine := Engine.reset (s.epoch + 1), answer := .done }

/-- One transaction (00_scope.md R8). -/
def transactOn (c : Config.Params) (run : Instr → State → Outcome) : Transaction → State → Outcome
  | .command w, s => commandOn c run w s
  | .bufWrite addr b, s => bufWrite c addr b s
  | .bufRead addr, s => bufRead c addr s
  | .csrRead i, s => csrRead i s
  | .reset, s => resetEngine s

/-- The transaction that the host is making, whole and atomic (00_scope.md R6, R8), which is then over; with none the
engine is idle and keeps all state (60_exceptions.md R276, 70_reset_and_hazards.md R303). -/
def takeTransaction (c : Config.Params) (run : Instr → State → Outcome) (s : State) : Outcome :=
  match s.input with
  | none => .next s
  | some x => transactOn c run x { s with input := none }

/-- `Command(w)` on the machine of `Config.params`. -/
def command (w : CmdWord) (s : State) : Outcome := commandOn Config.params exec w s

/-- One transaction on the machine of `Config.params`. -/
def transact (x : Transaction) (s : State) : Outcome := transactOn Config.params exec x s

end Sys2Proof.Machine
end

