-- ==== Sys2Proof/Machine/Step.lean ====
section
/-! DEFINITION. One step of the machine. -/

namespace Sys2Proof.Machine

/-- One step of an engine with the parameters `c`, the arguments of 00_scope.md R5: the transaction that the host is making,
or idle (R6, R8; log 2). -/
def stepAt (c : Config.Params) (s : State) : Outcome := takeTransaction c (execAt c) s

/-- One step of the machine: that of the engine with the parameters `Config.params` (log 1). -/
def step (s : State) : Host.Outcome State Fault Refusal := takeTransaction Config.params exec s

/-- `s` with the host making the `Command` transaction of a table row's word, so that the very next step takes it (log 2).
The engine fetches no commands: this is the host handing one over (10_state.md R33). -/
def State.withFetchWord (s : State) (nbits w : Nat) : State :=
  { s with input := some (.command (BitVec.ofNat 64 (w % 2 ^ nbits))) }

end Sys2Proof.Machine
end

