-- ==== Sys2Proof/Machine/Datapath.lean ====
section
/-! DEFINITION. The reference datapath: how the spec says the units reach the value-level results, limb by limb
(10_state.md R21; 41_mpi_arith.md R122, R123, R127, R129, R134, R137, R141; 42_mpi_query.md R160 to R163; 43_mpi_convert.md
R178) and on projective triples (10_state.md R27; 45_point_arith.md R208, R212, R214). Its results are normative only in that
they equal the value-level results (00_scope.md R17), so the step does not run it; the statements about it say that they
do. Limb lists are least-significant first, and a limb beyond the end reads as 0. -/

namespace Sys2Proof.Machine.Datapath

/-- `B = 2^26` (00_scope.md R5, 41_mpi_arith.md preamble). -/
def radix : Nat := 2 ^ Config.limbBits

/-! ## Limbs (10_state.md R21, R22) -/

/-- The magnitude that a limb list stands for. -/
def limbsValue : List Nat → Nat
  | [] => 0
  | x :: xs => x + radix * limbsValue xs

/-- The `n` low limbs of `m`. -/
def lowLimbs : Nat → Nat → List Nat
  | 0, _ => []
  | n + 1, m => m % radix :: lowLimbs n (m / radix)

/-- The normalized limbs of a magnitude: as many as its length needs, none for 0 (10_state.md R21, R22). -/
def limbsOf (m : Nat) : List Nat := lowLimbs ((bitlen m + (Config.limbBits - 1)) / Config.limbBits) m

/-- `trim`: no most-significant zero limb. -/
def trim : List Nat → List Nat
  | [] => []
  | x :: xs =>
    match trim xs with
    | [] => if x = 0 then [] else [x]
    | y :: ys => x :: y :: ys

/-- A list of limbs, each below the radix. -/
def Limbs (a : List Nat) : Prop := ∀ x ∈ a, x < radix

/-- A limb list of a register: limbs below the radix, no most-significant zero limb (10_state.md R21). -/
def Normal (a : List Nat) : Prop := Limbs a ∧ trim a = a

/-- A register's sign flag and limbs (10_state.md R21). -/
structure SignedLimbs where
  neg   : Bool
  limbs : List Nat
  deriving DecidableEq, Repr

/-- The integer of a sign flag and limbs. -/
def SignedLimbs.value (v : SignedLimbs) : Int :=
  if v.neg then -(limbsValue v.limbs : Int) else (limbsValue v.limbs : Int)

/-- The sign flag and normalized limbs of an integer, the sign flag clear for 0 (10_state.md R21). -/
def SignedLimbs.of (v : Int) : SignedLimbs := ⟨decide (v < 0), limbsOf v.natAbs⟩

/-- The representation invariant: normalized limbs, and no negative zero (10_state.md R21). -/
def SignedLimbs.Normal (v : SignedLimbs) : Prop := Datapath.Normal v.limbs ∧ (v.limbs = [] → v.neg = false)

/-! ## The adder and subtractor (41_mpi_arith.md R122, R123) -/

/-- The loop of `mag_add` for `n` limbs from limb `i` on, with carry `c`. -/
def addFrom (a b : List Nat) : Nat → Nat → Nat → List Nat
  | 0, _, c => if c = 1 then [1] else []
  | n + 1, i, c =>
    let t := a.getD i 0 + b.getD i 0 + c
    t % radix :: addFrom a b n (i + 1) (t / radix)

/-- `mag_add(a, b)` (41_mpi_arith.md R122). -/
def magAdd (a b : List Nat) : List Nat := addFrom a b (max a.length b.length) 0 0

/-- The loop of `mag_sub` for `n` limbs from limb `i` on, with borrow `br`. -/
def subFrom (a b : List Nat) : Nat → Nat → Nat → List Nat
  | 0, _, _ => []
  | n + 1, i, br =>
    if a.getD i 0 < b.getD i 0 + br then (a.getD i 0 + radix - b.getD i 0 - br) :: subFrom a b n (i + 1) 1
    else (a.getD i 0 - b.getD i 0 - br) :: subFrom a b n (i + 1) 0

/-- `mag_sub(a, b)`, for `value(a) >= value(b)` (41_mpi_arith.md R122). -/
def magSub (a b : List Nat) : List Nat := trim (subFrom a b a.length 0 0)

/-- The loop of `mag_cmp` over the limbs below limb `n`, from the top. -/
def cmpBelow (a b : List Nat) : Nat → Int
  | 0 => 0
  | i + 1 =>
    if a.getD i 0 ≠ b.getD i 0 then (if a.getD i 0 < b.getD i 0 then -1 else 1) else cmpBelow a b i

/-- `mag_cmp(a, b)`, -1, 0 or 1, for normalized lists (41_mpi_arith.md R122). -/
def magCmp (a b : List Nat) : Int :=
  if a.length ≠ b.length then (if a.length < b.length then -1 else 1) else cmpBelow a b a.length

/-- `signed_add` (41_mpi_arith.md R123). -/
def signedAdd (x y : SignedLimbs) : SignedLimbs :=
  if x.neg = y.neg then ⟨x.neg, magAdd x.limbs y.limbs⟩
  else if magCmp x.limbs y.limbs = 0 then ⟨false, []⟩
  else if 0 < magCmp x.limbs y.limbs then ⟨x.neg, magSub x.limbs y.limbs⟩
  else ⟨y.neg, magSub y.limbs x.limbs⟩

/-- The subtrahend with its sign flipped, a zero left non-negative (41_mpi_arith.md R123). -/
def flipSign (y : SignedLimbs) : SignedLimbs := ⟨if y.limbs = [] then false else !y.neg, y.limbs⟩

/-- `SUB` on sign flags and limbs (41_mpi_arith.md R123). -/
def signedSub (x y : SignedLimbs) : SignedLimbs := signedAdd x (flipSign y)

/-- `compareTo` on sign flags and limbs: signs, then limb counts, then limbs from the top (42_mpi_query.md R160). -/
def signedCmp (x y : SignedLimbs) : Int :=
  if x.neg ≠ y.neg then (if x.neg then -1 else 1)
  else if x.neg then -magCmp x.limbs y.limbs
  else magCmp x.limbs y.limbs

/-! ## Queries on limbs (42_mpi_query.md R161 to R163) -/

/-- Even when empty or when bit 0 of limb 0 is 0 (42_mpi_query.md R161). -/
def limbsEven (a : List Nat) : Bool := decide (a.getD 0 0 % 2 = 0)

/-- Bit `n mod 26` of limb `floor(n / 26)` (42_mpi_query.md R162). -/
def limbsBit (a : List Nat) (n : Nat) : Bool := (a.getD (n / Config.limbBits) 0).testBit (n % Config.limbBits)

/-- 0 when empty, else `26*(len-1)` and the length of the top limb (42_mpi_query.md R163). -/
def limbsBitlen (a : List Nat) : Nat :=
  if a = [] then 0 else Config.limbBits * (a.length - 1) + bitlen (a.getD (a.length - 1) 0)

/-! ## The multiplier and squarer (41_mpi_arith.md R127, R129) -/

/-- One row of a product: `x` times the limbs `b`, added into `r` from position `k` on, the carry stored behind. -/
def mulRow (x : Nat) : List Nat → List Nat → Nat → Nat → List Nat
  | [], r, k, c => r.set k c
  | y :: ys, r, k, c =>
    let t := r.getD k 0 + x * y + c
    mulRow x ys (r.set k (t % radix)) (k + 1) (t / radix)

/-- The rows of `mag_mul` for the limbs of `a` from limb `i` on. -/
def mulRows (b : List Nat) : List Nat → Nat → List Nat → List Nat
  | [], _, r => r
  | x :: xs, i, r => mulRows b xs (i + 1) (mulRow x b r i 0)

/-- `mag_mul(a, b)` (41_mpi_arith.md R127). -/
def magMul (a b : List Nat) : List Nat := trim (mulRows b a 0 (List.replicate (a.length + b.length) 0))

/-- The product with its sign, an empty product non-negative (41_mpi_arith.md R127). -/
def signedMul (x y : SignedLimbs) : SignedLimbs :=
  let r := magMul x.limbs y.limbs
  ⟨if r = [] then false else xor x.neg y.neg, r⟩

/-- The cross products of `mag_sqr`, each once: limb `i` times the limbs behind it, from position `2i+1` on. -/
def crossRows : List Nat → Nat → List Nat → List Nat
  | [], _, r => r
  | x :: xs, i, r => crossRows xs (i + 1) (mulRow x xs r (2 * i + 1) 0)

/-- The doubling pass of `mag_sqr`. -/
def doubleAll : List Nat → Nat → List Nat
  | [], _ => []
  | x :: xs, c => (2 * x + c) % radix :: doubleAll xs ((2 * x + c) / radix)

/-- The last pass of `mag_sqr`: the squares, added on the even positions. -/
def addSquares : List Nat → Nat → List Nat → List Nat
  | x :: xs, c, lo :: hi :: rest =>
    let t := lo + x * x + c
    let u := hi + t / radix
    t % radix :: u % radix :: addSquares xs (u / radix) rest
  | _, _, r => r

/-- `mag_sqr(a)` (41_mpi_arith.md R129). -/
def magSqr (a : List Nat) : List Nat :=
  trim (addSquares a 0 (doubleAll (crossRows a 0 (List.replicate (2 * a.length) 0)) 0))

/-! ## The shifter (41_mpi_arith.md R141) -/

/-- The limb loop of `mag_shl` by `bs` bits, carry `c`, the last carry stored when not 0. -/
def shlFrom (bs : Nat) : List Nat → Nat → List Nat
  | [], c => if c ≠ 0 then [c] else []
  | x :: xs, c => (x * 2 ^ bs + c) % radix :: shlFrom bs xs ((x * 2 ^ bs + c) / radix)

/-- `mag_shl(a, s)` (41_mpi_arith.md R141). -/
def magShl (a : List Nat) (s : Nat) : List Nat :=
  if a = [] then []
  else List.replicate (s / Config.limbBits) 0 ++ shlFrom (s % Config.limbBits) a 0

/-- The limb loop of `mag_shr` by `bs` bits: each limb takes the low bits of the next. -/
def shrLimbs (bs : Nat) : List Nat → List Nat
  | [] => []
  | x :: xs => (x / 2 ^ bs + xs.getD 0 0 % 2 ^ bs * 2 ^ (Config.limbBits - bs)) :: shrLimbs bs xs

/-- `mag_shr(a, s)` (41_mpi_arith.md R141). -/
def magShr (a : List Nat) (s : Nat) : List Nat :=
  if a.length ≤ s / Config.limbBits then []
  else trim (shrLimbs (s % Config.limbBits) (a.drop (s / Config.limbBits)))

/-! ## The divider (41_mpi_arith.md R134) -/

/-- The trial subtraction `seg - q * vn`, limb by limb with a borrow: the limbs left and the borrow out of the top. -/
def subMul (q : Nat) : List Nat → List Nat → Nat → List Nat × Nat
  | [], _, br => ([], br)
  | x :: xs, vn, br =>
    let need := q * vn.headD 0 + br
    let up := if x < need then (need - x + radix - 1) / radix else 0
    let rest := subMul q xs vn.tail up
    ((x + up * radix - need) :: rest.1, rest.2)

/-- The add-back `seg + vn`, limb by limb: the limbs left and the carry out of the top. -/
def addBack : List Nat → List Nat → Nat → List Nat × Nat
  | [], _, c => ([], c)
  | x :: xs, vn, c =>
    let t := x + vn.headD 0 + c
    let rest := addBack xs vn.tail (t / radix)
    (t % radix :: rest.1, rest.2)

/-- The correction loop: while the borrow stands, one less in the estimate and the divisor added back; a carry out of the
top ends the borrow. `fuel` bounds the corrections. -/
def correct (vn : List Nat) : Nat → Nat → List Nat → Nat → Nat × List Nat
  | 0, q, seg, _ => (q, seg)
  | fuel + 1, q, seg, br =>
    if br = 0 then (q, seg)
    else
      let ab := addBack seg vn 0
      correct vn fuel (q - 1) ab.1 (br - ab.2)

/-- One quotient digit at position `j`: the estimate from the two high limbs, the trial subtraction, the corrections. -/
def divDigit (vn : List Nat) (j : Nat) (un : List Nat) : Nat × List Nat :=
  let n := vn.length
  let num := un.getD (j + n) 0 * radix + un.getD (j + n - 1) 0
  let qhat := min (num / vn.getD (n - 1) 0) (radix - 1)
  let sm := subMul qhat ((un.drop j).take (n + 1)) vn 0
  let fixed := correct vn (qhat + 1) qhat sm.1 sm.2
  (fixed.1, un.take j ++ fixed.2 ++ un.drop (j + n + 1))

/-- The quotient digits from position `k - 1` down to 0, put in front of those above. -/
def divDigits (vn : List Nat) : Nat → List Nat → List Nat → List Nat × List Nat
  | 0, un, q => (q, un)
  | j + 1, un, q =>
    let d := divDigit vn j un
    divDigits vn j d.2 (d.1 :: q)

/-- `mag_divrem(u, v)`, the quotient and the remainder (41_mpi_arith.md R134). -/
def magDivrem (u v : List Nat) : List Nat × List Nat :=
  if magCmp u v < 0 then ([], u)
  else
    let n := v.length
    let m := u.length
    let s := Config.limbBits - bitlen (v.getD (n - 1) 0)
    let vn := magShl v s
    let shifted := magShl u s
    let un := shifted ++ List.replicate (m + 1 - shifted.length) 0
    let qr := divDigits vn (m - n + 1) un []
    (trim qr.1, magShr (trim (qr.2.take n)) s)

/-- The truncated quotient and remainder with their signs (41_mpi_arith.md R133, R134). -/
def signedDivrem (x y : SignedLimbs) : SignedLimbs × SignedLimbs :=
  let qr := magDivrem x.limbs y.limbs
  (⟨if qr.1 = [] then false else xor x.neg y.neg, qr.1⟩, ⟨if qr.2 = [] then false else x.neg, qr.2⟩)

/-! ## The modular inverter (41_mpi_arith.md R137) -/

/-- Halve `u` while it is even, keeping `u = A*n + Bc*a0`: an odd cofactor first takes `a0` or `-n`. -/
def halve (n a0 : Int) : Nat → Nat → Int → Int → Nat × Int × Int
  | 0, u, A, Bc => (u, A, Bc)
  | fuel + 1, u, A, Bc =>
    if u % 2 ≠ 0 then (u, A, Bc)
    else if A % 2 ≠ 0 ∨ Bc % 2 ≠ 0 then halve n a0 fuel (u / 2) ((A + a0) / 2) ((Bc - n) / 2)
    else halve n a0 fuel (u / 2) (A / 2) (Bc / 2)

/-- The outer loop of the inverter: halve both, subtract the smaller from the larger, until `u = 0`; what is left of `v`,
and its cofactor `D`. -/
def inverterLoop (n a0 : Nat) : Nat → Nat → Int → Int → Nat → Int → Int → Nat × Int
  | 0, _, _, _, v, _, D => (v, D)
  | fuel + 1, u, A, Bc, v, C, D =>
    if u = 0 then (v, D)
    else
      let hu := halve n a0 (bitlen u) u A Bc
      let hv := halve n a0 (bitlen v) v C D
      if hv.1 ≤ hu.1 then
        inverterLoop n a0 fuel (hu.1 - hv.1) (hu.2.1 - hv.2.1) (hu.2.2 - hv.2.2) hv.1 hv.2.1 hv.2.2
      else inverterLoop n a0 fuel hu.1 hu.2.1 hu.2.2 (hv.1 - hu.1) (hv.2.1 - hu.2.1) (hv.2.2 - hu.2.2)

/-- The binary inverter for `1 <= a0 < n`, `a0` and `n` not both even: the inverse, or none when the last `v` is not 1
(41_mpi_arith.md R137). `fuel` bounds the passes: each halves `u` or `v`. -/
def binaryInverse (a0 n : Nat) : Option Nat :=
  let vD := inverterLoop n a0 (bitlen n + bitlen a0 + 2) n 1 0 a0 0 1
  if vD.1 ≠ 1 then none else some (vD.2 % (n : Int)).toNat

/-! ## The radix converters (43_mpi_convert.md R178) -/

/-- `k` when the base is the power of two `2^k`. -/
def powerOfTwo? (r : Nat) : Option Nat := if 2 ^ r.log2 = r then some r.log2 else none

/-- Output in base `2^k` by bit slicing: the digits at positions `i - 1` down to 0. -/
def sliceDigits (k m : Nat) : Nat → List Byte
  | 0 => []
  | i + 1 => digitChar (m >>> (k * i) % 2 ^ k) :: sliceDigits k m i

/-- `cs(R)`, the largest `e` with `R^e < 2^26`, searched from `e` upward. -/
def chunkFrom (r : Nat) : Nat → Nat → Nat
  | 0, e => e
  | fuel + 1, e => if r ^ (e + 1) < radix then chunkFrom r fuel (e + 1) else e

/-- `cs(R)`. -/
def chunkSize (r : Nat) : Nat := chunkFrom r Config.limbBits 0

/-- `d(R) = R^cs(R)`. -/
def chunkValue (r : Nat) : Nat := r ^ chunkSize r

/-- A chunk as exactly `j` digits, zero-padded on the left. -/
def chunkDigits (r : Nat) : Nat → Nat → List Byte
  | 0, _ => []
  | j + 1, c => chunkDigits r j (c / r) ++ [digitChar (c % r)]

/-- Output in another base: repeated division by `d(R)`, each remainder a chunk in front of those before. -/
def chunksOnto (r : Nat) : Nat → Nat → List Byte → List Byte
  | 0, _, ds => ds
  | fuel + 1, m, ds =>
    if m = 0 then ds else chunksOnto r fuel (m / chunkValue r) (chunkDigits r (chunkSize r) (m % chunkValue r) ++ ds)

/-- The digits of a positive magnitude by the reference datapath, leading zeros removed. -/
def renderDigits (r m : Nat) : List Byte :=
  match powerOfTwo? r with
  | some k => sliceDigits k m ((bitlen m + (k - 1)) / k)
  | none => (chunksOnto r (bitlen m) m []).dropWhile (fun c => c == 0x30)

/-- The value of at most `cs(R)` digit values gathered into one chunk. -/
def gather (r : Nat) (xs : List Nat) : Nat := xs.foldl (fun c x => c * r + x) 0

/-- Input in another base: the accumulator times `R^j` plus the chunk of `j` digits, chunk after chunk. -/
def readChunks (r : Nat) : Nat → List Nat → Nat → Nat
  | 0, _, acc => acc
  | fuel + 1, xs, acc =>
    if xs = [] then acc
    else
      let chunk := xs.take (chunkSize r)
      readChunks r fuel (xs.drop (chunkSize r)) (acc * r ^ chunk.length + gather r chunk)

/-- The value of a list of digit values by the reference datapath: shifted in by `k` bits for the base `2^k`, chunked
otherwise. -/
def readDigits (r : Nat) (xs : List Nat) : Nat :=
  match powerOfTwo? r with
  | some k => xs.foldl (fun acc x => acc <<< k + x) 0
  | none => readChunks r xs.length xs 0

/-! ## Points as projective triples (10_state.md R27; 45_point_arith.md R208, R212, R214) -/

/-- A stored triple of a point that is not `Inf`. -/
structure Triple where
  x : Nat
  y : Nat
  z : Nat
  deriving DecidableEq, Repr

/-- A triple that may be stored: coordinates below `p`, `Z` not 0 (10_state.md R27). -/
def Triple.Stored (t : Triple) : Prop := t.x < Rom.p ∧ t.y < Rom.p ∧ t.z < Rom.p ∧ t.z ≠ 0

/-- The affine value of a triple: `X * inv(Z)` and `Y * inv(Z)` (10_state.md R27, 45_point_arith.md R206). -/
def Triple.point (t : Triple) : Point := .aff (modP ((t.x : Int) * invP t.z)) (modP ((t.y : Int) * invP t.z))

/-- The same point by another triple, every coordinate times `c` (45_point_arith.md R222). -/
def Triple.scale (c : Nat) (t : Triple) : Triple := ⟨modP ((c : Int) * t.x), modP ((c : Int) * t.y), modP ((c : Int) * t.z)⟩

/-- `u = Y_Q·Z_P - Y_P·Z_Q` of two triples (45_point_arith.md R208, R210). -/
def crossY (P Q : Triple) : Nat := modP ((Q.y : Int) * P.z - (P.y : Int) * Q.z)

/-- `v = X_Q·Z_P - X_P·Z_Q` (45_point_arith.md R208, R210). -/
def crossX (P Q : Triple) : Nat := modP ((Q.x : Int) * P.z - (P.x : Int) * Q.z)

/-- The reference `add` on two triples with `v` not 0 (45_point_arith.md R212). -/
def projAdd (P Q : Triple) : Triple :=
  let u : Int := crossY P Q
  let v : Int := crossX P Q
  let v2 := v * v
  let v3 := v2 * v
  let x1v2 := P.x * v2
  let zu2 := u * u * P.z
  ⟨modP (((zu2 - 2 * x1v2) * Q.z - v3) * v), modP ((3 * x1v2 * u - P.y * v3 - zu2 * u) * Q.z + u * v3),
    modP (v3 * P.z * Q.z)⟩

/-- The reference `twice` on a triple with `Y` not 0 (45_point_arith.md R214). -/
def projDbl (P : Triple) : Triple :=
  let y1z1 : Int := (P.y : Int) * P.z
  let y1sqz1 := y1z1 * P.y
  let w : Int := 3 * P.x * P.x + Rom.a * P.z * P.z
  ⟨modP (2 * y1z1 * (w * w - 8 * P.x * y1sqz1)), modP (4 * y1sqz1 * (3 * w * P.x - 2 * y1sqz1) - w * w * w),
    modP (8 * y1z1 * y1z1 * y1z1)⟩

/-! ## The cost of `PMUL` (45_point_arith.md R216) -/

/-- The iterations of the loop of `multiply` for `k > 0`. -/
def pmulIterations (k : Nat) : Nat := bitlen (3 * k) - 2

/-- The additions of the loop of `multiply`: the positions `1 <= i <= bitlen(3k) - 2` where `3k` and `k` differ. -/
def pmulAdditions (k : Nat) : Nat :=
  ((List.range (pmulIterations k)).filter fun i => (3 * k).testBit (i + 1) != k.testBit (i + 1)).length

end Sys2Proof.Machine.Datapath
end

