-- ==== Sys2Proof/Machine/Assembly.lean ====
section
/-! DEFINITION. The assembler syntax in which the spec writes commands (30_encoding.md R91): the text of a command, its
operands in the order of the fields. There are no pseudo-instructions (R92). -/

namespace Sys2Proof.Machine

/-- An MPI register, `m0` to `m15` (30_encoding.md R91). -/
def mText (r : MReg) : String := "m" ++ toString r.val

/-- A point register, `p0` to `p7` (R91). -/
def pText (r : PReg) : String := "p" ++ toString r.val

/-- An immediate, `#` and a decimal number, negative where it is signed (R91). -/
def immText (v : Int) : String := "#" ++ toString v

/-- A buffer operand, `[addr, len]` (R91). -/
def bufText (arg : BufArg) : String := "[" ++ toString arg.addr.toNat ++ ", " ++ toString arg.len.toNat ++ "]"

/-- The mnemonic and its operands (R91). -/
def line (mnemonic : String) : List String → String
  | [] => mnemonic
  | o :: os => mnemonic ++ " " ++ os.foldl (fun acc x => acc ++ ", " ++ x) o

/-- The mnemonic of a command (30_encoding.md R86). -/
def mnemonic : Instr → String
  | .clrerr => "CLRERR"
  | .curve _ => "CURVE"
  | .ldcp _ _ => "LDCP"
  | .ldi _ _ => "LDI"
  | .mov _ _ => "MOV"
  | .add _ _ _ => "ADD"
  | .sub _ _ _ => "SUB"
  | .mul _ _ _ => "MUL"
  | .sqr _ _ => "SQR"
  | .div _ _ _ => "DIV"
  | .mod _ _ _ => "MOD"
  | .divrem _ _ _ _ => "DIVREM"
  | .modinv _ _ _ => "MODINV"
  | .shl _ _ _ => "SHL"
  | .shr _ _ _ => "SHR"
  | .cmp _ _ => "CMP"
  | .iseven _ => "ISEVEN"
  | .testbit _ _ => "TESTBIT"
  | .bitlen _ => "BITLEN"
  | .frombu _ _ => "FROMBU"
  | .tobu _ _ => "TOBU"
  | .frombs _ _ => "FROMBS"
  | .tobs _ _ => "TOBS"
  | .parse _ _ _ => "PARSE"
  | .tostr _ _ _ => "TOSTR"
  | .fadd _ _ _ _ => "FADD"
  | .fsub _ _ _ _ => "FSUB"
  | .fmul _ _ _ _ => "FMUL"
  | .fsqr _ _ _ => "FSQR"
  | .fdiv _ _ _ _ => "FDIV"
  | .feq _ _ _ _ => "FEQ"
  | .pinf _ => "PINF"
  | .pgen _ => "PGEN"
  | .pseta _ _ _ => "PSETA"
  | .pmov _ _ => "PMOV"
  | .pisinf _ => "PISINF"
  | .pgetx _ _ => "PGETX"
  | .pgety _ _ => "PGETY"
  | .peq _ _ => "PEQ"
  | .pneg _ _ => "PNEG"
  | .padd _ _ _ => "PADD"
  | .pdbl _ _ => "PDBL"
  | .pmul _ _ _ => "PMUL"
  | .pmul2 _ _ _ _ _ => "PMUL2"
  | .penc _ _ _ => "PENC"
  | .pdec _ _ => "PDEC"
  | .pdechex _ _ => "PDECHEX"
  | .pvalid _ => "PVALID"

/-- The operands as written, in the order of the fields (R91). -/
def operandTexts : Instr → List String
  | .clrerr => []
  | .curve id => [immText id.toNat]
  | .ldcp md idx => [mText md, immText idx.num]
  | .ldi md imm => [mText md, immText imm.toInt]
  | .mov md ma => [mText md, mText ma]
  | .add md ma mb => [mText md, mText ma, mText mb]
  | .sub md ma mb => [mText md, mText ma, mText mb]
  | .mul md ma mb => [mText md, mText ma, mText mb]
  | .sqr md ma => [mText md, mText ma]
  | .div md ma mb => [mText md, mText ma, mText mb]
  | .mod md ma mb => [mText md, mText ma, mText mb]
  | .divrem mq mr ma mb => [mText mq, mText mr, mText ma, mText mb]
  | .modinv md ma mm => [mText md, mText ma, mText mm]
  | .shl md ma imm => [mText md, mText ma, immText imm.toInt]
  | .shr md ma imm => [mText md, mText ma, immText imm.toInt]
  | .cmp ma mb => [mText ma, mText mb]
  | .iseven ma => [mText ma]
  | .testbit ma idx => [mText ma, immText idx.toNat]
  | .bitlen ma => [mText ma]
  | .frombu md arg => [mText md, bufText arg]
  | .tobu ma arg => [mText ma, bufText arg]
  | .frombs md arg => [mText md, bufText arg]
  | .tobs ma arg => [mText ma, bufText arg]
  | .parse md radix arg => [mText md, "r=" ++ toString radix, bufText arg]
  | .tostr ma radix arg => [mText ma, "r=" ++ toString radix, bufText arg]
  | .fadd md ma mb mm => [mText md, mText ma, mText mb, mText mm]
  | .fsub md ma mb mm => [mText md, mText ma, mText mb, mText mm]
  | .fmul md ma mb mm => [mText md, mText ma, mText mb, mText mm]
  | .fsqr md ma mm => [mText md, mText ma, mText mm]
  | .fdiv md ma mb mm => [mText md, mText ma, mText mb, mText mm]
  | .feq ma mma mb mmb => [mText ma, mText mma, mText mb, mText mmb]
  | .pinf pd => [pText pd]
  | .pgen pd => [pText pd]
  | .pseta pd mx my => [pText pd, mText mx, mText my]
  | .pmov pd pa => [pText pd, pText pa]
  | .pisinf pa => [pText pa]
  | .pgetx md pa => [mText md, pText pa]
  | .pgety md pa => [mText md, pText pa]
  | .peq pa pb => [pText pa, pText pb]
  | .pneg pd pa => [pText pd, pText pa]
  | .padd pd pa pb => [pText pd, pText pa, pText pb]
  | .pdbl pd pa => [pText pd, pText pa]
  | .pmul pd pa mk => [pText pd, pText pa, mText mk]
  | .pmul2 pd pa mj pb mk => [pText pd, pText pa, mText mj, pText pb, mText mk]
  | .penc pa c arg => [pText pa, (if c then "c=1" else "c=0"), bufText arg]
  | .pdec pd arg => [pText pd, bufText arg]
  | .pdechex pd arg => [pText pd, bufText arg]
  | .pvalid pa => [pText pa]

/-- The text of a command (R91). -/
def assembly (i : Instr) : String := line (mnemonic i) (operandTexts i)

end Sys2Proof.Machine
end

