-- ==== Sys2Proof/Safety.lean ====
section
/-! DEFINITION. The terms claims use: how a command ends, what it may write, and the invariant of the engine. Nothing
here is part of the machine; it says again, from the rules, what the machine is to do. -/

namespace Sys2Proof.Safety

open Sys2Proof.Machine

/-! ## The machine, and the engines of every parameters (00_scope.md R5; log 1) -/

/-- `P` holds of the machine (its parameters and its `exec`), and of the engine of every `NLIMB` and `BUFSZ` within the
bounds of R5. -/
def OfEvery (P : Config.Params → (Instr → State → Outcome) → Prop) : Prop :=
  P Config.params exec ∧ ∀ c : Config.Params, P c (execAt c)

/-! ## How a command ends (60_exceptions.md R262, R263, R265, R272) -/

/-- The command executed on `s` and left the collected writes in `t`: `CSEQ` advanced by one from its value before the
command, and the response is `0` with the `RES` after it. -/
def ran (s t : State) : Outcome :=
  .next { t with cseq := s.cseq + 1, answer := .response 0 t.res }

/-- The command failed on `s` with this code and info: exactly the five control registers of 60_exceptions.md R263
changed, and the response carries the code. -/
def failed (code : Byte) (info : Word) (s : State) : Outcome :=
  .next { s with
    cseq := s.cseq + 1, status := s.status ||| 1#32, errcode := code.setWidth 32, errinfo := info, errseq := s.cseq,
    answer := .response code s.res }

/-- The command was rejected on `s`: `CSEQ` alone changed, and the response is `0xFF`. -/
def turnedAway (s : State) : Outcome :=
  .next { s with cseq := s.cseq + 1, answer := .response 0xFF s.res }

/-- The value fits an MPI register (00_scope.md R15). -/
abbrev Fits (c : Config.Params) (v : Int) : Prop := v.natAbs < c.capacity

/-- The command executed and its one effect is `M[md] <- v`. -/
def storedM (md : MReg) (v : Int) (s : State) : Outcome := ran s { s with m := s.m.set md.val v }

/-- `M[md] <- v` with its capacity check, `CapacityError(0)` (00_scope.md R15). -/
def storedOrFull (c : Config.Params) (md : MReg) (v : Int) (s : State) : Outcome :=
  if Fits c v then storedM md v s else failed 6 0 s

/-- The command executed and its one effect is `P[pd] <- A`. -/
def storedP (pd : PReg) (A : Point) (s : State) : Outcome := ran s { s with p := s.p.set pd.val A }

/-- The command executed and its one effect is `RES <- v`. -/
def answered (v : Word) (s : State) : Outcome := ran s { s with res := v }

/-! ## Buffer operands (20_memory.md R63, R66, R67) -/

/-- The bytes of an input operand. -/
def bytesAt (s : State) (arg : BufArg) : List Byte :=
  (List.range arg.len.toNat).map fun k => s.readByte (arg.addr.toNat + k)

/-- An input operand inside `BUF` (R66). -/
abbrev InBuf (c : Config.Params) (arg : BufArg) : Prop := arg.addr.toNat + arg.len.toNat ≤ c.bufsz

/-- `be(b) = Σ_(k<n) b[k] * 256^(n-1-k)`, as R63 writes it. -/
def beSum (bs : List Byte) : Nat := ∑ k ∈ Finset.range bs.length, (bs.getD k 0).toNat * 256 ^ (bs.length - 1 - k)

/-- The outcome of a command on `s` whose output is `out` (R67): too little room granted, outside `BUF`, or executed:
the bytes `out` from `addr` on, every other byte as before, `RES` the length, and nothing else changed. -/
def Wrote (c : Config.Params) (arg : BufArg) (out : List Byte) (s : State) (o : Outcome) : Prop :=
  if arg.len.toNat < out.length then o = failed 7 2 s
  else if c.bufsz < arg.addr.toNat + out.length then o = failed 7 1 s
  else ∃ buf : Memory, o = ran s { s with buf := buf, res := BitVec.ofNat 32 out.length } ∧
    (∀ k < out.length, Engine.readByte { s.toEngine with buf := buf } (arg.addr.toNat + k) = out.getD k 0) ∧
    (∀ a, a < arg.addr.toNat ∨ arg.addr.toNat + out.length ≤ a → Engine.readByte { s.toEngine with buf := buf } a = s.readByte a)

/-- What `decode_point` makes of the bytes `e`, its tests in the order written, as the outcome of a decoder with destination
`pd` (46_point_codec.md R242). -/
def decodedPoint (pd : PReg) (e : List Byte) (s : State) : Outcome :=
  let lead := (e.getD 0 0).toNat
  let d := e.length - 1
  let x := beSum ((e.drop 1).take (d / 2))
  let y := beSum (e.drop (1 + d / 2))
  if e.length = 0 then failed 1 1 s
  else if lead = 0x00 then (if e.length ≠ 1 then failed 1 4 s else storedP pd .inf s)
  else if lead = 0x02 ∨ lead = 0x03 then failed 3 1 s
  else if lead ≠ 0x04 ∧ lead ≠ 0x06 ∧ lead ≠ 0x07 then failed 3 2 s
  else if d = 0 ∨ d % 2 = 1 then failed 1 4 s
  else if Rom.p ≤ x ∨ Rom.p ≤ y then failed 2 2 s
  else storedP pd (.aff x y) s

/-! ## What a command may write (30_encoding.md R86, the columns "dest"; 10_state.md R24, R39; 20_memory.md R60) -/

/-- The MPI registers named as destinations. -/
def mDests : Instr → List MReg
  | .ldcp md _ => [md]
  | .ldi md _ => [md]
  | .mov md _ => [md]
  | .add md _ _ => [md]
  | .sub md _ _ => [md]
  | .mul md _ _ => [md]
  | .sqr md _ => [md]
  | .div md _ _ => [md]
  | .mod md _ _ => [md]
  | .divrem mq mr _ _ => [mq, mr]
  | .modinv md _ _ => [md]
  | .shl md _ _ => [md]
  | .shr md _ _ => [md]
  | .frombu md _ => [md]
  | .frombs md _ => [md]
  | .parse md _ _ => [md]
  | .fadd md _ _ _ => [md]
  | .fsub md _ _ _ => [md]
  | .fmul md _ _ _ => [md]
  | .fsqr md _ _ => [md]
  | .fdiv md _ _ _ => [md]
  | .pgetx md _ => [md]
  | .pgety md _ => [md]
  | _ => []

/-- The point registers named as destinations. -/
def pDests : Instr → List PReg
  | .pinf pd => [pd]
  | .pgen pd => [pd]
  | .pseta pd _ _ => [pd]
  | .pmov pd _ => [pd]
  | .pneg pd _ => [pd]
  | .padd pd _ _ => [pd]
  | .pdbl pd _ => [pd]
  | .pmul pd _ _ => [pd]
  | .pmul2 pd _ _ _ _ => [pd]
  | .pdec pd _ => [pd]
  | .pdechex pd _ => [pd]
  | _ => []

/-- The buffer operand of a command that reads `BUF` (20_memory.md R60: `FROMBU`, `FROMBS`, `PARSE`, `PDEC`, `PDECHEX`). -/
def inArg : Instr → Option BufArg
  | .frombu _ arg => some arg
  | .frombs _ arg => some arg
  | .parse _ _ arg => some arg
  | .pdec _ arg => some arg
  | .pdechex _ arg => some arg
  | _ => none

/-- The buffer operand of a command that writes `BUF` (20_memory.md R60: `TOBU`, `TOBS`, `TOSTR`, `PENC`). -/
def outArg : Instr → Option BufArg
  | .tobu _ arg => some arg
  | .tobs _ arg => some arg
  | .tostr _ _ arg => some arg
  | .penc _ _ arg => some arg
  | _ => none

/-- The twelve commands that write `RES` (10_state.md R39). -/
def writesRes : Instr → Bool
  | .cmp _ _ => true
  | .iseven _ => true
  | .testbit _ _ => true
  | .bitlen _ => true
  | .feq _ _ _ _ => true
  | .pisinf _ => true
  | .peq _ _ => true
  | .pvalid _ => true
  | .tobu _ _ => true
  | .tobs _ _ => true
  | .tostr _ _ _ => true
  | .penc _ _ _ => true
  | _ => false

/-- The errors a command can raise once decoded, as code and info, in a state whose registers hold what they may hold
(60_exceptions.md R261, R264, R267). -/
def raisable : Instr → List (Nat × Nat)
  | .clrerr => []
  | .curve _ => [(8, 1)]
  | .ldcp _ _ => []
  | .ldi _ _ => []
  | .mov _ _ => []
  | .add _ _ _ => [(6, 0)]
  | .sub _ _ _ => [(6, 0)]
  | .mul _ _ _ => [(6, 0)]
  | .sqr _ _ => [(6, 0)]
  | .div _ _ _ => [(5, 0)]
  | .mod _ _ _ => [(5, 0)]
  | .divrem _ _ _ _ => [(5, 0)]
  | .modinv _ _ _ => [(4, 1), (4, 2)]
  | .shl _ _ _ => [(6, 0)]
  | .shr _ _ _ => [(6, 0)]
  | .cmp _ _ => []
  | .iseven _ => []
  | .testbit _ _ => []
  | .bitlen _ => []
  | .frombu _ _ => [(7, 1), (6, 0)]
  | .tobu _ _ => [(7, 2), (7, 1)]
  | .frombs _ _ => [(7, 1), (6, 0)]
  | .tobs _ _ => [(7, 2), (7, 1)]
  | .parse _ _ _ => [(7, 1), (1, 1), (1, 2), (6, 0)]
  | .tostr _ _ _ => [(7, 2), (7, 1)]
  | .fadd _ _ _ _ => [(5, 0)]
  | .fsub _ _ _ _ => [(5, 0)]
  | .fmul _ _ _ _ => [(5, 0)]
  | .fsqr _ _ _ => [(5, 0)]
  | .fdiv _ _ _ _ => [(5, 0), (4, 2)]
  | .feq _ _ _ _ => [(5, 0)]
  | .pinf _ => []
  | .pgen _ => []
  | .pseta _ _ _ => [(2, 2)]
  | .pmov _ _ => []
  | .pisinf _ => []
  | .pgetx _ _ => [(8, 2)]
  | .pgety _ _ => [(8, 2)]
  | .peq _ _ => []
  | .pneg _ _ => []
  | .padd _ _ _ => []
  | .pdbl _ _ => []
  | .pmul _ _ _ => [(8, 3)]
  | .pmul2 _ _ _ _ _ => [(8, 3)]
  | .penc _ _ _ => [(8, 2), (7, 2), (7, 1)]
  | .pdec _ _ => [(7, 1), (1, 1), (1, 4), (3, 1), (3, 2), (2, 2)]
  | .pdechex _ _ => [(7, 1), (1, 3), (1, 2), (1, 1), (1, 4), (3, 1), (3, 2), (2, 2)]
  | .pvalid _ => [(2, 1), (2, 2), (2, 3), (2, 4)]

/-! ## The opcode map as masks (30_encoding.md R86, R88, R93) -/

/-- The one word that is `CLRERR` (60_exceptions.md R262). -/
def clrerrWord : CmdWord := 0x0100000000000000

/-- A row of spec/opcode_table.json: `match` and `mask` as it gives them, and the two parts of `mask` that R88 tells
apart: the bits that must be zero (line 2) and the top bits of the point fields (line 3). -/
structure TableRow where
  mnemonic : String
  pattern  : CmdWord
  mask     : CmdWord
  zeros    : CmdWord
  points   : CmdWord
  deriving DecidableEq, Repr

/-- The rows of 40_system.md. -/
def systemTable : List TableRow := [
  ⟨"CLRERR", 0x0100000000000000, 0xFFFFFFFFFFFFFFFF, 0x00FFFFFFFFFFFFFF, 0x0000000000000000⟩,
  ⟨"CURVE", 0x0200000000000000, 0xFFFFFFFF00000000, 0x00FFFFFF00000000, 0x0000000000000000⟩,
  ⟨"LDCP", 0x0300000000000000, 0xFF0FFF00FFFFFFFF, 0x000FFF00FFFFFFFF, 0x0000000000000000⟩,
  ⟨"LDI", 0x0800000000000000, 0xFF0FFFFF00000000, 0x000FFFFF00000000, 0x0000000000000000⟩,
  ⟨"MOV", 0x0900000000000000, 0xFF00FFFFFFFFFFFF, 0x0000FFFFFFFFFFFF, 0x0000000000000000⟩]

/-- The rows of 41_mpi_arith.md. -/
def arithTable : List TableRow := [
  ⟨"ADD", 0x1000000000000000, 0xFF000FFFFFFFFFFF, 0x00000FFFFFFFFFFF, 0x0000000000000000⟩,
  ⟨"SUB", 0x1100000000000000, 0xFF000FFFFFFFFFFF, 0x00000FFFFFFFFFFF, 0x0000000000000000⟩,
  ⟨"MUL", 0x1200000000000000, 0xFF000FFFFFFFFFFF, 0x00000FFFFFFFFFFF, 0x0000000000000000⟩,
  ⟨"SQR", 0x1300000000000000, 0xFF00FFFFFFFFFFFF, 0x0000FFFFFFFFFFFF, 0x0000000000000000⟩,
  ⟨"DIV", 0x1400000000000000, 0xFF000FFFFFFFFFFF, 0x00000FFFFFFFFFFF, 0x0000000000000000⟩,
  ⟨"MOD", 0x1500000000000000, 0xFF000FFFFFFFFFFF, 0x00000FFFFFFFFFFF, 0x0000000000000000⟩,
  ⟨"DIVREM", 0x1600000000000000, 0xFF0000FFFFFFFFFF, 0x000000FFFFFFFFFF, 0x0000000000000000⟩,
  ⟨"MODINV", 0x1700000000000000, 0xFF000FFFFFFFFFFF, 0x00000FFFFFFFFFFF, 0x0000000000000000⟩,
  ⟨"SHL", 0x1800000000000000, 0xFF00FFFF00000000, 0x0000FFFF00000000, 0x0000000000000000⟩,
  ⟨"SHR", 0x1900000000000000, 0xFF00FFFF00000000, 0x0000FFFF00000000, 0x0000000000000000⟩]

/-- The rows of 42_mpi_query.md, 43_mpi_convert.md. -/
def queryConvertTable : List TableRow := [
  ⟨"CMP", 0x2000000000000000, 0xFFF00FFFFFFFFFFF, 0x00F00FFFFFFFFFFF, 0x0000000000000000⟩,
  ⟨"ISEVEN", 0x2100000000000000, 0xFFF0FFFFFFFFFFFF, 0x00F0FFFFFFFFFFFF, 0x0000000000000000⟩,
  ⟨"TESTBIT", 0x2200000000000000, 0xFFF0FFFF00000000, 0x00F0FFFF00000000, 0x0000000000000000⟩,
  ⟨"BITLEN", 0x2300000000000000, 0xFFF0FFFFFFFFFFFF, 0x00F0FFFFFFFFFFFF, 0x0000000000000000⟩,
  ⟨"FROMBU", 0x2800000000000000, 0xFF0FFFFF00000000, 0x000FFFFF00000000, 0x0000000000000000⟩,
  ⟨"TOBU", 0x2900000000000000, 0xFFF0FFFF00000000, 0x00F0FFFF00000000, 0x0000000000000000⟩,
  ⟨"FROMBS", 0x2A00000000000000, 0xFF0FFFFF00000000, 0x000FFFFF00000000, 0x0000000000000000⟩,
  ⟨"TOBS", 0x2B00000000000000, 0xFFF0FFFF00000000, 0x00F0FFFF00000000, 0x0000000000000000⟩,
  ⟨"PARSE", 0x2C00000000000000, 0xFF0FFF0000000000, 0x000FFF0000000000, 0x0000000000000000⟩,
  ⟨"TOSTR", 0x2D00000000000000, 0xFFF0FF0000000000, 0x00F0FF0000000000, 0x0000000000000000⟩]

/-- The rows of 44_field.md. -/
def fieldTable : List TableRow := [
  ⟨"FADD", 0x3000000000000000, 0xFF0000FFFFFFFFFF, 0x000000FFFFFFFFFF, 0x0000000000000000⟩,
  ⟨"FSUB", 0x3100000000000000, 0xFF0000FFFFFFFFFF, 0x000000FFFFFFFFFF, 0x0000000000000000⟩,
  ⟨"FMUL", 0x3200000000000000, 0xFF0000FFFFFFFFFF, 0x000000FFFFFFFFFF, 0x0000000000000000⟩,
  ⟨"FSQR", 0x3300000000000000, 0xFF00F0FFFFFFFFFF, 0x0000F0FFFFFFFFFF, 0x0000000000000000⟩,
  ⟨"FDIV", 0x3400000000000000, 0xFF0000FFFFFFFFFF, 0x000000FFFFFFFFFF, 0x0000000000000000⟩,
  ⟨"FEQ", 0x3500000000000000, 0xFF0000FFFFFFFFFF, 0x000000FFFFFFFFFF, 0x0000000000000000⟩]

/-- The rows of 45_point_arith.md, 46_point_codec.md. -/
def pointTable : List TableRow := [
  ⟨"PINF", 0x4000000000000000, 0xFF8FFFFFFFFFFFFF, 0x000FFFFFFFFFFFFF, 0x0080000000000000⟩,
  ⟨"PGEN", 0x4100000000000000, 0xFF8FFFFFFFFFFFFF, 0x000FFFFFFFFFFFFF, 0x0080000000000000⟩,
  ⟨"PSETA", 0x4200000000000000, 0xFF800FFFFFFFFFFF, 0x00000FFFFFFFFFFF, 0x0080000000000000⟩,
  ⟨"PMOV", 0x4300000000000000, 0xFF88FFFFFFFFFFFF, 0x0000FFFFFFFFFFFF, 0x0088000000000000⟩,
  ⟨"PISINF", 0x4400000000000000, 0xFFF8FFFFFFFFFFFF, 0x00F0FFFFFFFFFFFF, 0x0008000000000000⟩,
  ⟨"PGETX", 0x4500000000000000, 0xFF08FFFFFFFFFFFF, 0x0000FFFFFFFFFFFF, 0x0008000000000000⟩,
  ⟨"PGETY", 0x4600000000000000, 0xFF08FFFFFFFFFFFF, 0x0000FFFFFFFFFFFF, 0x0008000000000000⟩,
  ⟨"PEQ", 0x4700000000000000, 0xFFF88FFFFFFFFFFF, 0x00F00FFFFFFFFFFF, 0x0008800000000000⟩,
  ⟨"PNEG", 0x4800000000000000, 0xFF88FFFFFFFFFFFF, 0x0000FFFFFFFFFFFF, 0x0088000000000000⟩,
  ⟨"PADD", 0x4900000000000000, 0xFF888FFFFFFFFFFF, 0x00000FFFFFFFFFFF, 0x0088800000000000⟩,
  ⟨"PDBL", 0x4A00000000000000, 0xFF88FFFFFFFFFFFF, 0x0000FFFFFFFFFFFF, 0x0088000000000000⟩,
  ⟨"PMUL", 0x4B00000000000000, 0xFF880FFFFFFFFFFF, 0x00000FFFFFFFFFFF, 0x0088000000000000⟩,
  ⟨"PMUL2", 0x4C00000000000000, 0xFF8808F0FFFFFFFF, 0x000000F0FFFFFFFF, 0x0088080000000000⟩,
  ⟨"PENC", 0x4D00000000000000, 0xFFF8FFFE00000000, 0x00F0FFFE00000000, 0x0008000000000000⟩,
  ⟨"PDEC", 0x4E00000000000000, 0xFF8FFFFF00000000, 0x000FFFFF00000000, 0x0080000000000000⟩,
  ⟨"PDECHEX", 0x4F00000000000000, 0xFF8FFFFF00000000, 0x000FFFFF00000000, 0x0080000000000000⟩,
  ⟨"PVALID", 0x5000000000000000, 0xFFF8FFFFFFFFFFFF, 0x00F0FFFFFFFFFFFF, 0x0008000000000000⟩]

/-- spec/opcode_table.json. -/
def opcodeTable : List TableRow := systemTable ++ arithTable ++ queryConvertTable ++ fieldTable ++ pointTable

/-- `aux` of a word (R81). -/
def auxOf (w : CmdWord) : Nat := (w.extractLsb' 32 8).toNat

/-- Lines 4 and 5 of R88 for a word of this row: the range checks that a mask cannot express (R93). -/
def rangeLine (row : TableRow) (w : CmdWord) : Option Nat :=
  if (row.mnemonic = "PARSE" ∨ row.mnemonic = "TOSTR") ∧ (auxOf w < 2 ∨ 36 < auxOf w) then some 4
  else if row.mnemonic = "LDCP" ∧ 6 < auxOf w then some 4
  else if row.mnemonic = "DIVREM" ∧ w.extractLsb' 52 4 = w.extractLsb' 48 4 then some 5
  else none

/-- The first line of R88 that applies to a word; none when it is a legal command. -/
def illegalLine (w : CmdWord) : Option Nat :=
  match opcodeTable.find? (fun row => row.pattern.extractLsb' 56 8 == w.extractLsb' 56 8) with
  | none => some 1
  | some row =>
    if w &&& row.zeros ≠ 0 then some 2
    else if w &&& row.points ≠ 0 then some 3
    else rangeLine row w

/-! ## The curve (10_state.md R30, 45_point_arith.md R221) -/

/-- `y^2 = x^3 + a*x + b` over the integers modulo `p` (10_state.md R30). -/
def curveE : WeierstrassCurve.Affine (ZMod Rom.p) := ⟨0, 0, 0, (Rom.a : ZMod Rom.p), (Rom.b : ZMod Rom.p)⟩

/-- A point value stands for a point of the curve's group: the infinity for its zero, canonical coordinates for the point
that has them. -/
def Represents : Point → curveE.Point → Prop
  | .inf, U => U = .zero
  | .aff x y, U => x < Rom.p ∧ y < Rom.p ∧ ∃ h : curveE.Nonsingular (x : ZMod Rom.p) (y : ZMod Rom.p), U = .some _ _ h

/-! ## The invariant -/

/-- A value that a point register may hold: coordinates in `0..p-1` (10_state.md R26). -/
abbrev CanonicalPoint : Point → Prop
  | .inf => True
  | .aff x y => x < Rom.p ∧ y < Rom.p

/-- What the engine keeps true: every MPI register within its capacity (10_state.md R20), every point register canonical
(R26), `BUF` in its canonical form, the reserved bits of `STATUS` zero (R34), the error registers zero without a fault
(R36, R37, R38) and with one a code 1..9 (R36), and curve 0 selected (R41). -/
structure Inv (c : Config.Params) (s : State) : Prop where
  fits     : ∀ r : MReg, Fits c (s.readM r)
  points   : ∀ r : PReg, CanonicalPoint (s.readP r)
  buf      : s.buf.wf c.bufsz = true
  status   : s.status = 0#32 ∨ s.status = 1#32
  noError  : s.status = 0#32 → s.errcode = 0#32 ∧ s.errinfo = 0#32 ∧ s.errseq = 0#32
  anError  : s.status = 1#32 → 1 ≤ s.errcode.toNat ∧ s.errcode.toNat ≤ 9
  curve    : s.curveid = 0#32

/-! ## What the host does -/

/-- A transaction of the interface (00_scope.md R8): the addresses and register numbers that exist. -/
def Legal (c : Config.Params) : Transaction → Prop
  | .command _ => True
  | .bufWrite addr _ => addr < c.bufsz
  | .bufRead addr => addr < c.bufsz
  | .csrRead i => i ≤ 6
  | .reset => True

/-- A transaction that writes no byte at `a`: no `Reset`, no `BufWrite` there, no command whose output operand covers it
(20_memory.md R60, R67). -/
def Leaves (a : Nat) : Transaction → Prop
  | .command w => ∀ i arg, decodeWord w = .ok i → outArg i = some arg →
      a < arg.addr.toNat ∨ arg.addr.toNat + arg.len.toNat ≤ a
  | .bufWrite addr _ => addr ≠ a
  | .bufRead _ => True
  | .csrRead _ => True
  | .reset => False

/-- The step that takes `x`, when the host makes it next. -/
def hand (step : State → Outcome) (x : Transaction) (s : State) : Outcome := step { s with input := some x }

/-- The steps that take these transactions, made one after another: the host's list of transactions is outside the machine
(10_state.md R44). -/
def handAll (step : State → Outcome) : List Transaction → State → Outcome
  | [], s => .next s
  | x :: xs, s =>
    match hand step x s with
    | .next t => handAll step xs t
    | .fault r => .fault r
    | .refused r => .refused r

end Sys2Proof.Safety
end

