-- ==== Sys2Proof/Certificates/Slice0/Obligations.lean ====
section
/-! DEFINITION. The statements for the provers, in the terms of Safety.lean. "On `s`" below means a state that is not in
fault, where the statement does not say otherwise; rejection in fault is stated once, for every word. `OfEvery fun c exec => …`
(Safety.lean) says `…` of the machine, where `exec` is the `exec` of Dispatch.lean and `c` its parameters, and again of the engine
of every parameters, where `exec` is `execAt c`. -/

open Sys2Proof Sys2Proof.Machine Sys2Proof.Safety

/-! ## Encoding (30_encoding.md) -/

/-- Every well-formed command is what its word decodes to (R80, R81, R86, R91). -/
def Obligations.DecodeOfEncode : Prop := ∀ i : Instr, i.wf = true → decodeWord (encode i) = .ok i

/-- A word that decodes is the word of the command it decodes to, and that command is well-formed: no bit of a word is
ignored (R88: "there are no ... reserved-but-ignored bits"). -/
def Obligations.EncodeOfDecode : Prop :=
  ∀ (w : CmdWord) (i : Instr), decodeWord w = .ok i → encode i = w ∧ i.wf = true

/-- R93: the rows of the opcode table select words by mask and pattern; a selected word that meets the row's constraints
decodes to the row's command, and nothing else decodes. -/
def Obligations.OpcodeTableSelects : Prop :=
  (∀ row ∈ opcodeTable, row.mask = 0xFF00000000000000 ||| row.zeros ||| row.points ∧
    row.pattern = (row.pattern >>> 56) <<< 56) ∧
  (∀ (w : CmdWord), ∀ row ∈ opcodeTable, w &&& row.mask = row.pattern → rangeLine row w = none →
    ∃ i, decodeWord w = .ok i ∧ mnemonic i = row.mnemonic) ∧
  (∀ (w : CmdWord) (i : Instr), decodeWord w = .ok i → ∃ row ∈ opcodeTable,
    mnemonic i = row.mnemonic ∧ w &&& row.mask = row.pattern ∧ rangeLine row w = none) ∧
  decodeWord 0x4912300000000000 = .ok (.padd 1 2 3)

/-- R88: the first line that applies to an illegal word is the info of the `IllegalCommandError` it raises; every other
word is a command, which is executed. -/
def Obligations.IllegalWords : Prop := OfEvery fun c exec =>
  ∀ (w : CmdWord) (s : State), s.inFault = false →
    (∀ n, illegalLine w = some n → commandOn c exec w s = failed 9 (BitVec.ofNat 32 n) s) ∧
    (illegalLine w = none → ∃ i, decodeWord w = .ok i ∧ commandOn c exec w s = exec i s) ∧
    illegalLine 0x0000000000000000 = some 1 ∧ illegalLine 0xFFFFFFFFFFFFFFFF = some 1

/-- The worked encodings of 30_encoding.md R94, which the spec marks as derived from R81 and R86, in both directions. -/
def Obligations.WorkedEncodings : Prop :=
  ∀ x ∈ ([(0x0100000000000000, .clrerr), (0x08100000FFFFFFFB, .ldi 1 (BitVec.ofInt 32 (-5))),
      (0x1031200000000000, .add 3 1 2), (0x1645120000000000, .divrem 4 5 1 2), (0x1921000000000003, .shr 2 1 3),
      (0x22070000000000FF, .testbit 7 255), (0x2C10001000400040, .parse 1 16 ⟨0x0040, 64⟩),
      (0x2D01000A00500100, .tostr 1 10 ⟨0x0100, 80⟩), (0x32312F0000000000, .fmul 3 1 2 15),
      (0x33310F0000000000, .fsqr 3 1 15), (0x4B10100000000000, .pmul 1 0 1),
      (0x4C20110900000000, .pmul2 2 0 1 1 9), (0x4D01000100210200, .penc 1 true ⟨0x0200, 33⟩),
      (0x5001000000000000, .pvalid 1)] : List (CmdWord × Instr)),
    decodeWord x.1 = .ok x.2 ∧ encode x.2 = x.1

/-! ## The step, errors, reset (60_exceptions.md, 70_reset_and_hazards.md, 10_state.md) -/

/-- A step takes the transaction that the host is making, whole, and it is over then: a command word runs exactly the
decoded command; an illegal word fails with the line of 30_encoding.md R88, or is rejected in fault; `BufWrite`, `BufRead`,
`CsrRead` and `Reset` do what `transact` says of them. With none being made it changes nothing. The same of the engine of every
parameters, of which the machine is the one at `Config.params` (log 1). That the transaction stands in the state beside the engine, and
the idle step, are the model's own (log 2). -/
def Obligations.StepRunsCommand : Prop :=
  (∀ s : State, step s = stepAt Config.params s) ∧ (∀ (i : Instr) (s : State), exec i s = execAt Config.params i s) ∧
  (∀ (s : State) (x : Transaction), s.input = some x →
    step s = transact x { s with input := none } ∧
    ∀ c, stepAt c s = transactOn c (execAt c) x { s with input := none }) ∧
  (∀ s : State, s.input = none → step s = .next s ∧ ∀ c, stepAt c s = .next s) ∧
  (∀ (s : State) (w : CmdWord), s.input = some (.command w) →
    (∀ i, decodeWord w = .ok i →
      step s = exec i { s with input := none } ∧ ∀ c, stepAt c s = execAt c i { s with input := none }) ∧
    (∀ n, illegalLine w = some n → s.inFault = false →
      step s = failed 9 (BitVec.ofNat 32 n) { s with input := none } ∧
      ∀ c, stepAt c s = failed 9 (BitVec.ofNat 32 n) { s with input := none }) ∧
    (∀ n, illegalLine w = some n → s.inFault = true →
      step s = turnedAway { s with input := none } ∧ ∀ c, stepAt c s = turnedAway { s with input := none }))

/-- R262: a command word is rejected in fault unless it is `CLRERR`; else it fails with the error of its decoding, or the
pseudocode of its command runs on the engine with `CSEQ` advanced: the engine that it leaves is the engine after the step, whole
(every collected write committed; the error registers changed by `CLRERR` alone), and an error that it raises fails the command
with its code 1..9 and its info. -/
def Obligations.CommandStep : Prop := OfEvery fun c exec =>
  ∀ (w : CmdWord) (s : State),
    (s.inFault = true → w ≠ clrerrWord → commandOn c exec w s = turnedAway s) ∧
    (s.inFault = false ∨ w = clrerrWord →
      (∀ n, illegalLine w = some n → commandOn c exec w s = failed 9 (BitVec.ofNat 32 n) s) ∧
      (illegalLine w = none → ∃ i, decodeWord w = .ok i ∧
        ((∃ e, body i c s.countCommand = .ok e ∧ commandOn c exec w s = ran s { s with toEngine := e } ∧
          (w ≠ clrerrWord → e.status = s.status ∧ e.errcode = s.errcode ∧ e.errinfo = s.errinfo ∧
            e.errseq = s.errseq)) ∨
         (∃ r, body i c s.countCommand = .error r ∧ 1 ≤ r.kind.code.toNat ∧ r.kind.code.toNat ≤ 9 ∧
          commandOn c exec w s = failed r.kind.code r.info s))))

/-- R265: in fault every word but `CLRERR` changes `CSEQ` alone; `CLRERR` ends the fault; `BufRead`, `BufWrite` and
`CsrRead` work as always, and `Reset` clears the fault. -/
def Obligations.RejectionWhileInFault : Prop := OfEvery fun c exec =>
  ∀ s : State, s.inFault = true →
    (∀ w, w ≠ clrerrWord → commandOn c exec w s = turnedAway s) ∧
    (∃ t, commandOn c exec clrerrWord s = ran s t ∧ t.inFault = false) ∧
    (∀ a b, a < c.bufsz → ∃ t, transactOn c exec (.bufWrite a b) s = .next t ∧ t.readByte a = b) ∧
    (∀ a, a < c.bufsz → ∃ t, transactOn c exec (.bufRead a) s = .next t ∧ t.answer = .byte (s.readByte a)) ∧
    (∀ x ∈ [(0, s.status), (1, s.errcode), (2, s.errinfo), (3, s.errseq), (4, s.res), (5, s.cseq), (6, s.curveid)],
      ∃ t, transactOn c exec (.csrRead x.1) s = .next t ∧ t.answer = .csr x.2) ∧
    (∃ t, transactOn c exec .reset s = .next t ∧ t.inFault = false)

/-- R101: `CLRERR` clears the four error registers and nothing else, in fault or not; without a fault it changes nothing but
`CSEQ`; a word with its opcode and another bit set is illegal, or rejected in fault. -/
def Obligations.ClrerrClears : Prop := OfEvery fun c exec =>
  (∀ s : State, exec .clrerr s =
    ran s { s with status := s.status &&& 0xFFFFFFFE, errcode := 0, errinfo := 0, errseq := 0 }) ∧
  (∀ s : State, Inv c s → s.inFault = false → exec .clrerr s = ran s s) ∧
  (∀ (w : CmdWord) (s : State), w.extractLsb' 56 8 = 0x01 → w ≠ clrerrWord →
    (s.inFault = false → commandOn c exec w s = failed 9 2 s) ∧
    (s.inFault = true → commandOn c exec w s = turnedAway s))

/-- R263: a command after which the engine is in fault changed five control registers and nothing else: no MPI register,
no point register, no byte of `BUF`, not `RES`, not `CURVEID`. -/
def Obligations.FailedCommandChanges : Prop := OfEvery fun c exec =>
  ∀ (w : CmdWord) (s t : State), s.inFault = false → commandOn c exec w s = .next t → t.inFault = true →
    (∃ code info, 1 ≤ code.toNat ∧ code.toNat ≤ 9 ∧ t.answer = .response code s.res ∧
      t.errcode = code.setWidth 32 ∧ t.errinfo = info) ∧
    t.cseq = s.cseq + 1 ∧ t.status = s.status ||| 1 ∧ t.errseq = s.cseq ∧
    t.m = s.m ∧ t.p = s.p ∧ (∀ a, t.readByte a = s.readByte a) ∧ t.res = s.res ∧ t.curveid = s.curveid

/-- R272: the status of a response is 0 (executed), the code 1..9 of the failure, or `0xFF` (rejected,
engine in fault); `res` is `RES` at the
end of the step. -/
def Obligations.ResponseRecord : Prop := OfEvery fun c exec =>
  ∀ (w : CmdWord) (s t : State), commandOn c exec w s = .next t →
    ∃ status, t.answer = .response status t.res ∧
      ((status = 0x00 ∧ t.inFault = false ∧ t.cseq = s.cseq + 1) ∨
       (1 ≤ status.toNat ∧ status.toNat ≤ 9 ∧ s.inFault = false ∧ ∃ info, .next t = failed status info s) ∨
       (status = 0xFF ∧ s.inFault = true ∧ .next t = turnedAway s))

/-- R40: every `Command` transaction advances `CSEQ` by one modulo `2^32`, executed, failed or rejected; `BufWrite`,
`BufRead` and `CsrRead` do not. -/
def Obligations.CommandCount : Prop := OfEvery fun c exec =>
  (∀ (w : CmdWord) (s t : State), commandOn c exec w s = .next t → t.cseq.toNat = (s.cseq.toNat + 1) % 2 ^ 32) ∧
  (∀ (a : Nat) (b : Byte) (s t : State), bufWrite c a b s = .next t → t.cseq = s.cseq) ∧
  (∀ (a : Nat) (s t : State), bufRead c a s = .next t → t.cseq = s.cseq) ∧
  (∀ (i : Nat) (s t : State), csrRead i s = .next t → t.cseq = s.cseq)

/-- The frame of every command, executed, failed or rejected (00_scope.md R11; 10_state.md R24, R39, R44; 20_memory.md R67):
registers change only as named destinations, `RES` only by the twelve commands that write it, `BUF` only in the `RES`
bytes from the output operand's address on and only by an executed output command, the error registers of an executed
command only by `CLRERR`. -/
def Obligations.CommandFrame : Prop := OfEvery fun _ exec =>
  ∀ (i : Instr) (s t : State), exec i s = .next t →
    (∀ r, r ∉ mDests i → t.readM r = s.readM r) ∧
    (∀ r, r ∉ pDests i → t.readP r = s.readP r) ∧
    (writesRes i = false → t.res = s.res) ∧
    (∀ a, (∀ arg, outArg i = some arg → t.answer = .response 0 t.res →
        a < arg.addr.toNat ∨ arg.addr.toNat + t.res.toNat ≤ a) → t.readByte a = s.readByte a) ∧
    (outArg i = none → t.buf = s.buf) ∧
    ((∀ id, i ≠ .curve id) → t.curveid = s.curveid) ∧
    (t.answer = .response 0 t.res → i ≠ .clrerr →
      t.status = s.status ∧ t.errcode = s.errcode ∧ t.errinfo = s.errinfo ∧ t.errseq = s.errseq) ∧
    t.input = s.input ∧ t.epoch = s.epoch

/-- What a command does depends on `BUF` only through the bytes of its input operand (20_memory.md R60, 00_scope.md R11), and on
nothing of the host's side (10_state.md R44: "Each command starts from the architectural state alone"): on two states that differ
in `BUF` but not in those bytes, in the host's input and in the last answer, it leaves every register, and answers, the same. -/
def Obligations.BufferReads : Prop := OfEvery fun _ exec =>
  ∀ (i : Instr) (s t u : State) (buf : Memory) (x : Option Transaction) (y : Answer),
    (∀ arg, inArg i = some arg → ∀ a, arg.addr.toNat ≤ a → a < arg.addr.toNat + arg.len.toNat →
      Engine.readByte { s.toEngine with buf := buf } a = s.readByte a) →
    exec i s = .next t → exec i { s with buf := buf, input := x, answer := y } = .next u →
    u = { t with buf := u.buf, input := x } ∧
    ∀ a, Engine.readByte { s.toEngine with buf := buf } a = s.readByte a → u.readByte a = t.readByte a

/-- R35: from the command that raised an error the fault stays, with the registers that describe it, through every
transaction but `CLRERR` and `Reset`, and every other command is rejected. -/
def Obligations.FaultIsSticky : Prop := OfEvery fun c exec =>
  (∀ (x : Transaction) (s t : State), s.inFault = true → x ≠ .command clrerrWord → x ≠ .reset →
    transactOn c exec x s = .next t → t.inFault = true ∧ t.status = s.status ∧ t.errcode = s.errcode ∧ t.errinfo = s.errinfo ∧
      t.errseq = s.errseq ∧ ∀ w, x = .command w → .next t = turnedAway s) ∧
  (∀ (w : CmdWord) (s t : State), s.inFault = false → commandOn c exec w s = .next t →
    (t.inFault = true ↔ ∃ code info, 1 ≤ code.toNat ∧ .next t = failed code info s))

/-- R261 and R264: which error kinds, with which info, each command can raise once decoded. -/
def Obligations.ErrorsRaised : Prop := OfEvery fun c exec =>
  ∀ (i : Instr) (s t : State), Inv c s → i.wf = true → s.inFault = false → exec i s = .next t → t.inFault = true →
    ∃ e ∈ raisable i, exec i s = failed (BitVec.ofNat 8 e.1) (BitVec.ofNat 32 e.2) s

/-- R300: `Reset` zeroes every MPI register and control register and sets every point register to the infinity; no byte of
`BUF` is defined after it (the list of written bytes: log 4). The state after reset is the same. -/
def Obligations.ResetValues : Prop := OfEvery fun c exec =>
  ∀ s : State, ∃ t, transactOn c exec .reset s = .next t ∧ ∀ u ∈ [t, State.reset],
    (∀ r, u.readM r = 0) ∧ (∀ r, u.readP r = .inf) ∧ u.status = 0 ∧ u.errcode = 0 ∧ u.errinfo = 0 ∧ u.errseq = 0 ∧
    u.res = 0 ∧ u.cseq = 0 ∧ u.curveid = 0 ∧ ∀ a, u.buf.find a = none

/-- The invariant holds right after reset, whatever the parameters. -/
def Obligations.ResetMeetsInvariant : Prop :=
  ∀ c : Config.Params, Inv c State.reset

/-- Every step keeps the invariant: capacities (10_state.md R20), canonical points (R26), the canonical form of `BUF`, the
reserved bits of `STATUS` (R34), the error registers (R36 to R38) and the selected curve (R41). So does every step of the engine of
every parameters. -/
def Obligations.StepKeepsInvariant : Prop :=
  (∀ s t : State, Inv Config.params s → step s = .next t → Inv Config.params t) ∧
  (∀ (c : Config.Params) (s t : State), Inv c s → stepAt c s = .next t → Inv c t)

/-- Every transaction of the interface ends, in every state, for every `NLIMB` and `BUFSZ` (00_scope.md R5, R8,
70_reset_and_hazards.md R304); a host action outside the interface stops the model by name (log 7). -/
def Obligations.TransactionsComplete : Prop :=
  (∀ s : State, step s = stepAt Config.params s) ∧
  (∀ (c : Config.Params) (s : State), (∀ x ∈ s.input, Legal c x) → ∃ t, stepAt c s = .next t ∧ t.input = none) ∧
  (∀ (c : Config.Params) (s : State) (a : Nat), c.bufsz ≤ a →
    (s.input = some (.bufRead a) → stepAt c s = .fault (.noSuchAddress a)) ∧
    (∀ b, s.input = some (.bufWrite a b) → stepAt c s = .fault (.noSuchAddress a))) ∧
  (∀ (c : Config.Params) (s : State) (i : Nat), 6 < i → s.input = some (.csrRead i) → stepAt c s = .refused (.noSuchCsr i))

/-- The effects of the host's data transactions (00_scope.md R8, 10_state.md R34): `BufWrite` changes one byte, `BufRead` and
`CsrRead` change nothing and answer the byte and the register. The answer is the model's own field (log 6). -/
def Obligations.DataTransactions : Prop := OfEvery fun c exec =>
  ∀ s : State,
    (∀ a b, a < c.bufsz → ∃ buf : Memory,
      transactOn c exec (.bufWrite a b) s = .next { s with buf := buf, answer := .done } ∧
      Engine.readByte { s.toEngine with buf := buf } a = b ∧ ∀ x, x ≠ a → Engine.readByte { s.toEngine with buf := buf } x = s.readByte x) ∧
    (∀ a, a < c.bufsz → transactOn c exec (.bufRead a) s = .next { s with answer := .byte (s.readByte a) }) ∧
    (∀ x ∈ [(0, s.status), (1, s.errcode), (2, s.errinfo), (3, s.errseq), (4, s.res), (5, s.cseq), (6, s.curveid)],
      transactOn c exec (.csrRead x.1) s = .next { s with answer := .csr x.2 })

/-- 20_memory.md R71, through any transactions of the interface in between that write no byte at the address. A `BufWrite` is seen by
every later command: the command runs on a state in which the byte, and the place of it in any input operand, is the one
written. A byte that a command wrote is what a later `BufRead` answers. (The transaction handed to a step: log 2; where the
answer stands: log 6.) -/
def Obligations.BufferOrder : Prop := OfEvery fun c exec =>
  (∀ (s : State) (a : Nat) (b : Byte) (xs : List Transaction) (w : CmdWord), a < c.bufsz →
    (∀ x ∈ xs, Legal c x ∧ Leaves a x) →
    ∃ t, handAll (takeTransaction c exec) (.bufWrite a b :: xs) s = .next t ∧
      handAll (takeTransaction c exec) (.bufWrite a b :: (xs ++ [.command w])) s =
        commandOn c exec w { t with input := none } ∧
      t.readByte a = b ∧
      ∀ (arg : BufArg) (k : Nat), k < arg.len.toNat → arg.addr.toNat + k = a → (bytesAt t arg)[k]? = some b) ∧
  (∀ (s t : State) (w : CmdWord) (arg : BufArg) (out : List Byte) (xs : List Transaction) (k : Nat),
    hand (takeTransaction c exec) (.command w) s = .next t → t.inFault = false →
    Wrote c arg out { s with input := none } (.next t) →
    k < out.length → (∀ x ∈ xs, Legal c x ∧ Leaves (arg.addr.toNat + k) x) →
    ∃ u, handAll (takeTransaction c exec) (.command w :: (xs ++ [.bufRead (arg.addr.toNat + k)])) s = .next u ∧
      u.answer = .byte (out.getD k 0))

/-! ## System, load and move (40_system.md) -/

/-- R102 to R105: `CURVE`, `LDCP` of the seven constants, `LDI`, `MOV`. -/
def Obligations.SystemCommands : Prop := OfEvery fun c exec =>
  ∀ s : State, s.inFault = false →
    (∀ id : Word, exec (.curve id) s = if id = 0 then ran s { s with curveid := 0 } else failed 8 1 s) ∧
    (∀ md : MReg,
      exec (.ldcp md .p) s = storedM md (2 ^ 256 - 2 ^ 32 - 977) s ∧
      exec (.ldcp md .a) s = storedM md 0 s ∧
      exec (.ldcp md .b) s = storedM md 7 s ∧
      exec (.ldcp md .gx) s =
        storedM md 0x79BE667EF9DCBBAC55A06295CE870B07029BFCDB2DCE28D959F2815B16F81798 s ∧
      exec (.ldcp md .gy) s =
        storedM md 0x483ADA7726A3C4655DA4FBFC0E1108A8FD17B448A68554199C47D08FFB10D4B8 s ∧
      exec (.ldcp md .n) s =
        storedM md 0xFFFFFFFFFFFFFFFFFFFFFFFFFFFFFFFEBAAEDCE6AF48A03BBFD25E8CD0364141 s ∧
      exec (.ldcp md .h) s = storedM md 1 s) ∧
    (∀ (md : MReg) (imm : Word), exec (.ldi md imm) s =
      storedM md (if imm.toNat < 2 ^ 31 then (imm.toNat : Int) else (imm.toNat : Int) - 2 ^ 32) s) ∧
    (∀ md ma : MReg, Fits c (s.readM ma) → exec (.mov md ma) s = storedM md (s.readM ma) s)

/-! ## Integer arithmetic (41_mpi_arith.md) -/

/-- R120, R121, R126, R128: exact sums, differences, products and squares, or `CapacityError(0)`. -/
def Obligations.ExactArithmetic : Prop := OfEvery fun c exec =>
  ∀ s : State, s.inFault = false →
    (∀ md ma mb : MReg, exec (.add md ma mb) s = storedOrFull c md (s.readM ma + s.readM mb) s) ∧
    (∀ md ma mb : MReg, exec (.sub md ma mb) s = storedOrFull c md (s.readM ma - s.readM mb) s) ∧
    (∀ md ma mb : MReg, exec (.mul md ma mb) s = storedOrFull c md (s.readM ma * s.readM mb) s) ∧
    (∀ md ma : MReg, exec (.sqr md ma) s = storedOrFull c md (s.readM ma ^ 2) s)

/-- R130, R131, R132: the truncated quotient, the non-negative residue, the quotient with the truncated remainder;
`DivideByZeroError(0)` for a zero divisor, and no `CapacityError`. -/
def Obligations.Division : Prop := OfEvery fun c exec =>
  ∀ (s : State) (ma mb : MReg), s.inFault = false → Fits c (s.readM ma) → Fits c (s.readM mb) →
    (s.readM mb = 0 → ∀ md mr : MReg, exec (.div md ma mb) s = failed 5 0 s ∧ exec (.mod md ma mb) s = failed 5 0 s ∧
      exec (.divrem md mr ma mb) s = failed 5 0 s) ∧
    (s.readM mb ≠ 0 →
      (∀ md : MReg, exec (.div md ma mb) s = storedM md ((s.readM ma).tdiv (s.readM mb)) s) ∧
      (∀ md : MReg, exec (.mod md ma mb) s = storedM md (s.readM ma % |s.readM mb|) s) ∧
      (∀ mq mr : MReg, mq ≠ mr → ∃ q r : Int, q * s.readM mb + r = s.readM ma ∧ |r| < |s.readM mb| ∧
        0 ≤ r * s.readM ma ∧ exec (.divrem mq mr ma mb) s =
          ran s { s with m := (s.m.set mq.val q).set mr.val r }))

/-- The identities of division of 41_mpi_arith.md R135, which the spec marks as derived from R133, with the restricted form
of the source's property. -/
def Obligations.DivisionIdentities : Prop :=
  ∀ a b : Int, b ≠ 0 →
    tquo a b * b + trem a b = a ∧ 0 ≤ nmod a b ∧ nmod a b < |b| ∧ nmod a b = nmod a (-b) ∧
    tquo (-a) b = -tquo a b ∧ tquo a (-b) = -tquo a b ∧
    (tquo a b * b + nmod a b = a ↔ 0 ≤ a ∨ b ∣ a)

/-- R136: the inverse modulo `|m|` in `0..|m|-1`, `NoInverseError(1)` for a zero modulus, `NoInverseError(2)` for operands
that are not coprime. -/
def Obligations.ModularInverse : Prop := OfEvery fun c exec =>
  ∀ (s : State) (md ma mm : MReg), s.inFault = false → Fits c (s.readM mm) →
    (s.readM mm = 0 → exec (.modinv md ma mm) s = failed 4 1 s) ∧
    (s.readM mm ≠ 0 → Int.gcd (s.readM ma) (s.readM mm) ≠ 1 → exec (.modinv md ma mm) s = failed 4 2 s) ∧
    (s.readM mm ≠ 0 → Int.gcd (s.readM ma) (s.readM mm) = 1 →
      ∃ x : Int, 0 ≤ x ∧ x < |s.readM mm| ∧ s.readM mm ∣ s.readM ma * x - 1 ∧
        (∀ y : Int, 0 ≤ y → y < |s.readM mm| → s.readM mm ∣ s.readM ma * y - 1 → y = x) ∧
        exec (.modinv md ma mm) s = storedM md x s)

/-- R139, R140: `SHL` and `SHR` by a signed amount, each the other for a negative one; the right shift is of the
magnitude with the sign kept (90_conflicts.md C3), and a left shift that does not fit raises `CapacityError(0)`. -/
def Obligations.Shifts : Prop := OfEvery fun c exec =>
  ∀ (s : State) (md ma : MReg) (imm : Word), s.inFault = false → Fits c (s.readM ma) →
    (0 ≤ imm.toInt →
      exec (.shl md ma imm) s = storedOrFull c md (s.readM ma * 2 ^ imm.toInt.toNat) s ∧
      exec (.shr md ma imm) s = storedM md ((s.readM ma).sign * (|s.readM ma| / 2 ^ imm.toInt.toNat)) s) ∧
    (imm.toInt < 0 →
      exec (.shl md ma imm) s = storedM md ((s.readM ma).sign * (|s.readM ma| / 2 ^ (-imm.toInt).toNat)) s ∧
      exec (.shr md ma imm) s = storedOrFull c md (s.readM ma * 2 ^ (-imm.toInt).toNat) s)

/-! ## Integer queries (42_mpi_query.md) -/

/-- R160 to R163: the answers of `CMP`, `ISEVEN`, `TESTBIT` and `BITLEN`, the last two of the magnitude
(90_conflicts.md C3). -/
def Obligations.IntegerQueries : Prop := OfEvery fun _ exec =>
  ∀ s : State, s.inFault = false →
    (∀ ma mb : MReg, exec (.cmp ma mb) s = answered
      (if s.readM ma < s.readM mb then 0xFFFFFFFF else if s.readM ma = s.readM mb then 0 else 1) s) ∧
    (∀ ma : MReg, exec (.iseven ma) s = answered (if 2 ∣ s.readM ma then 1 else 0) s) ∧
    (∀ (ma : MReg) (n : Word), exec (.testbit ma n) s =
      answered (BitVec.ofNat 32 ((s.readM ma).natAbs / 2 ^ n.toNat % 2)) s) ∧
    (∀ ma : MReg, ∃ k : Nat, (s.readM ma).natAbs < 2 ^ k ∧ (∀ j, (s.readM ma).natAbs < 2 ^ j → k ≤ j) ∧
      exec (.bitlen ma) s = answered (BitVec.ofNat 32 k) s)

/-! ## Integer conversions (43_mpi_convert.md) -/

/-- R170, R173: the unsigned and the sign-and-magnitude value of the input bytes. -/
def Obligations.ReadIntegers : Prop := OfEvery fun c exec =>
  ∀ (s : State) (md : MReg) (arg : BufArg), s.inFault = false →
    (¬ InBuf c arg → exec (.frombu md arg) s = failed 7 1 s ∧ exec (.frombs md arg) s = failed 7 1 s) ∧
    (InBuf c arg →
      exec (.frombu md arg) s = storedOrFull c md (beSum (bytesAt s arg)) s ∧
      (arg.len = 0 → exec (.frombs md arg) s = storedM md 0 s) ∧
      (∀ b bs, bytesAt s arg = b :: bs → exec (.frombs md arg) s = storedOrFull c md
        (if b.toNat < 0x80 then (beSum (b :: bs) : Int) else -((beSum ((b &&& 0x7F) :: bs) : Nat) : Int)) s))

/-- R171, R172: the bytes of a magnitude without a leading zero byte, and the same under a sign bit, with an extra lead byte
where the magnitude needs its top bit. -/
def Obligations.WriteIntegers : Prop := OfEvery fun c exec =>
  ∀ (s : State) (ma : MReg) (arg : BufArg), s.inFault = false →
    ∃ u : List Byte, beSum u = (s.readM ma).natAbs ∧ u.head? ≠ some 0 ∧
      Wrote c arg u s (exec (.tobu ma arg) s) ∧
      (s.readM ma = 0 → Wrote c arg [] s (exec (.tobs ma arg) s)) ∧
      (∀ b bs, u = b :: bs →
        (0 < s.readM ma → b.toNat < 0x80 → Wrote c arg (b :: bs) s (exec (.tobs ma arg) s)) ∧
        (0 < s.readM ma → 0x80 ≤ b.toNat → Wrote c arg (0x00 :: b :: bs) s (exec (.tobs ma arg) s)) ∧
        (s.readM ma < 0 → b.toNat < 0x80 → Wrote c arg ((b + 0x80) :: bs) s (exec (.tobs ma arg) s)) ∧
        (s.readM ma < 0 → 0x80 ≤ b.toNat → Wrote c arg (0x80 :: b :: bs) s (exec (.tobs ma arg) s)))

/-- R176: the digit values of all 256 bytes, and the digit characters. -/
def Obligations.DigitValues : Prop :=
  (∀ c : Byte,
    (0x30 ≤ c.toNat → c.toNat ≤ 0x39 → digitVal c = some (c.toNat - 0x30)) ∧
    (0x61 ≤ c.toNat → c.toNat ≤ 0x7A → digitVal c = some (c.toNat - 0x61 + 10)) ∧
    (0x41 ≤ c.toNat → c.toNat ≤ 0x5A → digitVal c = some (c.toNat - 0x41 + 10)) ∧
    (c.toNat < 0x30 ∨ (0x39 < c.toNat ∧ c.toNat < 0x41) ∨ (0x5A < c.toNat ∧ c.toNat < 0x61) ∨ 0x7A < c.toNat →
      digitVal c = none)) ∧
  (∀ x, x ≤ 9 → digitChar x = BitVec.ofNat 8 (0x30 + x)) ∧
  (∀ x, 10 ≤ x → x ≤ 35 → digitChar x = BitVec.ofNat 8 (0x61 + x - 10))

/-- R175: an optional minus sign and one or more digits of the base; the errors in their order. -/
def Obligations.ParseStrings : Prop := OfEvery fun c exec =>
  ∀ (s : State) (md : MReg) (r : Nat) (arg : BufArg), s.inFault = false → 2 ≤ r → r ≤ 36 →
    (¬ InBuf c arg → exec (.parse md r arg) s = failed 7 1 s) ∧
    (InBuf c arg → ∀ (neg : Bool) (ds : List Byte),
      (bytesAt s arg = if neg then 0x2D :: ds else ds) → (neg = false → ds.head? ≠ some 0x2D) →
      (ds = [] → exec (.parse md r arg) s = failed 1 1 s) ∧
      (ds ≠ [] → (∃ b ∈ ds, ∀ x, digitVal b = some x → r ≤ x) → exec (.parse md r arg) s = failed 1 2 s) ∧
      (ds ≠ [] → ∀ xs : List Nat, ds.map digitVal = xs.map some → (∀ x ∈ xs, x < r) →
        exec (.parse md r arg) s = storedOrFull c md
          (if neg then -(Nat.ofDigits r xs.reverse : Int) else (Nat.ofDigits r xs.reverse : Int)) s))

/-- R177: "0" for zero, else a minus sign for a negative value and the digits of the magnitude, the first of them not
zero, in lower case. -/
def Obligations.RenderStrings : Prop := OfEvery fun c exec =>
  ∀ (s : State) (ma : MReg) (r : Nat) (arg : BufArg), s.inFault = false → 2 ≤ r → r ≤ 36 →
    (s.readM ma = 0 → Wrote c arg [0x30] s (exec (.tostr ma r arg) s)) ∧
    (s.readM ma ≠ 0 → ∃ ds : List Nat, ds ≠ [] ∧ (∀ x ∈ ds, x < r) ∧ ds.head? ≠ some 0 ∧
      Nat.ofDigits r ds.reverse = (s.readM ma).natAbs ∧
      Wrote c arg ((if s.readM ma < 0 then [0x2D] else []) ++ ds.map digitChar) s (exec (.tostr ma r arg) s))

/-- The round trips of 43_mpi_convert.md R174, which the spec marks as derived: `TOBU` then `FROMBU` gives the
magnitude, `TOBS` then `FROMBS` the value, and `FROMBU` then `TOBU` the bytes without their leading zero bytes. -/
def Obligations.IntegerRoundTrips : Prop := OfEvery fun c exec =>
  ∀ (s : State), s.inFault = false →
    (∀ (ma md : MReg) (arg : BufArg) (t : State), Fits c (s.readM ma) → exec (.tobu ma arg) s = .next t →
      t.inFault = false →
      exec (.frombu md ⟨arg.addr, BitVec.ofNat 16 t.res.toNat⟩) t = storedM md (s.readM ma).natAbs t) ∧
    (∀ (ma md : MReg) (arg : BufArg) (t : State), Fits c (s.readM ma) → exec (.tobs ma arg) s = .next t →
      t.inFault = false →
      exec (.frombs md ⟨arg.addr, BitVec.ofNat 16 t.res.toNat⟩) t = storedM md (s.readM ma) t) ∧
    (∀ (md : MReg) (arg out : BufArg) (t : State), exec (.frombu md arg) s = .next t → t.inFault = false →
      Wrote c out ((bytesAt s arg).dropWhile (fun b => b == 0)) t (exec (.tobu md out) t))

/-- R179, both directions in one base: `TOSTR` then `PARSE` gives the value back, and `PARSE` then `TOSTR` gives the accepted
string in lower case, without its leading zeros, and with no sign before a zero. -/
def Obligations.StringRoundTrip : Prop := OfEvery fun c exec =>
  ∀ (s t : State) (md : MReg) (r : Nat) (arg : BufArg), s.inFault = false → 2 ≤ r → r ≤ 36 → t.inFault = false →
    (∀ ma : MReg, Fits c (s.readM ma) → exec (.tostr ma r arg) s = .next t →
      exec (.parse md r ⟨arg.addr, BitVec.ofNat 16 t.res.toNat⟩) t = storedM md (s.readM ma) t) ∧
    (∀ (neg : Bool) (ds : List Byte) (xs : List Nat) (out : BufArg),
      (bytesAt s arg = if neg then 0x2D :: ds else ds) → ds.map digitVal = xs.map some → exec (.parse md r arg) s = .next t →
      Wrote c out (if xs.dropWhile (fun x => x == 0) = [] then [0x30]
        else (if neg then [0x2D] else []) ++ (xs.dropWhile (fun x => x == 0)).map digitChar) t (exec (.tostr md r out) t))

/-! ## Field commands (44_field.md) -/

/-- R191 to R194: sums, differences, products and squares reduced into `0..|m|-1`, with no bound on the unreduced value;
`DivideByZeroError(0)` for a zero modulus. -/
def Obligations.FieldArithmetic : Prop := OfEvery fun c exec =>
  ∀ (s : State) (md ma mb mm : MReg), s.inFault = false → Fits c (s.readM mm) →
    (s.readM mm = 0 → exec (.fadd md ma mb mm) s = failed 5 0 s ∧ exec (.fsub md ma mb mm) s = failed 5 0 s ∧
      exec (.fmul md ma mb mm) s = failed 5 0 s ∧ exec (.fsqr md ma mm) s = failed 5 0 s) ∧
    (s.readM mm ≠ 0 →
      exec (.fadd md ma mb mm) s = storedM md ((s.readM ma + s.readM mb) % |s.readM mm|) s ∧
      exec (.fsub md ma mb mm) s = storedM md ((s.readM ma - s.readM mb) % |s.readM mm|) s ∧
      exec (.fmul md ma mb mm) s = storedM md (s.readM ma * s.readM mb % |s.readM mm|) s ∧
      exec (.fsqr md ma mm) s = storedM md (s.readM ma ^ 2 % |s.readM mm|) s)

/-- R195, R196: `FDIV` multiplies by the inverse of the divisor, `NoInverseError(2)` where there is none; `FEQ` asks for equal
moduli and congruent values; a zero modulus is `DivideByZeroError(0)` in both. -/
def Obligations.FieldDivideAndEquality : Prop := OfEvery fun c exec =>
  (∀ (s : State) (md ma mb mm : MReg), s.inFault = false → Fits c (s.readM mm) →
    (s.readM mm = 0 → exec (.fdiv md ma mb mm) s = failed 5 0 s) ∧
    (s.readM mm ≠ 0 → Int.gcd (s.readM mb) (s.readM mm) ≠ 1 → exec (.fdiv md ma mb mm) s = failed 4 2 s) ∧
    (s.readM mm ≠ 0 → ∀ x : Int, s.readM mm ∣ s.readM mb * x - 1 →
      exec (.fdiv md ma mb mm) s = storedM md (s.readM ma * x % |s.readM mm|) s)) ∧
  (∀ (s : State) (ma mma mb mmb : MReg), s.inFault = false →
    (s.readM mma = 0 ∨ s.readM mmb = 0 → exec (.feq ma mma mb mmb) s = failed 5 0 s) ∧
    (s.readM mma ≠ 0 → s.readM mmb ≠ 0 → exec (.feq ma mma mb mmb) s = answered
      (if s.readM mma = s.readM mmb ∧ s.readM mma ∣ s.readM ma - s.readM mb then 1 else 0) s))

/-- Two of the laws of R197, between results of commands: `FMUL(FDIV(a, b), b) = nmod(a, m)` for an invertible `b`, and
`FSUB(FADD(a, b), b) = nmod(a, m)`. -/
def Obligations.FieldLaws : Prop := OfEvery fun c exec =>
  ∀ (s : State) (md ma mb mm : MReg), s.inFault = false → Fits c (s.readM mm) → s.readM mm ≠ 0 → md ≠ mb → md ≠ mm →
    (Int.gcd (s.readM mb) (s.readM mm) = 1 → ∃ t, exec (.fdiv md ma mb mm) s = .next t ∧
      exec (.fmul md md mb mm) t = storedM md (s.readM ma % |s.readM mm|) t) ∧
    (∃ t, exec (.fadd md ma mb mm) s = .next t ∧
      exec (.fsub md md mb mm) t = storedM md (s.readM ma % |s.readM mm|) t)

/-! ## Points (45_point_arith.md) -/

/-- R201 to R204: the infinity, the generator, a point from two integers in range (else `DomainError(2)`), a copy. -/
def Obligations.PointMoves : Prop := OfEvery fun _ exec =>
  ∀ s : State, s.inFault = false →
    (∀ pd : PReg, exec (.pinf pd) s = storedP pd .inf s) ∧
    (∀ pd : PReg, exec (.pgen pd) s = storedP pd
      (.aff 0x79BE667EF9DCBBAC55A06295CE870B07029BFCDB2DCE28D959F2815B16F81798
        0x483ADA7726A3C4655DA4FBFC0E1108A8FD17B448A68554199C47D08FFB10D4B8) s) ∧
    (∀ (pd : PReg) (mx my : MReg),
      (s.readM mx < 0 ∨ Rom.p ≤ s.readM mx ∨ s.readM my < 0 ∨ Rom.p ≤ s.readM my →
        exec (.pseta pd mx my) s = failed 2 2 s) ∧
      (∀ x y : Nat, s.readM mx = x → s.readM my = y → x < Rom.p → y < Rom.p →
        exec (.pseta pd mx my) s = storedP pd (.aff x y) s)) ∧
    (∀ pd pa : PReg, exec (.pmov pd pa) s = storedP pd (s.readP pa) s)

/-- R205 to R208: the test for the infinity, the coordinates (`OperandError(2)` for the infinity), equality. -/
def Obligations.PointReads : Prop := OfEvery fun _ exec =>
  ∀ s : State, s.inFault = false →
    (∀ pa : PReg, exec (.pisinf pa) s = answered (if s.readP pa = .inf then 1 else 0) s) ∧
    (∀ (md : MReg) (pa : PReg), s.readP pa = .inf →
      exec (.pgetx md pa) s = failed 8 2 s ∧ exec (.pgety md pa) s = failed 8 2 s) ∧
    (∀ (md : MReg) (pa : PReg) (x y : Nat), s.readP pa = .aff x y → x < Rom.p → y < Rom.p →
      exec (.pgetx md pa) s = storedM md x s ∧ exec (.pgety md pa) s = storedM md y s) ∧
    (∀ pa pb : PReg, exec (.peq pa pb) s = answered (if s.readP pa = s.readP pb then 1 else 0) s)

/-- R209, R210, R211, R213: the negative; the sum and the double by the chord and the tangent through the operands, where
`lam` is the slope modulo `p`, and the special cases of the infinity, a vertical chord and a vertical tangent. -/
def Obligations.ChordAndTangent : Prop := OfEvery fun _ exec =>
  ∀ (s : State) (pd pa pb : PReg), s.inFault = false →
    (s.readP pa = .inf → exec (.pneg pd pa) s = storedP pd .inf s ∧ exec (.pdbl pd pa) s = storedP pd .inf s ∧
      exec (.padd pd pa pb) s = storedP pd (s.readP pb) s) ∧
    (s.readP pb = .inf → exec (.padd pd pa pb) s = storedP pd (s.readP pa) s) ∧
    (∀ x y : Nat, s.readP pa = .aff x y → x < Rom.p → y < Rom.p →
      exec (.pneg pd pa) s = storedP pd (.aff x ((Rom.p - y) % Rom.p)) s ∧
      (s.readP pb = .aff x y → exec (.padd pd pa pb) s = exec (.pdbl pd pa) s) ∧
      (y = 0 → exec (.pdbl pd pa) s = storedP pd .inf s) ∧
      (y ≠ 0 → ∃ lam x3 y3 : Nat, x3 < Rom.p ∧ y3 < Rom.p ∧
        lam * (2 * y) ≡ 3 * x * x + 0 [ZMOD Rom.p] ∧ x3 ≡ lam * lam - 2 * x [ZMOD Rom.p] ∧
        y3 ≡ lam * (x - x3) - y [ZMOD Rom.p] ∧ exec (.pdbl pd pa) s = storedP pd (.aff x3 y3) s)) ∧
    (∀ x1 y1 x2 y2 : Nat, s.readP pa = .aff x1 y1 → s.readP pb = .aff x2 y2 → x1 < Rom.p → y1 < Rom.p → x2 < Rom.p →
      y2 < Rom.p →
      (x1 = x2 → y1 ≠ y2 → exec (.padd pd pa pb) s = storedP pd .inf s) ∧
      (x1 ≠ x2 → ∃ lam x3 y3 : Nat, x3 < Rom.p ∧ y3 < Rom.p ∧
        lam * (x2 - x1) ≡ y2 - y1 [ZMOD Rom.p] ∧ x3 ≡ lam * lam - x1 - x2 [ZMOD Rom.p] ∧
        y3 ≡ lam * (x1 - x3) - y1 [ZMOD Rom.p] ∧ exec (.padd pd pa pb) s = storedP pd (.aff x3 y3) s))

/-- R215: the signed-digit scan of `3k` against `k`, from the second-highest bit down to bit 1; `OperandError(3)` for a
negative scalar. -/
def Obligations.ScalarMultiplyScan : Prop := OfEvery fun _ exec =>
  ∀ (s : State) (pd pa : PReg) (mk : MReg), s.inFault = false →
    (s.readM mk < 0 → exec (.pmul pd pa mk) s = failed 8 3 s) ∧
    (∀ k : Nat, s.readM mk = k → k = 0 ∨ s.readP pa = .inf → exec (.pmul pd pa mk) s = storedP pd .inf s) ∧
    (∀ k len : Nat, s.readM mk = k → k ≠ 0 → s.readP pa ≠ .inf → 2 ^ (len + 1) ≤ 3 * k → 3 * k < 2 ^ (len + 2) →
      exec (.pmul pd pa mk) s = storedP pd
        ((List.range len).reverse.foldl (fun R i =>
          if (3 * k).testBit (i + 1) ≠ k.testBit (i + 1) then
            padd (pdbl R) (if (3 * k).testBit (i + 1) then s.readP pa else negPoint (s.readP pa))
          else pdbl R) (s.readP pa)) s)

/-- R218: the joint scan of two scalars from the higher of their bit lengths down to bit 0, adding `P`, `Q` or `P + Q`;
`OperandError(3)` for a negative scalar. -/
def Obligations.DoubleScalarScan : Prop := OfEvery fun _ exec =>
  ∀ (s : State) (pd pa pb : PReg) (mj mk : MReg), s.inFault = false →
    (s.readM mj < 0 ∨ s.readM mk < 0 → exec (.pmul2 pd pa mj pb mk) s = failed 8 3 s) ∧
    (∀ j k len : Nat, s.readM mj = j → s.readM mk = k → j < 2 ^ len → k < 2 ^ len →
      (len = 0 ∨ 2 ^ (len - 1) ≤ j ∨ 2 ^ (len - 1) ≤ k) →
      exec (.pmul2 pd pa mj pb mk) s = storedP pd
        ((List.range len).reverse.foldl (fun R i =>
          if j.testBit i ∧ k.testBit i then padd (pdbl R) (padd (s.readP pa) (s.readP pb))
          else if j.testBit i then padd (pdbl R) (s.readP pa)
          else if k.testBit i then padd (pdbl R) (s.readP pb)
          else pdbl R) .inf) s)

/-- On the curve, `PNEG` (45_point_arith.md R209), `PADD` and `PDBL` (R210 to R213) are the operations of the curve's group, as Mathlib defines it from the
Weierstrass equation of 10_state.md R30; every canonical pair that satisfies the equation is a point of that group. -/
def Obligations.GroupLaw : Prop := OfEvery fun _ exec =>
  ∀ [Fact (Nat.Prime Rom.p)],
    (∀ x y : Nat, x < Rom.p → y < Rom.p → y * y % Rom.p = (x * x * x + 7) % Rom.p →
      ∃ U : curveE.Point, Represents (.aff x y) U) ∧
    (∀ (s : State) (pd pa pb : PReg) (U V : curveE.Point), s.inFault = false → Represents (s.readP pa) U →
      Represents (s.readP pb) V →
      (∃ C, exec (.padd pd pa pb) s = storedP pd C s ∧ Represents C (U + V)) ∧
      (∃ C, exec (.pdbl pd pa) s = storedP pd C s ∧ Represents C (U + U)) ∧
      (∃ C, exec (.pneg pd pa) s = storedP pd C s ∧ Represents C (-U)))

/-- On the curve, `PMUL` gives `[k]P` and `PMUL2` gives `[j]P + [k]Q` in the curve's group (R215: "for a point A on the curve
the result is the group multiple"; R218). -/
def Obligations.ScalarMultiples : Prop := OfEvery fun _ exec =>
  ∀ [Fact (Nat.Prime Rom.p)],
    (∀ (s : State) (pd pa : PReg) (mk : MReg) (U : curveE.Point) (k : Nat), s.inFault = false →
      Represents (s.readP pa) U → s.readM mk = k →
      ∃ C, exec (.pmul pd pa mk) s = storedP pd C s ∧ Represents C (k • U)) ∧
    (∀ (s : State) (pd pa pb : PReg) (mj mk : MReg) (U V : curveE.Point) (j k : Nat), s.inFault = false →
      Represents (s.readP pa) U → Represents (s.readP pb) V → s.readM mj = j → s.readM mk = k →
      ∃ C, exec (.pmul2 pd pa mj pb mk) s = storedP pd C s ∧ Represents C (j • U + k • V))

/-- The identities of R220, for every point value, on the curve or not: `P + Inf = P`, `P + (-P) = Inf`, `[0]P = Inf`. -/
def Obligations.PointIdentities : Prop := OfEvery fun _ exec =>
  ∀ (s : State) (pd pa pb : PReg), s.inFault = false → CanonicalPoint (s.readP pa) → pa ≠ pb →
    (∃ t, exec (.pinf pb) s = .next t ∧ exec (.padd pd pa pb) t = storedP pd (s.readP pa) t) ∧
    (∃ t, exec (.pneg pb pa) s = .next t ∧ exec (.padd pd pa pb) t = storedP pd .inf t) ∧
    (∀ mk : MReg, ∃ t, exec (.ldi mk 0) s = .next t ∧ exec (.pmul pd pa mk) t = storedP pd .inf t)

/-! ## Point codec (46_point_codec.md) -/

/-- R240: the compressed and the uncompressed encoding with 32-byte coordinates; `OperandError(2)` for the infinity. -/
def Obligations.EncodePoints : Prop := OfEvery fun c exec =>
  ∀ (s : State) (pa : PReg) (arg : BufArg), s.inFault = false →
    (s.readP pa = .inf → ∀ z, exec (.penc pa z arg) s = failed 8 2 s) ∧
    (∀ x y : Nat, s.readP pa = .aff x y → x < Rom.p → y < Rom.p →
      ∃ X Y : List Byte, X.length = 32 ∧ Y.length = 32 ∧ beSum X = x ∧ beSum Y = y ∧
        Wrote c arg (0x04 :: (X ++ Y)) s (exec (.penc pa false arg) s) ∧
        Wrote c arg ((if y % 2 = 0 then 0x02 else 0x03) :: X) s (exec (.penc pa true arg) s))

/-- R242, R244: the decoder's tests in the order written, on the input bytes. -/
def Obligations.DecodePoints : Prop := OfEvery fun c exec =>
  ∀ (s : State) (pd : PReg) (arg : BufArg), s.inFault = false →
    (¬ InBuf c arg → exec (.pdec pd arg) s = failed 7 1 s) ∧
    (InBuf c arg → exec (.pdec pd arg) s = decodedPoint pd (bytesAt s arg) s)

/-- R245: two hex digits a byte, either case, then the decoder of R242; `ParseError(3)` for an odd length, `ParseError(2)` for
a byte that is no hex digit. -/
def Obligations.DecodeHexPoints : Prop := OfEvery fun c exec =>
  ∀ (s : State) (pd : PReg) (arg : BufArg), s.inFault = false →
    (¬ InBuf c arg → exec (.pdechex pd arg) s = failed 7 1 s) ∧
    (InBuf c arg → arg.len.toNat % 2 = 1 → exec (.pdechex pd arg) s = failed 1 3 s) ∧
    (InBuf c arg → arg.len.toNat % 2 = 0 → (∃ b ∈ bytesAt s arg, ∀ x, digitVal b = some x → 15 < x) →
      exec (.pdechex pd arg) s = failed 1 2 s) ∧
    (InBuf c arg → ∀ xs : List (Nat × Nat), (∀ x ∈ xs, x.1 ≤ 15 ∧ x.2 ≤ 15) →
      (bytesAt s arg).map digitVal = (xs.flatMap fun x => [some x.1, some x.2]) →
      exec (.pdechex pd arg) s = decodedPoint pd (xs.map fun x => BitVec.ofNat 8 (16 * x.1 + x.2)) s)

/-- The round trips of 46_point_codec.md R246, which the spec marks as derived: `PENC c=0` then `PDEC` on the same 65
bytes gives the point back, on the curve or not, and `PEQ` gives 1; `PDEC` of a finite point then `PENC c=0` writes
the canonical `04` form, which for a canonical 65-byte input is that input. -/
def Obligations.PointRoundTrip : Prop := OfEvery fun c exec =>
  (∀ (s t : State) (pa pd : PReg) (arg : BufArg) (x y : Nat), s.inFault = false → s.readP pa = .aff x y → x < Rom.p →
    y < Rom.p → exec (.penc pa false arg) s = .next t → t.inFault = false →
    t.res = 65 ∧ exec (.pdec pd ⟨arg.addr, 65⟩) t = storedP pd (.aff x y) t ∧
    ∃ u, exec (.pdec pd ⟨arg.addr, 65⟩) t = .next u ∧ exec (.peq pa pd) u = answered 1 u) ∧
  (∀ (s t : State) (pd : PReg) (arg out : BufArg), s.inFault = false → exec (.pdec pd arg) s = .next t →
    t.inFault = false → t.readP pd ≠ .inf →
    ∃ X Y : List Byte, X.length = 32 ∧ Y.length = 32 ∧
      beSum X = beSum (((bytesAt s arg).drop 1).take ((arg.len.toNat - 1) / 2)) ∧
      beSum Y = beSum ((bytesAt s arg).drop (1 + (arg.len.toNat - 1) / 2)) ∧
      Wrote c out (0x04 :: (X ++ Y)) t (exec (.penc pd false out) t) ∧
      (arg.len = 65 → (bytesAt s arg).head? = some 0x04 → bytesAt s arg = 0x04 :: (X ++ Y)))

/-- R247: the four tests of `PVALID` in order, and `RES = 1` when all pass. (No point of the curve fails the fourth, since the
group has the prime order `n`; the rule states the test and so does this.) -/
def Obligations.ValidatePoints : Prop := OfEvery fun _ exec =>
  ∀ (s : State) (pa : PReg), s.inFault = false →
    (s.readP pa = .inf → exec (.pvalid pa) s = failed 2 1 s) ∧
    (∀ x y : Nat, s.readP pa = .aff x y →
      (x < 1 ∨ Rom.p - 1 < x ∨ y < 1 ∨ Rom.p - 1 < y → exec (.pvalid pa) s = failed 2 2 s) ∧
      (1 ≤ x → x ≤ Rom.p - 1 → 1 ≤ y → y ≤ Rom.p - 1 →
        (¬ y * y ≡ x * x * x + 0 * x + 7 [MOD Rom.p] → exec (.pvalid pa) s = failed 2 3 s) ∧
        (y * y ≡ x * x * x + 0 * x + 7 [MOD Rom.p] →
          (pmul (.aff x y) Rom.n ≠ .inf → exec (.pvalid pa) s = failed 2 4 s) ∧
          (pmul (.aff x y) Rom.n = .inf → exec (.pvalid pa) s = answered 1 s))))

/-! ## The reference datapath (00_scope.md R17) -/

/-- The limbs of an integer (10_state.md R21, R22, R23) are normalized, stand for it, are the only such limbs, and are
within `NLIMB` exactly when the integer fits; the queries read off the limbs (42_mpi_query.md R160 to R163) agree with the
values. -/
def Obligations.LimbView : Prop :=
  (∀ v : Int, (Datapath.SignedLimbs.of v).Normal ∧ (Datapath.SignedLimbs.of v).value = v ∧
    (∀ x : Datapath.SignedLimbs, x.Normal → x.value = v → x = .of v) ∧
    (Datapath.SignedLimbs.of v).limbs.length = nlimbs v ∧ (∀ c : Config.Params, Fits c v ↔ nlimbs v ≤ c.nlimb) ∧
    Datapath.limbsEven (Datapath.SignedLimbs.of v).limbs = decide (2 ∣ v) ∧
    (∀ n, Datapath.limbsBit (Datapath.SignedLimbs.of v).limbs n = v.natAbs.testBit n) ∧
    Datapath.limbsBitlen (Datapath.SignedLimbs.of v).limbs = bitlen v.natAbs) ∧
  (∀ x y : Datapath.SignedLimbs, x.Normal → y.Normal →
    Datapath.signedCmp x y = if x.value < y.value then -1 else if x.value = y.value then 0 else 1)

/-- The limb adder and subtractor give the exact sum and difference (41_mpi_arith.md R122, R123). -/
def Obligations.LimbAdder : Prop :=
  ∀ x y : Datapath.SignedLimbs, x.Normal → y.Normal →
    Datapath.signedAdd x y = .of (x.value + y.value) ∧ Datapath.signedSub x y = .of (x.value - y.value)

/-- The schoolbook multiplier and the squarer give the exact product and square (R127, R129). -/
def Obligations.LimbMultiplier : Prop :=
  ∀ x y : Datapath.SignedLimbs, x.Normal → y.Normal →
    Datapath.signedMul x y = .of (x.value * y.value) ∧
    Datapath.magSqr x.limbs = Datapath.limbsOf (Datapath.limbsValue x.limbs ^ 2)

/-- The limb shifter multiplies and divides the magnitude by a power of two (R141). -/
def Obligations.LimbShifter : Prop :=
  ∀ (a : List Nat) (s : Nat), Datapath.Normal a →
    Datapath.magShl a s = Datapath.limbsOf (Datapath.limbsValue a * 2 ^ s) ∧
    Datapath.magShr a s = Datapath.limbsOf (Datapath.limbsValue a / 2 ^ s)

/-- The limb divider, with its estimated and corrected quotient digits, gives the truncated quotient and remainder
(R134). -/
def Obligations.LimbDivider : Prop :=
  ∀ x y : Datapath.SignedLimbs, x.Normal → y.Normal → y.limbs ≠ [] →
    Datapath.signedDivrem x y = (.of (x.value.tdiv y.value), .of (x.value.tmod y.value))

/-- The binary inverter ends with the canonical inverse, or with none when the operands are not coprime (R137). -/
def Obligations.BinaryInverter : Prop :=
  ∀ a0 n : Nat, 1 ≤ a0 → a0 < n → ¬ (2 ∣ a0 ∧ 2 ∣ n) →
    (Nat.Coprime a0 n → ∃ x, x < n ∧ a0 * x % n = 1 ∧ Datapath.binaryInverse a0 n = some x) ∧
    (¬ Nat.Coprime a0 n → Datapath.binaryInverse a0 n = none)

/-- The reference radix converters agree with positional notation in every base 2..36, and a chunk is the largest power of
the base below the radix (43_mpi_convert.md R178). -/
def Obligations.RadixConverters : Prop :=
  ∀ r : Nat, 2 ≤ r → r ≤ 36 →
    (∀ m : Nat, 0 < m → Datapath.renderDigits r m = (Nat.digits r m).reverse.map digitChar) ∧
    (∀ xs : List Nat, (∀ x ∈ xs, x < r) → Datapath.readDigits r xs = Nat.ofDigits r xs.reverse) ∧
    Datapath.chunkValue r < 2 ^ 26 ∧ 2 ^ 26 ≤ Datapath.chunkValue r * r

/-- The projective formulas give the affine sum and double, never a zero `Z` but the infinity (45_point_arith.md R212, R214,
R223); equality by cross-multiplication (R208) and the value itself (R222) do not depend on the triple. -/
def Obligations.ProjectiveFormulas : Prop :=
  ∀ P Q : Datapath.Triple, P.Stored → Q.Stored →
    (Datapath.crossX P Q ≠ 0 →
      (Datapath.projAdd P Q).Stored ∧ (Datapath.projAdd P Q).point = padd P.point Q.point) ∧
    (P.y ≠ 0 → (Datapath.projDbl P).Stored ∧ (Datapath.projDbl P).point = pdbl P.point) ∧
    (P.point = Q.point ↔ Datapath.crossX P Q = 0 ∧ Datapath.crossY P Q = 0) ∧
    (∀ c : Nat, ¬ Rom.p ∣ c → (P.scale c).Stored ∧ (P.scale c).point = P.point)
end

