-- ==== Sys2Proof/Laws/Numbers.lean ====
section
/-! SUPPORT. What the arithmetic of Machine/Numbers.lean computes: bit lengths, truncated division, inverses, shifts, byte
lists and digits, each related to the standard notion. -/

namespace Sys2Proof.Machine

/-! ## Bit lengths (00_scope.md R12) -/

theorem bitlen_zero : bitlen 0 = 0 := rfl

theorem bitlen_le_iff {m k : Nat} : bitlen m ≤ k ↔ m < 2 ^ k := by
  unfold bitlen
  split
  · subst m
    simp
  · rename_i h
    rw [Nat.succ_le_iff, Nat.log2_lt h]

theorem lt_two_pow_bitlen (m : Nat) : m < 2 ^ bitlen m := bitlen_le_iff.1 le_rfl

theorem lt_bitlen_iff {m k : Nat} : k < bitlen m ↔ 2 ^ k ≤ m := by
  rw [← not_le, bitlen_le_iff, not_lt]

theorem bitlen_eq_size (m : Nat) : bitlen m = m.size := by
  apply le_antisymm
  · exact bitlen_le_iff.2 (Nat.lt_size_self m)
  · exact Nat.size_le.2 (lt_two_pow_bitlen m)

theorem bitlen_pos {m : Nat} (h : m ≠ 0) : 0 < bitlen m := lt_bitlen_iff.2 (by simpa [Nat.one_le_iff_ne_zero] using h)

/-- A value shifted up is as much longer. -/
theorem bitlen_shift {m : Nat} (h : m ≠ 0) (k : Nat) : bitlen (m * 2 ^ k) = bitlen m + k := by
  rw [bitlen_eq_size, bitlen_eq_size, ← Nat.shiftLeft_eq, Nat.size_shiftLeft h]

/-! ## Division (41_mpi_arith.md R133) -/

theorem tquo_eq_tdiv (a b : Int) : tquo a b = a.tdiv b := by
  have h := Int.sign_mul_natAbs
  unfold tquo
  rcases Int.lt_trichotomy a 0 with ha | ha | ha <;> rcases Int.lt_trichotomy b 0 with hb | hb | hb <;>
    first
      | (subst ha; simp)
      | (subst hb; simp)
      | (obtain ⟨m, rfl | rfl⟩ := Int.eq_nat_or_neg a <;> obtain ⟨n, rfl | rfl⟩ := Int.eq_nat_or_neg b <;>
          first
            | omega
            | simp_all [Int.sign_eq_one_of_pos, Int.sign_eq_neg_one_of_neg])

theorem trem_eq_tmod (a b : Int) : trem a b = a.tmod b := by
  rw [trem, tquo_eq_tdiv, Int.tmod_def, mul_comm]

theorem nmod_eq_emod (a b : Int) : nmod a b = a % b := by
  rcases Int.natAbs_eq b with h | h
  · rw [nmod, ← h]
  · rw [nmod, h, Int.natAbs_neg, Int.emod_neg, Int.natAbs_natCast]

theorem nmod_nonneg {b : Int} (a : Int) (h : b ≠ 0) : 0 ≤ nmod a b := nmod_eq_emod a b ▸ Int.emod_nonneg a h

theorem nmod_lt {b : Int} (a : Int) (h : b ≠ 0) : nmod a b < b.natAbs := by
  rw [nmod_eq_emod]
  exact Int.emod_lt a h

/-- A reduction is no larger than its modulus, so it fits where the modulus does. -/
theorem nmod_natAbs_lt {b : Int} (a : Int) (h : b ≠ 0) : (nmod a b).natAbs < b.natAbs := by
  have := nmod_nonneg a h
  have := nmod_lt a h
  omega

theorem tquo_natAbs_le (a b : Int) : (tquo a b).natAbs ≤ a.natAbs := by
  rw [tquo_eq_tdiv, Int.natAbs_tdiv]
  exact Nat.div_le_self _ _

theorem trem_natAbs_le (a b : Int) : (trem a b).natAbs ≤ a.natAbs := by
  rw [trem_eq_tmod, Int.natAbs_tmod]
  exact Nat.mod_le _ _

/-! ## Inverses (00_scope.md R12, 41_mpi_arith.md R136) -/

theorem euclid_lt {n : Nat} (hn : 0 < n) : ∀ fuel r0 r1 t0 t1, t0 < n → t1 < n → euclid n fuel r0 r1 t0 t1 < n
  | 0, _, _, _, _, h0, _ => h0
  | fuel + 1, r0, r1, t0, t1, h0, h1 => by
    unfold euclid
    split
    · exact h0
    · exact euclid_lt hn fuel _ _ _ _ h1 (Nat.mod_lt _ hn)

/-- Euclid's algorithm keeps `t ≡ r / a` for both rows, so it ends at the cofactor of the gcd. -/
theorem euclid_cofactor {n : Nat} (hn : 0 < n) (a : Nat) : ∀ fuel r0 r1 t0 t1, r1 < fuel →
    (t0 * a) % n = r0 % n → (t1 * a) % n = r1 % n → (euclid n fuel r0 r1 t0 t1 * a) % n = Nat.gcd r0 r1 % n
  | 0, _, _, _, _, h, _, _ => absurd h (Nat.not_lt_zero _)
  | fuel + 1, r0, r1, t0, t1, hf, h0, h1 => by
    unfold euclid
    split
    · rename_i hr
      subst hr
      simpa using h0
    · rename_i hr
      have hlt : r0 % r1 < r1 := Nat.mod_lt _ (Nat.pos_of_ne_zero hr)
      rw [euclid_cofactor hn a fuel r1 (r0 % r1) t1 _ (by omega) h1 ?_, Nat.gcd_comm r1, ← Nat.gcd_rec, Nat.gcd_comm]
      have hq : r0 / r1 * t1 % n ≤ n := (Nat.mod_lt _ hn).le
      have e0 : ((t0 : ZMod n) * a) = r0 := by
        have := (ZMod.natCast_eq_natCast_iff' _ _ n).2 h0
        push_cast at this
        exact this
      have e1 : ((t1 : ZMod n) * a) = r1 := by
        have := (ZMod.natCast_eq_natCast_iff' _ _ n).2 h1
        push_cast at this
        exact this
      have er : (r0 : ZMod n) = r1 * (r0 / r1 : Nat) + (r0 % r1 : Nat) := by
        exact_mod_cast congrArg (Nat.cast : Nat → ZMod n) (Nat.div_add_mod r0 r1).symm
      apply (ZMod.natCast_eq_natCast_iff' _ _ n).1
      push_cast [Nat.cast_sub hq]
      push_cast [Nat.cast_sub hq, ZMod.natCast_mod]
      have e1' : (r0 / r1 : Nat) * (t1 : ZMod n) * a = (r0 / r1 : Nat) * r1 := by rw [mul_assoc, e1]
      rw [ZMod.natCast_self]
      linear_combination e0 - e1' + er

/-- `inv(a, n)` is canonical. -/
theorem invMod_lt {n : Nat} (hn : 0 < n) (a : Nat) : invMod a n < n := euclid_lt hn _ _ _ _ _ hn (Nat.mod_lt _ hn)

/-- `inv(a, n)` is the inverse, for coprime operands; at `n = 1` everything is congruent to 1. -/
theorem invMod_spec {a n : Nat} (hn : 0 < n) (h : Nat.gcd a n = 1) : a * invMod a n % n = 1 % n := by
  have hg : Nat.gcd n (a % n) = 1 := by rw [Nat.gcd_comm, ← Nat.gcd_rec, Nat.gcd_comm, h]
  have := euclid_cofactor hn a (n + 1) n (a % n) 0 (1 % n) (by have := Nat.mod_lt a hn; omega) (by simp)
    (by rw [Nat.mod_mul_mod, one_mul, Nat.mod_mod])
  rw [hg] at this
  rw [mul_comm]
  exact this

theorem invMod_one (a : Nat) : invMod a 1 = 0 := Nat.lt_one_iff.1 (invMod_lt Nat.one_pos a)

/-- `inv(a, n)` is the only canonical inverse. -/
theorem invMod_unique {a n x : Nat} (hn : 0 < n) (h : Nat.gcd a n = 1) (hx : x < n) (hax : a * x % n = 1 % n) :
    x = invMod a n := by
  have hs := invMod_spec hn h
  have hm : a * x ≡ a * invMod a n [MOD n] := hax.trans hs.symm
  have hc : x ≡ invMod a n [MOD n] := Nat.ModEq.cancel_left_of_coprime (by rwa [Nat.gcd_comm]) hm
  rw [Nat.ModEq, Nat.mod_eq_of_lt hx, Nat.mod_eq_of_lt (invMod_lt hn a)] at hc
  exact hc

/-! ## Shifts (41_mpi_arith.md R139, R140) -/

theorem shiftUp_eq (v : Int) (k : Nat) : shiftUp v k = v * 2 ^ k := by
  unfold shiftUp
  split
  · simp_all
  · rfl

theorem shiftDown_eq (v : Int) (k : Nat) : shiftDown v k = v.sign * ((v.natAbs / 2 ^ k : Nat) : Int) := by
  rw [shiftDown, Nat.shiftRight_eq_div_pow]

theorem shiftDown_natAbs_le (v : Int) (k : Nat) : (shiftDown v k).natAbs ≤ v.natAbs := by
  rw [shiftDown_eq, Int.natAbs_mul, Int.natAbs_natCast]
  rcases eq_or_ne v 0 with rfl | h
  · simp
  · rw [Int.natAbs_sign_of_ne_zero h, one_mul]
    exact Nat.div_le_self _ _

theorem capacity_eq (c : Config.Params) : c.capacity = 2 ^ c.capacityBits := by
  rw [Config.Params.capacity, Config.Params.capacityBits, pow_mul]

/-- What every engine's registers hold, whatever its parameters: 260 bits (00_scope.md R5, `NLIMB >= 10`). -/
theorem capacity_ge (c : Config.Params) : 2 ^ 260 ≤ c.capacity := by
  rw [capacity_eq]
  apply Nat.pow_le_pow_right (by decide)
  have := c.nlimb_low
  simp only [Config.Params.capacityBits, Config.limbBits]
  omega

/-- The capacity check made on the bit length is the check on the value (41_mpi_arith.md R139, corner cases). -/
theorem writeShiftedUp_eq (md : MReg) (v : Int) (k : Nat) (c : Config.Params) (e : Engine) :
    writeShiftedUp md v k c e = writeM md (v * 2 ^ k) c e := by
  unfold writeShiftedUp
  split
  · rename_i h
    have hv : v.natAbs ≠ 0 := by simpa using h.1
    have hcap : c.capacity ≤ (v * 2 ^ k).natAbs := by
      rw [Int.natAbs_mul, Int.natAbs_pow, capacity_eq]
      have := bitlen_shift hv k
      exact lt_bitlen_iff.1 (by simpa [this] using h.2)
    rw [writeM, if_pos hcap]
  · rw [shiftUp_eq]

/-! ## Byte lists (20_memory.md R63) -/

theorem beValue_foldl (bs : List Byte) (acc : Nat) :
    bs.foldl (fun acc b => acc * 256 + b.toNat) acc = acc * 256 ^ bs.length + beValue bs := by
  unfold beValue
  induction bs generalizing acc with
  | nil => simp
  | cons b bs ih =>
    simp only [List.foldl_cons, List.length_cons]
    rw [ih, ih (0 * 256 + b.toNat)]
    ring

@[simp] theorem beValue_nil : beValue [] = 0 := rfl

theorem beValue_cons (b : Byte) (bs : List Byte) : beValue (b :: bs) = b.toNat * 256 ^ bs.length + beValue bs := by
  conv_lhs => rw [beValue]
  rw [List.foldl_cons, beValue_foldl]
  simp

theorem beValue_append (as bs : List Byte) : beValue (as ++ bs) = beValue as * 256 ^ bs.length + beValue bs := by
  conv_lhs => rw [beValue]
  rw [List.foldl_append, beValue_foldl]
  rfl

theorem beValue_concat (bs : List Byte) (b : Byte) : beValue (bs ++ [b]) = beValue bs * 256 + b.toNat := by
  rw [beValue_append]
  simp [beValue_cons]

theorem beValue_lt (bs : List Byte) : beValue bs < 256 ^ bs.length := by
  induction bs with
  | nil => simp
  | cons b bs ih =>
    rw [beValue_cons, List.length_cons, pow_succ]
    have := b.isLt
    nlinarith

@[simp] theorem beBytes_length (n v : Nat) : (beBytes n v).length = n := by
  induction n generalizing v with
  | zero => rfl
  | succ n ih => simp [beBytes, ih]

/-- The `n` low bytes stand for the value modulo `256^n`. -/
theorem beValue_beBytes (n v : Nat) : beValue (beBytes n v) = v % 256 ^ n := by
  induction n generalizing v with
  | zero => simp [beBytes, Nat.mod_one]
  | succ n ih =>
    rw [beBytes, beValue_concat, ih, BitVec.toNat_ofNat, pow_succ' 256, Nat.mod_mul, show (2 : Nat) ^ 8 = 256 from rfl]
    ring

/-- A byte list is determined by its value and its length. -/
theorem beBytes_beValue (bs : List Byte) : beBytes bs.length (beValue bs) = bs := by
  induction bs using List.reverseRecOn with
  | nil => rfl
  | append_singleton bs b ih =>
    have hb := b.isLt
    rw [beValue_concat, List.length_append, List.length_singleton, beBytes]
    have h1 : (beValue bs * 256 + b.toNat) / 256 = beValue bs := by omega
    rw [h1, ih]
    congr 2
    apply BitVec.eq_of_toNat_eq
    rw [BitVec.toNat_ofNat]
    omega

/-- The sum that 20_memory.md R63 writes. -/
theorem beValue_eq_sum (bs : List Byte) :
    beValue bs = ∑ k ∈ Finset.range bs.length, (bs.getD k 0).toNat * 256 ^ (bs.length - 1 - k) := by
  induction bs with
  | nil => rfl
  | cons b bs ih =>
    rw [beValue_cons, ih, List.length_cons, Finset.sum_range_succ', add_comm]
    congr 1
    apply Finset.sum_congr rfl
    intro k hk
    have := Finset.mem_range.1 hk
    rw [List.getD_cons_succ, show bs.length + 1 - 1 - (k + 1) = bs.length - 1 - k by omega]

theorem lt_pow_byteLen (m : Nat) : m < 256 ^ byteLen m := by
  have h := lt_two_pow_bitlen m
  have : (256 : Nat) ^ byteLen m = 2 ^ (8 * byteLen m) := by rw [pow_mul]; norm_num
  rw [this]
  exact lt_of_lt_of_le h (Nat.pow_le_pow_right (by norm_num) (by unfold byteLen; omega))

@[simp] theorem unsignedBytes_length (m : Nat) : (unsignedBytes m).length = byteLen m := beBytes_length _ _

/-- The bytes of a magnitude stand for it (43_mpi_convert.md R171). -/
@[simp] theorem beValue_unsignedBytes (m : Nat) : beValue (unsignedBytes m) = m := by
  rw [unsignedBytes, beValue_beBytes, Nat.mod_eq_of_lt (lt_pow_byteLen m)]

theorem byteLen_zero : byteLen 0 = 0 := rfl

theorem byteLen_pos {m : Nat} (h : m ≠ 0) : 0 < byteLen m := by
  have := bitlen_pos h
  unfold byteLen
  omega

/-- `k` bytes are too few below the byte length. -/
theorem pow_le_of_lt_byteLen {m k : Nat} (h : k < byteLen m) : 256 ^ k ≤ m := by
  have : (256 : Nat) ^ k = 2 ^ (8 * k) := by rw [pow_mul]; norm_num
  rw [this]
  exact lt_bitlen_iff.1 (by unfold byteLen at h; omega)

/-- No leading zero byte (43_mpi_convert.md R171). -/
theorem unsignedBytes_head {m : Nat} {b : Byte} {bs : List Byte} (h : unsignedBytes m = b :: bs) : b ≠ 0 := by
  rintro rfl
  have hl : bs.length + 1 = byteLen m := by rw [← unsignedBytes_length, h, List.length_cons]
  have hv : beValue bs = m := by
    rw [← beValue_unsignedBytes m, h, beValue_cons]
    simp
  have := pow_le_of_lt_byteLen (m := m) (k := bs.length) (by omega)
  have := beValue_lt bs
  omega

/-- The only byte list of a value without a leading zero byte is `unsignedBytes`. -/
theorem unsignedBytes_unique {m : Nat} {bs : List Byte} (hv : beValue bs = m) (hh : ∀ b ∈ bs.head?, b ≠ 0) :
    unsignedBytes m = bs := by
  have hlen : bs.length = byteLen m := by
    apply le_antisymm
    · by_contra hlt
      cases bs with
      | nil => simp at hlt
      | cons b rest =>
        have hb : b ≠ 0 := hh b (by simp)
        have hb1 : 1 ≤ b.toNat := by
          rcases Nat.eq_zero_or_pos b.toNat with h0 | h0
          · exact absurd (BitVec.eq_of_toNat_eq (by simpa using h0)) hb
          · exact h0
        rw [beValue_cons] at hv
        simp only [List.length_cons, not_le] at hlt
        have h1 := lt_pow_byteLen m
        have h2 : 256 ^ byteLen m ≤ 256 ^ rest.length := Nat.pow_le_pow_right (by norm_num) (by omega)
        nlinarith
    · by_contra hlt
      have h1 := pow_le_of_lt_byteLen (m := m) (k := bs.length) (by omega)
      have h2 := beValue_lt bs
      omega
  rw [unsignedBytes, ← hlen, ← hv, beBytes_beValue]

/-! ## Signed byte lists (43_mpi_convert.md R172, R173) -/

/-- `FROMBS` of what `TOBS` writes (43_mpi_convert.md R174). -/
theorem signedValue_signedBytes (v : Int) : signedValue (signedBytes v) = v := by
  unfold signedBytes
  split
  · rename_i h
    have : beValue (unsignedBytes v.natAbs) = 0 := by rw [h, beValue_nil]
    rw [beValue_unsignedBytes] at this
    simp [signedValue]
    omega
  · rename_i b bs h
    have hv : b.toNat * 256 ^ bs.length + beValue bs = v.natAbs := by
      rw [← beValue_cons, ← h, beValue_unsignedBytes]
    have hb := b.isLt
    have hb0 : b.toNat ≠ 0 := by
      intro h0
      exact unsignedBytes_head h (BitVec.eq_of_toNat_eq (by simpa using h0))
    split <;> split
    · rename_i h1 h2
      simp only [signedValue]
      rw [if_neg (by omega), beValue_cons, BitVec.toNat_ofNat, Nat.mod_eq_of_lt (a := b.toNat % 128) (by omega),
        Nat.mod_eq_of_lt h2, hv]
      omega
    · rename_i h1 h2
      simp only [signedValue]
      rw [if_neg (by simp), beValue_cons, show (BitVec.ofNat 8 ((0x00 : Byte).toNat % 128)).toNat = 0 from rfl, zero_mul,
        zero_add, beValue_cons, hv]
      omega
    · rename_i h1 h2
      have e : (b + 0x80).toNat = b.toNat + 128 := by
        rw [BitVec.toNat_add]
        simp
        omega
      simp only [signedValue]
      rw [if_pos (by omega), beValue_cons, BitVec.toNat_ofNat, e,
        show (b.toNat + 128) % 128 % 2 ^ 8 = b.toNat by omega, hv]
      omega
    · rename_i h1 h2
      simp only [signedValue]
      rw [if_pos (by simp), beValue_cons, show (BitVec.ofNat 8 ((0x80 : Byte).toNat % 128)).toNat = 0 from rfl, zero_mul,
        zero_add, beValue_cons, hv]
      omega

/-! ## Digits (43_mpi_convert.md R175 to R177) -/

theorem digitVal_digitChar {x : Nat} (h : x < 36) : digitVal (digitChar x) = some x := by
  have : ∀ y : Fin 36, digitVal (digitChar y.val) = some y.val := by decide
  exact this ⟨x, h⟩

theorem digitOf_digitChar {r x : Nat} (hr : r ≤ 36) (h : x < r) : digitOf r (digitChar x) = some x := by
  rw [digitOf, digitVal_digitChar (by omega)]
  simp [h]

theorem digitChar_ne_minus {x : Nat} (h : x < 36) : digitChar x ≠ minusSign := by
  have : ∀ y : Fin 36, digitChar y.val ≠ minusSign := by decide
  exact this ⟨x, h⟩

/-- The digit loop in terms of Mathlib's digits. -/
theorem digitsOnto_eq {r : Nat} (hr : 2 ≤ r) : ∀ fuel m ds, m < 2 ^ fuel →
    digitsOnto r fuel m ds = ((Nat.digits r m).map digitChar).reverse ++ ds
  | 0, m, ds, h => by
    have : m = 0 := by simpa using h
    subst this
    simp [digitsOnto]
  | fuel + 1, m, ds, h => by
    unfold digitsOnto
    split
    · rename_i h0
      subst h0
      simp
    · rename_i h0
      have hd : m / r < 2 ^ fuel := by
        apply Nat.div_lt_of_lt_mul
        rw [pow_succ] at h
        nlinarith [Nat.pow_pos (n := fuel) (show 0 < 2 by norm_num)]
      rw [digitsOnto_eq hr fuel _ _ hd, Nat.digits_def' (by omega) (Nat.pos_of_ne_zero h0)]
      simp

/-- The digit string of a magnitude: its digits, most significant first. -/
theorem digitsOnto_bitlen {r : Nat} (hr : 2 ≤ r) (m : Nat) :
    digitsOnto r (bitlen m) m [] = ((Nat.digits r m).map digitChar).reverse := by
  rw [digitsOnto_eq hr _ _ _ (lt_two_pow_bitlen m), List.append_nil]

/-- Reading digits continues from an accumulator. -/
theorem digitsValue_append (r : Nat) (as bs : List Byte) (acc : Nat) :
    digitsValue r (as ++ bs) acc = (digitsValue r as acc).bind (digitsValue r bs) := by
  induction as generalizing acc with
  | nil => rfl
  | cons a as ih =>
    simp only [List.cons_append, digitsValue]
    split
    · exact ih _
    · rfl

/-- Reading back a list of digits, least significant first, printed most significant first. -/
theorem digitsValue_digits {r : Nat} (hr : r ≤ 36) (xs : List Nat) (hx : ∀ x ∈ xs, x < r) (acc : Nat) :
    digitsValue r (xs.map digitChar).reverse acc = some (acc * r ^ xs.length + Nat.ofDigits r xs) := by
  induction xs generalizing acc with
  | nil => simp [digitsValue]
  | cons x xs ih =>
    simp only [List.map_cons, List.reverse_cons]
    rw [digitsValue_append, ih (fun y hy => hx y (by simp [hy]))]
    simp only [Option.bind_some, digitsValue, digitOf_digitChar hr (hx x (by simp))]
    rw [Nat.ofDigits_cons, List.length_cons]
    congr 1
    ring

/-- PARSE's digit loop on TOSTR's digits gives the magnitude (43_mpi_convert.md R179). -/
theorem digitsValue_digitsOnto {r : Nat} (hr : 2 ≤ r) (hr' : r ≤ 36) (m : Nat) :
    digitsValue r (digitsOnto r (bitlen m) m []) 0 = some m := by
  rw [digitsOnto_bitlen hr, digitsValue_digits hr' _ (fun x hx => Nat.digits_lt_base (by omega) hx), zero_mul, zero_add,
    Nat.ofDigits_digits]

/-- A positive magnitude has at least one digit. -/
theorem digitsOnto_ne_nil {r m : Nat} (hr : 2 ≤ r) (hm : m ≠ 0) : digitsOnto r (bitlen m) m [] ≠ [] := by
  rw [digitsOnto_bitlen hr]
  simpa using Nat.digits_ne_nil_iff_ne_zero.2 hm

/-- No digit is a minus sign. -/
theorem minus_notMem_digitsOnto {r : Nat} (hr : 2 ≤ r) (hr' : r ≤ 36) (m : Nat) :
    minusSign ∉ digitsOnto r (bitlen m) m [] := by
  rw [digitsOnto_bitlen hr]
  simp only [List.mem_reverse, List.mem_map, not_exists, not_and]
  intro x hx
  exact digitChar_ne_minus (lt_of_lt_of_le (Nat.digits_lt_base (by omega) hx) hr')

end Sys2Proof.Machine
end

