-- ==== Sys2Proof/Laws/Prime.lean ====
section
/-! SUPPORT. `ROM.p` is prime (10_state.md R30 calls it "prime modulus p"), by Lucas' test down a tree of factorizations of
`q - 1`. -/

namespace Sys2Proof.Laws.Prime

/-- `acc * b^e` modulo `n` by squaring; `fuel` bounds the bits of `e`. -/
def powMod (n : Nat) : Nat → Nat → Nat → Nat → Nat
  | 0, _, _, acc => acc
  | fuel + 1, b, e, acc => powMod n fuel (b * b % n) (e / 2) (if e % 2 = 1 then acc * b % n else acc)

theorem powMod_eq (n : Nat) : ∀ fuel b e acc, e < 2 ^ fuel → ((powMod n fuel b e acc : Nat) : ZMod n) = acc * b ^ e
  | 0, b, e, acc, h => by
    have : e = 0 := by simpa using h
    simp [powMod, this]
  | fuel + 1, b, e, acc, h => by
    have hlt : e / 2 < 2 ^ fuel := by
      rw [pow_succ] at h
      omega
    rw [powMod, powMod_eq n fuel _ _ _ hlt, ZMod.natCast_mod]
    push_cast
    rw [← sq, ← pow_mul]
    split
    · rename_i h1
      conv_rhs => rw [← Nat.div_add_mod e 2, h1]
      rw [ZMod.natCast_mod]
      push_cast
      ring
    · rename_i h1
      conv_rhs => rw [← Nat.div_add_mod e 2, show e % 2 = 0 by omega]
      simp

/-- Lucas' test with the prime factors of `n - 1`, with repeats, in a list; every power is computed. -/
theorem prime_of_powers {n a bits : Nat} (ps : List Nat) (hn : 1 < n) (hb : n - 1 < 2 ^ bits)
    (hprod : ps.prod = n - 1) (hprime : ∀ q ∈ ps, q.Prime) (hone : powMod n bits a (n - 1) 1 = 1)
    (hne : ps.all (fun q => powMod n bits a ((n - 1) / q) 1 % n != 1) = true) : n.Prime := by
  apply lucas_primality n (a : ZMod n)
  · have := powMod_eq n bits a (n - 1) 1 hb
    rw [hone] at this
    simpa using this.symm
  · intro q hq hdvd
    rw [← hprod] at hdvd
    obtain ⟨r, hr, hqr⟩ := hq.prime.dvd_prod_iff.1 hdvd
    rw [(Nat.prime_dvd_prime_iff_eq hq (hprime r hr)).1 hqr]
    have h1 := powMod_eq n bits a ((n - 1) / r) 1 (lt_of_le_of_lt (Nat.div_le_self _ _) hb)
    have h2 := List.all_eq_true.1 hne r hr
    intro hc
    rw [Nat.cast_one, one_mul, hc] at h1
    have h3 := (ZMod.natCast_eq_natCast_iff' (powMod n bits a ((n - 1) / r) 1) 1 n).1 (by simpa using h1)
    rw [Nat.mod_eq_of_lt hn] at h3
    simp [h3] at h2

theorem prime_173378833005251801 : Nat.Prime 173378833005251801 :=
  prime_of_powers (a := 6) (bits := 60) [2, 2, 2, 5, 5, 2621, 24809, 13331831] (by norm_num) (by norm_num) (by norm_num)
    (by simp only [List.forall_mem_cons, List.not_mem_nil, false_imp_iff, implies_true, and_true]; norm_num)
    (by decide +kernel) (by decide +kernel)

theorem prime_22149492674086928081353 : Nat.Prime 22149492674086928081353 :=
  prime_of_powers (a := 5) (bits := 75) [2, 2, 2, 3, 5323, 173378833005251801] (by norm_num) (by norm_num) (by norm_num)
    (by
      simp only [List.forall_mem_cons, List.not_mem_nil, false_imp_iff, implies_true, and_true]
      exact ⟨by norm_num, by norm_num, by norm_num, by norm_num, by norm_num, prime_173378833005251801⟩)
    (by decide +kernel) (by decide +kernel)

theorem prime_132896956044521568488119 : Nat.Prime 132896956044521568488119 :=
  prime_of_powers (a := 6) (bits := 80) [2, 3, 22149492674086928081353] (by norm_num) (by norm_num) (by norm_num)
    (by
      simp only [List.forall_mem_cons, List.not_mem_nil, false_imp_iff, implies_true, and_true]
      exact ⟨by norm_num, by norm_num, prime_22149492674086928081353⟩)
    (by decide +kernel) (by decide +kernel)

theorem prime_255515944373312847190720520512484175977 : Nat.Prime 255515944373312847190720520512484175977 :=
  prime_of_powers (a := 3) (bits := 128) [2, 2, 2, 7, 7, 11, 1627, 2657, 4423, 41201, 96557, 7240687, 107590001]
    (by norm_num) (by norm_num) (by norm_num)
    (by simp only [List.forall_mem_cons, List.not_mem_nil, false_imp_iff, implies_true, and_true]; norm_num)
    (by decide +kernel) (by decide +kernel)

theorem prime_cofactor : Nat.Prime 205115282021455665897114700593932402728804164701536103180137503955397371 :=
  prime_of_powers (a := 10) (bits := 240)
    [2, 3, 5, 29, 29, 31, 7723, 132896956044521568488119, 255515944373312847190720520512484175977]
    (by norm_num) (by norm_num) (by norm_num)
    (by
      simp only [List.forall_mem_cons, List.not_mem_nil, false_imp_iff, implies_true, and_true]
      exact ⟨by norm_num, by norm_num, by norm_num, by norm_num, by norm_num, by norm_num, by norm_num,
        prime_132896956044521568488119, prime_255515944373312847190720520512484175977⟩)
    (by decide +kernel) (by decide +kernel)

/-- `ROM.p` is prime. -/
theorem prime_p : Nat.Prime Machine.Rom.p :=
  prime_of_powers (a := 3) (bits := 256)
    [2, 3, 7, 13441, 205115282021455665897114700593932402728804164701536103180137503955397371]
    (by norm_num [Machine.Rom.p]) (by norm_num [Machine.Rom.p]) (by norm_num [Machine.Rom.p])
    (by
      simp only [List.forall_mem_cons, List.not_mem_nil, false_imp_iff, implies_true, and_true]
      exact ⟨by norm_num, by norm_num, by norm_num, by norm_num, prime_cofactor⟩)
    (by decide +kernel) (by decide +kernel)

end Sys2Proof.Laws.Prime
end

