-- ==== Sys2Proof/Laws/Curve.lean ====
section
/-! SUPPORT. Arithmetic modulo `ROM.p` seen in the field `ZMod ROM.p`, and that the point functions give canonical
coordinates. -/

namespace Sys2Proof.Machine

open Sys2Proof.Safety

theorem p_pos : 0 < Rom.p := by decide +kernel

/-- `ROM.p` is prime, as the field of Mathlib wants to hear it. -/
theorem fact_p : Fact (Nat.Prime Rom.p) := ⟨Laws.Prime.prime_p⟩

theorem modP_lt (v : Int) : modP v < Rom.p := by
  have h1 := Int.emod_nonneg v (b := (Rom.p : Int)) (by have := p_pos; omega)
  have h2 := Int.emod_lt_of_pos v (b := (Rom.p : Int)) (by have := p_pos; omega)
  unfold modP
  omega

theorem natCast_modP (v : Int) : ((modP v : Nat) : Int) = v % (Rom.p : Int) := by
  have := Int.emod_nonneg v (b := (Rom.p : Int)) (by have := p_pos; omega)
  unfold modP
  omega

/-- A canonical value is its own residue. -/
theorem modP_of_lt {x : Nat} (h : x < Rom.p) : modP (x : Int) = x := by
  unfold modP
  rw [Int.emod_eq_of_lt (by omega) (by exact_mod_cast h), Int.toNat_natCast]

/-- `modP` is reduction: in the field it is the cast. -/
@[simp] theorem cast_modP (v : Int) : ((modP v : Nat) : ZMod Rom.p) = (v : ZMod Rom.p) := by
  have h := congrArg (Int.cast : Int → ZMod Rom.p) (natCast_modP v)
  rw [ZMod.intCast_mod] at h
  exact_mod_cast h

/-- Canonical values are equal when they are equal in the field. -/
theorem eq_of_cast_eq {x y : Nat} (hx : x < Rom.p) (hy : y < Rom.p) (h : (x : ZMod Rom.p) = y) : x = y := by
  have := (ZMod.natCast_eq_natCast_iff' x y Rom.p).1 h
  rwa [Nat.mod_eq_of_lt hx, Nat.mod_eq_of_lt hy] at this

theorem invP_lt (t : Int) : invP t < Rom.p := invMod_lt p_pos _

/-- `inv(t)` is the inverse in the field, 0 for 0. -/
theorem cast_invP [Fact (Nat.Prime Rom.p)] (t : Int) : ((invP t : Nat) : ZMod Rom.p) = (t : ZMod Rom.p)⁻¹ := by
  by_cases h : (t : ZMod Rom.p) = 0
  · have h0 : modP t = 0 := by
      apply eq_of_cast_eq (modP_lt t) p_pos
      rw [cast_modP, h, Nat.cast_zero]
    have hz : invMod 0 Rom.p = 0 := by decide +kernel
    rw [invP, h0, hz, h, inv_zero, Nat.cast_zero]
  · have hc : Nat.gcd (modP t) Rom.p = 1 := by
      rw [Nat.gcd_comm]
      apply (Nat.Prime.coprime_iff_not_dvd (Fact.out : Nat.Prime Rom.p)).2
      intro hd
      apply h
      rw [← cast_modP, (ZMod.natCast_eq_zero_iff _ _).2 hd]
    have hs := (ZMod.natCast_eq_natCast_iff' _ _ Rom.p).2 (invMod_spec p_pos hc)
    push_cast [cast_modP] at hs
    rw [invP]
    exact eq_inv_of_mul_eq_one_right hs

/-! ## Canonical results (45_point_arith.md R200) -/

theorem canonical_chord (lam x1 y1 x2 : Nat) : CanonicalPoint (chordPoint lam x1 y1 x2) := ⟨modP_lt _, modP_lt _⟩

theorem canonical_neg {A : Point} (h : CanonicalPoint A) : CanonicalPoint (negPoint A) := by
  cases A with
  | inf => trivial
  | aff x y => exact ⟨h.1, modP_lt _⟩

theorem canonical_pdbl (A : Point) : CanonicalPoint (pdbl A) := by
  unfold pdbl
  split
  · trivial
  · split
    · trivial
    · exact canonical_chord _ _ _ _

theorem canonical_padd {A B : Point} (hA : CanonicalPoint A) (hB : CanonicalPoint B) : CanonicalPoint (padd A B) := by
  unfold padd
  split
  · exact hB
  · exact hA
  · split
    · exact canonical_pdbl _
    · split
      · trivial
      · exact canonical_chord _ _ _ _

theorem canonical_pmulScan {A N : Point} (hA : CanonicalPoint A) (hN : CanonicalPoint N) (h k : Nat) :
    ∀ i R, CanonicalPoint R → CanonicalPoint (pmulScan A N h k i R)
  | 0, _, hR => hR
  | i + 1, R, _ => by
    unfold pmulScan
    apply canonical_pmulScan hA hN
    split
    · exact canonical_pdbl R
    · apply canonical_padd (canonical_pdbl R)
      split
      · exact hA
      · exact hN

theorem canonical_pmul {A : Point} (hA : CanonicalPoint A) (k : Nat) : CanonicalPoint (pmul A k) := by
  unfold pmul
  split
  · trivial
  · exact canonical_pmulScan hA (canonical_neg hA) _ _ _ _ hA

theorem canonical_pmul2Scan {A Q B : Point} (hA : CanonicalPoint A) (hQ : CanonicalPoint Q) (hB : CanonicalPoint B)
    (j k : Nat) : ∀ i R, CanonicalPoint R → CanonicalPoint (pmul2Scan A Q B j k i R)
  | 0, _, hR => hR
  | i + 1, R, _ => by
    unfold pmul2Scan
    apply canonical_pmul2Scan hA hQ hB
    have hD := canonical_pdbl R
    split_ifs
    · exact canonical_padd hD hB
    · exact canonical_padd hD hA
    · exact canonical_padd hD hQ
    · exact hD

theorem canonical_pmul2 {A Q : Point} (hA : CanonicalPoint A) (hQ : CanonicalPoint Q) (j k : Nat) :
    CanonicalPoint (pmul2 A j Q k) :=
  canonical_pmul2Scan hA hQ (canonical_padd hA hQ) j k _ _ trivial

theorem canonical_generator : CanonicalPoint generator := by
  constructor <;> decide +kernel

end Sys2Proof.Machine
end

