-- ==== Sys2Proof/Laws/Decode.lean ====
section
/-! SUPPORT. The field layout loses nothing in either direction, and what the checks of a row say. -/

namespace Sys2Proof

/-- The fields of a word put together again are the word (30_encoding.md R81: the fields cover all 64 bits). -/
@[simp] theorem word_fieldsOf (w : CmdWord) : (fieldsOf w).word = w := by
  apply BitVec.eq_of_getLsbD_eq
  intro i hi
  simp only [fieldsOf, Fields.word, BitVec.getLsbD_append, BitVec.getLsbD_extractLsb']
  split_ifs <;>
    (simp (disch := omega) only [decide_eq_true, Bool.true_and]
     congr 1
     omega)

/-- The fields of the word of some fields are those fields. -/
@[simp] theorem fieldsOf_word (f : Fields) : fieldsOf f.word = f := by
  obtain ⟨op, r0, r1, r2, r3, aux, low⟩ := f
  simp only [fieldsOf, Fields.word, Fields.mk.injEq]
  refine ⟨?_, ?_, ?_, ?_, ?_, ?_, ?_⟩ <;>
    (apply BitVec.eq_of_getLsbD_eq
     intro i hi
     simp only [BitVec.getLsbD_append, BitVec.getLsbD_extractLsb']
     split_ifs <;> first
       | omega
       | (simp only [hi, decide_true, Bool.true_and]
          congr 1
          omega))

end Sys2Proof
end

