-- ==== Sys2Proof/Laws/State.lean ====
section
/-! SUPPORT. One lemma per field per update of Engine and of State, and what a register read sees of each update. -/

namespace Sys2Proof.Machine

namespace Engine

variable (e : Engine)

/-! ### setM -/

@[simp] theorem setM_m (i : MReg) (v : Int) : (e.setM i v).m = e.m.set i.val v := rfl
@[simp] theorem setM_p (i : MReg) (v : Int) : (e.setM i v).p = e.p := rfl
@[simp] theorem setM_buf (i : MReg) (v : Int) : (e.setM i v).buf = e.buf := rfl
@[simp] theorem setM_epoch (i : MReg) (v : Int) : (e.setM i v).epoch = e.epoch := rfl
@[simp] theorem setM_status (i : MReg) (v : Int) : (e.setM i v).status = e.status := rfl
@[simp] theorem setM_errcode (i : MReg) (v : Int) : (e.setM i v).errcode = e.errcode := rfl
@[simp] theorem setM_errinfo (i : MReg) (v : Int) : (e.setM i v).errinfo = e.errinfo := rfl
@[simp] theorem setM_errseq (i : MReg) (v : Int) : (e.setM i v).errseq = e.errseq := rfl
@[simp] theorem setM_res (i : MReg) (v : Int) : (e.setM i v).res = e.res := rfl
@[simp] theorem setM_cseq (i : MReg) (v : Int) : (e.setM i v).cseq = e.cseq := rfl
@[simp] theorem setM_curveid (i : MReg) (v : Int) : (e.setM i v).curveid = e.curveid := rfl
@[simp] theorem setM_readP (i : MReg) (v : Int) (j : PReg) : (e.setM i v).readP j = e.readP j := rfl
@[simp] theorem setM_readByte (i : MReg) (v : Int) (x : Nat) : (e.setM i v).readByte x = e.readByte x := rfl
@[simp] theorem setM_inFault (i : MReg) (v : Int) : (e.setM i v).inFault = e.inFault := rfl

/-! ### writeP -/

@[simp] theorem writeP_m (i : PReg) (v : Point) : (e.writeP i v).m = e.m := rfl
@[simp] theorem writeP_p (i : PReg) (v : Point) : (e.writeP i v).p = e.p.set i.val v := rfl
@[simp] theorem writeP_buf (i : PReg) (v : Point) : (e.writeP i v).buf = e.buf := rfl
@[simp] theorem writeP_epoch (i : PReg) (v : Point) : (e.writeP i v).epoch = e.epoch := rfl
@[simp] theorem writeP_status (i : PReg) (v : Point) : (e.writeP i v).status = e.status := rfl
@[simp] theorem writeP_errcode (i : PReg) (v : Point) : (e.writeP i v).errcode = e.errcode := rfl
@[simp] theorem writeP_errinfo (i : PReg) (v : Point) : (e.writeP i v).errinfo = e.errinfo := rfl
@[simp] theorem writeP_errseq (i : PReg) (v : Point) : (e.writeP i v).errseq = e.errseq := rfl
@[simp] theorem writeP_res (i : PReg) (v : Point) : (e.writeP i v).res = e.res := rfl
@[simp] theorem writeP_cseq (i : PReg) (v : Point) : (e.writeP i v).cseq = e.cseq := rfl
@[simp] theorem writeP_curveid (i : PReg) (v : Point) : (e.writeP i v).curveid = e.curveid := rfl
@[simp] theorem writeP_readM (i : PReg) (v : Point) (j : MReg) : (e.writeP i v).readM j = e.readM j := rfl
@[simp] theorem writeP_readByte (i : PReg) (v : Point) (x : Nat) : (e.writeP i v).readByte x = e.readByte x := rfl
@[simp] theorem writeP_inFault (i : PReg) (v : Point) : (e.writeP i v).inFault = e.inFault := rfl

/-! ### writeRes -/

@[simp] theorem writeRes_m (v : Word) : (e.writeRes v).m = e.m := rfl
@[simp] theorem writeRes_p (v : Word) : (e.writeRes v).p = e.p := rfl
@[simp] theorem writeRes_buf (v : Word) : (e.writeRes v).buf = e.buf := rfl
@[simp] theorem writeRes_epoch (v : Word) : (e.writeRes v).epoch = e.epoch := rfl
@[simp] theorem writeRes_status (v : Word) : (e.writeRes v).status = e.status := rfl
@[simp] theorem writeRes_errcode (v : Word) : (e.writeRes v).errcode = e.errcode := rfl
@[simp] theorem writeRes_errinfo (v : Word) : (e.writeRes v).errinfo = e.errinfo := rfl
@[simp] theorem writeRes_errseq (v : Word) : (e.writeRes v).errseq = e.errseq := rfl
@[simp] theorem writeRes_res (v : Word) : (e.writeRes v).res = v := rfl
@[simp] theorem writeRes_cseq (v : Word) : (e.writeRes v).cseq = e.cseq := rfl
@[simp] theorem writeRes_curveid (v : Word) : (e.writeRes v).curveid = e.curveid := rfl
@[simp] theorem writeRes_readM (v : Word) (i : MReg) : (e.writeRes v).readM i = e.readM i := rfl
@[simp] theorem writeRes_readP (v : Word) (j : PReg) : (e.writeRes v).readP j = e.readP j := rfl
@[simp] theorem writeRes_readByte (v : Word) (x : Nat) : (e.writeRes v).readByte x = e.readByte x := rfl
@[simp] theorem writeRes_inFault (v : Word) : (e.writeRes v).inFault = e.inFault := rfl

/-! ### writeByte -/

@[simp] theorem writeByte_m (a : Nat) (b : Byte) : (e.writeByte a b).m = e.m := rfl
@[simp] theorem writeByte_p (a : Nat) (b : Byte) : (e.writeByte a b).p = e.p := rfl
@[simp] theorem writeByte_buf (a : Nat) (b : Byte) : (e.writeByte a b).buf = e.buf.put a b := rfl
@[simp] theorem writeByte_epoch (a : Nat) (b : Byte) : (e.writeByte a b).epoch = e.epoch := rfl
@[simp] theorem writeByte_status (a : Nat) (b : Byte) : (e.writeByte a b).status = e.status := rfl
@[simp] theorem writeByte_errcode (a : Nat) (b : Byte) : (e.writeByte a b).errcode = e.errcode := rfl
@[simp] theorem writeByte_errinfo (a : Nat) (b : Byte) : (e.writeByte a b).errinfo = e.errinfo := rfl
@[simp] theorem writeByte_errseq (a : Nat) (b : Byte) : (e.writeByte a b).errseq = e.errseq := rfl
@[simp] theorem writeByte_res (a : Nat) (b : Byte) : (e.writeByte a b).res = e.res := rfl
@[simp] theorem writeByte_cseq (a : Nat) (b : Byte) : (e.writeByte a b).cseq = e.cseq := rfl
@[simp] theorem writeByte_curveid (a : Nat) (b : Byte) : (e.writeByte a b).curveid = e.curveid := rfl
@[simp] theorem writeByte_readM (a : Nat) (b : Byte) (i : MReg) : (e.writeByte a b).readM i = e.readM i := rfl
@[simp] theorem writeByte_readP (a : Nat) (b : Byte) (j : PReg) : (e.writeByte a b).readP j = e.readP j := rfl
@[simp] theorem writeByte_inFault (a : Nat) (b : Byte) : (e.writeByte a b).inFault = e.inFault := rfl

/-! ### countCommand -/

@[simp] theorem countCommand_m : (e.countCommand).m = e.m := rfl
@[simp] theorem countCommand_p : (e.countCommand).p = e.p := rfl
@[simp] theorem countCommand_buf : (e.countCommand).buf = e.buf := rfl
@[simp] theorem countCommand_epoch : (e.countCommand).epoch = e.epoch := rfl
@[simp] theorem countCommand_status : (e.countCommand).status = e.status := rfl
@[simp] theorem countCommand_errcode : (e.countCommand).errcode = e.errcode := rfl
@[simp] theorem countCommand_errinfo : (e.countCommand).errinfo = e.errinfo := rfl
@[simp] theorem countCommand_errseq : (e.countCommand).errseq = e.errseq := rfl
@[simp] theorem countCommand_res : (e.countCommand).res = e.res := rfl
@[simp] theorem countCommand_cseq : (e.countCommand).cseq = e.cseq + 1 := rfl
@[simp] theorem countCommand_curveid : (e.countCommand).curveid = e.curveid := rfl
@[simp] theorem countCommand_readM (i : MReg) : (e.countCommand).readM i = e.readM i := rfl
@[simp] theorem countCommand_readP (j : PReg) : (e.countCommand).readP j = e.readP j := rfl
@[simp] theorem countCommand_readByte (x : Nat) : (e.countCommand).readByte x = e.readByte x := rfl
@[simp] theorem countCommand_inFault : (e.countCommand).inFault = e.inFault := rfl

/-! ### clearError -/

@[simp] theorem clearError_m : (e.clearError).m = e.m := rfl
@[simp] theorem clearError_p : (e.clearError).p = e.p := rfl
@[simp] theorem clearError_buf : (e.clearError).buf = e.buf := rfl
@[simp] theorem clearError_epoch : (e.clearError).epoch = e.epoch := rfl
@[simp] theorem clearError_status : (e.clearError).status = clearFaultBit e.status := rfl
@[simp] theorem clearError_errcode : (e.clearError).errcode = 0 := rfl
@[simp] theorem clearError_errinfo : (e.clearError).errinfo = 0 := rfl
@[simp] theorem clearError_errseq : (e.clearError).errseq = 0 := rfl
@[simp] theorem clearError_res : (e.clearError).res = e.res := rfl
@[simp] theorem clearError_cseq : (e.clearError).cseq = e.cseq := rfl
@[simp] theorem clearError_curveid : (e.clearError).curveid = e.curveid := rfl
@[simp] theorem clearError_readM (i : MReg) : (e.clearError).readM i = e.readM i := rfl
@[simp] theorem clearError_readP (j : PReg) : (e.clearError).readP j = e.readP j := rfl
@[simp] theorem clearError_readByte (x : Nat) : (e.clearError).readByte x = e.readByte x := rfl

/-! ### takeError -/

@[simp] theorem takeError_m (r : Raise) : (e.takeError r).m = e.m := rfl
@[simp] theorem takeError_p (r : Raise) : (e.takeError r).p = e.p := rfl
@[simp] theorem takeError_buf (r : Raise) : (e.takeError r).buf = e.buf := rfl
@[simp] theorem takeError_epoch (r : Raise) : (e.takeError r).epoch = e.epoch := rfl
@[simp] theorem takeError_status (r : Raise) : (e.takeError r).status = setFaultBit e.status := rfl
@[simp] theorem takeError_errcode (r : Raise) : (e.takeError r).errcode = r.kind.code.setWidth 32 := rfl
@[simp] theorem takeError_errinfo (r : Raise) : (e.takeError r).errinfo = r.info := rfl
@[simp] theorem takeError_errseq (r : Raise) : (e.takeError r).errseq = e.cseq := rfl
@[simp] theorem takeError_res (r : Raise) : (e.takeError r).res = e.res := rfl
@[simp] theorem takeError_cseq (r : Raise) : (e.takeError r).cseq = e.cseq + 1 := rfl
@[simp] theorem takeError_curveid (r : Raise) : (e.takeError r).curveid = e.curveid := rfl
@[simp] theorem takeError_readM (r : Raise) (i : MReg) : (e.takeError r).readM i = e.readM i := rfl
@[simp] theorem takeError_readP (r : Raise) (j : PReg) : (e.takeError r).readP j = e.readP j := rfl
@[simp] theorem takeError_readByte (r : Raise) (x : Nat) : (e.takeError r).readByte x = e.readByte x := rfl

/-! ### The registers written -/

theorem readM_setM (i j : MReg) (v : Int) : (e.setM i v).readM j = if i = j then v else e.readM j := by
  simp only [readM, setM, Vector.get_eq_getElem, Vector.getElem_set, Fin.ext_iff]

@[simp] theorem readM_setM_same (i : MReg) (v : Int) : (e.setM i v).readM i = v := by simp [readM_setM]

theorem readM_setM_ne {i j : MReg} (h : i ≠ j) (v : Int) : (e.setM i v).readM j = e.readM j := by
  simp [readM_setM, h]

theorem readP_writeP (i j : PReg) (v : Point) : (e.writeP i v).readP j = if i = j then v else e.readP j := by
  simp only [readP, writeP, Vector.get_eq_getElem, Vector.getElem_set, Fin.ext_iff]

@[simp] theorem readP_writeP_same (i : PReg) (v : Point) : (e.writeP i v).readP i = v := by simp [readP_writeP]

theorem readP_writeP_ne {i j : PReg} (h : i ≠ j) (v : Point) : (e.writeP i v).readP j = e.readP j := by
  simp [readP_writeP, h]

/-! ### memWrite: everything but `BUF` stays -/

/-- MemWrite changes `BUF` alone. -/
theorem memWrite_eq (a : Nat) (bs : List Byte) : e.memWrite a bs = { e with buf := (e.memWrite a bs).buf } := by
  induction bs generalizing e a with
  | nil => rfl
  | cons b bs ih =>
    rw [memWrite, ih]
    rfl

@[simp] theorem memWrite_m (a : Nat) (bs : List Byte) : (e.memWrite a bs).m = e.m := by rw [memWrite_eq]
@[simp] theorem memWrite_p (a : Nat) (bs : List Byte) : (e.memWrite a bs).p = e.p := by rw [memWrite_eq]
@[simp] theorem memWrite_epoch (a : Nat) (bs : List Byte) : (e.memWrite a bs).epoch = e.epoch := by rw [memWrite_eq]
@[simp] theorem memWrite_status (a : Nat) (bs : List Byte) : (e.memWrite a bs).status = e.status := by rw [memWrite_eq]
@[simp] theorem memWrite_errcode (a : Nat) (bs : List Byte) : (e.memWrite a bs).errcode = e.errcode := by rw [memWrite_eq]
@[simp] theorem memWrite_errinfo (a : Nat) (bs : List Byte) : (e.memWrite a bs).errinfo = e.errinfo := by rw [memWrite_eq]
@[simp] theorem memWrite_errseq (a : Nat) (bs : List Byte) : (e.memWrite a bs).errseq = e.errseq := by rw [memWrite_eq]
@[simp] theorem memWrite_res (a : Nat) (bs : List Byte) : (e.memWrite a bs).res = e.res := by rw [memWrite_eq]
@[simp] theorem memWrite_cseq (a : Nat) (bs : List Byte) : (e.memWrite a bs).cseq = e.cseq := by rw [memWrite_eq]
@[simp] theorem memWrite_curveid (a : Nat) (bs : List Byte) : (e.memWrite a bs).curveid = e.curveid := by rw [memWrite_eq]
@[simp] theorem memWrite_readM (a : Nat) (bs : List Byte) (i : MReg) : (e.memWrite a bs).readM i = e.readM i := by
  simp [readM]
@[simp] theorem memWrite_readP (a : Nat) (bs : List Byte) (i : PReg) : (e.memWrite a bs).readP i = e.readP i := by
  simp [readP]
@[simp] theorem memWrite_inFault (a : Nat) (bs : List Byte) : (e.memWrite a bs).inFault = e.inFault := by
  simp [inFault]

/-! ### Reset -/

@[simp] theorem reset_readM (n : Nat) (i : MReg) : (Engine.reset n).readM i = 0 := by
  simp [readM, Engine.reset, Vector.get_eq_getElem]
@[simp] theorem reset_readP (n : Nat) (i : PReg) : (Engine.reset n).readP i = Point.inf := by
  simp [readP, Engine.reset, Vector.get_eq_getElem]
@[simp] theorem reset_inFault (n : Nat) : (Engine.reset n).inFault = false := by
  simp [inFault, faultBit, Engine.reset]

/-- `CLRERR` ends a fault (40_system.md R101). -/
@[simp] theorem clearError_inFault : e.clearError.inFault = false := by
  simp [inFault, faultBit, clearFaultBit]

end Engine

namespace State

variable (s : State)

/-! ### respond, and its two uses -/

@[simp] theorem respond_toEngine (e : Engine) (c : Byte) : (s.respond e c).toEngine = e := rfl
@[simp] theorem respond_input (e : Engine) (c : Byte) : (s.respond e c).input = s.input := rfl
@[simp] theorem respond_answer (e : Engine) (c : Byte) : (s.respond e c).answer = .response c e.res := rfl

@[simp] theorem failedWith_toEngine (r : Raise) : (s.failedWith r).toEngine = s.takeError r := rfl
@[simp] theorem failedWith_input (r : Raise) : (s.failedWith r).input = s.input := rfl
@[simp] theorem failedWith_answer (r : Raise) : (s.failedWith r).answer = .response r.kind.code s.res := rfl

@[simp] theorem rejected_toEngine : (s.rejected).toEngine = s.countCommand := rfl
@[simp] theorem rejected_input : (s.rejected).input = s.input := rfl
@[simp] theorem rejected_answer : (s.rejected).answer = .response 0xFF s.res := rfl

end State

end Sys2Proof.Machine
end

