-- ==== Sys2Proof/Laws/Memory.lean ====
section
/-! SUPPORT. `BUF`: what a read sees of a write, the canonical form and that every write keeps it, and the byte lists of
MemRead and MemWrite. -/

namespace Sys2Proof.Machine

namespace Memory

theorem find_put (mem : Memory) (a x : Nat) (b : Byte) :
    find (put mem a b) x = if a = x then some b else find mem x := by
  induction mem with
  | nil => simp [put, find]
  | cons c rest ih =>
    unfold put
    split
    · simp only [find]
    · split
      · rename_i h1 h2
        subst h2
        simp only [find]
        split <;> rfl
      · rename_i h1 h2
        simp only [find, ih]
        split
        · rw [if_neg]
          omega
        · rfl

/-- Every address of a written list is the written one or was listed before. -/
theorem mem_put {mem : Memory} {a : Nat} {b : Byte} {c : Host.Cell} (h : c ∈ put mem a b) : c = (a, b) ∨ c ∈ mem := by
  induction mem with
  | nil => simpa [put] using h
  | cons d rest ih =>
    unfold put at h
    split at h
    · simpa using h
    · split at h
      · simp only [List.mem_cons] at h ⊢
        tauto
      · simp only [List.mem_cons] at h ⊢
        rcases h with h | h
        · exact .inr (.inl h)
        · rcases ih h with h | h
          · exact .inl h
          · exact .inr (.inr h)

theorem rising_cons (c : Host.Cell) (rest : Memory) :
    rising (c :: rest) = true ↔ (∀ d ∈ rest, c.1 < d.1) ∧ rising rest = true := by
  simp [rising]

theorem rising_put (mem : Memory) (a : Nat) (b : Byte) (h : rising mem = true) : rising (put mem a b) = true := by
  induction mem with
  | nil => simp [put, rising]
  | cons c rest ih =>
    obtain ⟨hlt, hr⟩ := (rising_cons c rest).1 h
    unfold put
    split
    · rename_i hac
      refine (rising_cons _ _).2 ⟨fun d hd => ?_, h⟩
      rcases List.mem_cons.1 hd with rfl | hd
      · exact hac
      · exact Nat.lt_trans hac (hlt d hd)
    · split
      · rename_i h1 h2
        exact (rising_cons _ _).2 ⟨fun d hd => h2 ▸ hlt d hd, hr⟩
      · rename_i h1 h2
        refine (rising_cons _ _).2 ⟨fun d hd => ?_, ih hr⟩
        rcases mem_put hd with rfl | hd
        · show c.1 < a
          omega
        · exact hlt d hd

theorem wf_iff (n : Nat) (mem : Memory) : wf n mem = true ↔ rising mem = true ∧ ∀ c ∈ mem, c.1 < n := by
  simp [wf]

/-- A write to an address that exists keeps the canonical form. -/
theorem wf_put {n : Nat} {mem : Memory} {a : Nat} (b : Byte) (h : wf n mem = true) (ha : a < n) :
    wf n (put mem a b) = true := by
  obtain ⟨hr, hb⟩ := (wf_iff n mem).1 h
  refine (wf_iff _ _).2 ⟨rising_put mem a b hr, fun c hc => ?_⟩
  rcases mem_put hc with rfl | hc
  · exact ha
  · exact hb c hc

theorem find_none_of_lt {mem : Memory} {a : Nat} (h : ∀ c ∈ mem, a < c.1) : find mem a = none := by
  induction mem with
  | nil => rfl
  | cons c rest ih =>
    have hc := h c (by simp)
    simp only [find]
    rw [if_neg (by omega), ih fun d hd => h d (by simp [hd])]

/-- Equal contents are equal lists: two canonical memories that agree on every address are the same data. -/
theorem ext_of_find {m₁ m₂ : Memory} (h₁ : rising m₁ = true) (h₂ : rising m₂ = true)
    (h : ∀ a, find m₁ a = find m₂ a) : m₁ = m₂ := by
  induction m₁ generalizing m₂ with
  | nil =>
    cases m₂ with
    | nil => rfl
    | cons d r => simpa [find] using h d.1
  | cons c rest ih =>
    cases m₂ with
    | nil => simpa [find] using h c.1
    | cons d r =>
      obtain ⟨hc, hrest⟩ := (rising_cons c rest).1 h₁
      obtain ⟨hd, hr⟩ := (rising_cons d r).1 h₂
      have key : c.1 = d.1 := by
        rcases Nat.lt_trichotomy c.1 d.1 with hlt | heq | hgt
        · have := h c.1
          rw [find, if_pos rfl, find, if_neg (by omega),
            find_none_of_lt fun e he => Nat.lt_trans hlt (hd e he)] at this
          simp at this
        · exact heq
        · have := h d.1
          rw [find, if_neg (by omega), find_none_of_lt fun e he => Nat.lt_trans hgt (hc e he), find,
            if_pos rfl] at this
          simp at this
      have hval : c.2 = d.2 := by simpa [find, key] using h c.1
      have hcd : c = d := Prod.ext key hval
      subst hcd
      congr 1
      refine ih hrest hr fun a => ?_
      by_cases ha : c.1 = a
      · subst ha
        rw [find_none_of_lt hc, find_none_of_lt hd]
      · simpa [find, ha] using h a

end Memory

namespace Engine

theorem readByte_writeByte (e : Engine) (a x : Nat) (b : Byte) :
    (e.writeByte a b).readByte x = if a = x then b else e.readByte x := by
  simp only [readByte, writeByte, Memory.find_put]
  split <;> rfl

/-- The listed addresses written by `memWrite` are read back, the others read as before. -/
theorem readByte_memWrite (e : Engine) (a x : Nat) (bs : List Byte) :
    (e.memWrite a bs).readByte x = if h : a ≤ x ∧ x - a < bs.length then bs[x - a]'h.2 else e.readByte x := by
  induction bs generalizing e a with
  | nil => simp [memWrite]
  | cons b bs ih =>
    rw [memWrite, ih]
    by_cases hx : a = x
    · subst hx
      simp [readByte_writeByte]
    · by_cases hlt : a < x
      · have e : x - a = (x - (a + 1)) + 1 := by omega
        by_cases hl : x - (a + 1) < bs.length
        · rw [dif_pos ⟨by omega, hl⟩, dif_pos ⟨by omega, by simp; omega⟩]
          simp [e]
        · rw [dif_neg (by omega), dif_neg (by simp; omega), readByte_writeByte, if_neg hx]
      · rw [dif_neg (by omega), dif_neg (by omega), readByte_writeByte, if_neg hx]

theorem readByte_memWrite_outside (e : Engine) {a x : Nat} {bs : List Byte} (h : x < a ∨ a + bs.length ≤ x) :
    (e.memWrite a bs).readByte x = e.readByte x := by
  rw [readByte_memWrite, dif_neg (by omega)]

@[simp] theorem memRead_length (e : Engine) (a n : Nat) : (e.memRead a n).length = n := by
  induction n generalizing a with
  | zero => rfl
  | succ n ih => simp [memRead, ih]

theorem memRead_getElem (e : Engine) (a n k : Nat) (h : k < (e.memRead a n).length) :
    (e.memRead a n)[k] = e.readByte (a + k) := by
  induction n generalizing a k with
  | zero => simp at h
  | succ n ih =>
    cases k with
    | zero => rfl
    | succ k =>
      simp only [memRead, List.getElem_cons_succ]
      rw [ih]
      congr 1
      omega

/-- Two states that read alike on the bytes of the operand give the same byte list. -/
theorem memRead_congr {e f : Engine} {a n : Nat} (h : ∀ x, a ≤ x → x < a + n → e.readByte x = f.readByte x) :
    e.memRead a n = f.memRead a n := by
  apply List.ext_getElem (by simp)
  intro k h1 h2
  rw [memRead_getElem, memRead_getElem]
  rw [memRead_length] at h1
  exact h _ (by omega) (by omega)

/-- What was written is read back (20_memory.md R71). -/
theorem memRead_memWrite (e : Engine) (a : Nat) (bs : List Byte) : (e.memWrite a bs).memRead a bs.length = bs := by
  apply List.ext_getElem (by simp)
  intro k h1 h2
  rw [memRead_getElem, readByte_memWrite, dif_pos ⟨by omega, by simpa using h2⟩]
  congr 1
  omega

/-- MemWrite inside `BUF` keeps the canonical form. -/
theorem memWrite_wf {n : Nat} {e : Engine} {a : Nat} {bs : List Byte} (h : e.buf.wf n = true) (hb : a + bs.length ≤ n) :
    (e.memWrite a bs).buf.wf n = true := by
  induction bs generalizing e a with
  | nil => exact h
  | cons b bs ih =>
    simp only [List.length_cons] at hb
    exact ih (Memory.wf_put b h (by omega)) (by omega)

@[simp] theorem memRead_countCommand (e : Engine) (a n : Nat) : e.countCommand.memRead a n = e.memRead a n :=
  memRead_congr fun _ _ _ => rfl

@[simp] theorem memRead_writeRes (e : Engine) (v : Word) (a n : Nat) : (e.writeRes v).memRead a n = e.memRead a n :=
  memRead_congr fun _ _ _ => rfl

end Engine

end Sys2Proof.Machine
end

