-- ==== Sys2Proof/Laws/Ops.lean ====
section
/-! SUPPORT. One lemma per shared operation, saying all it can do: register writes, buffer operands, the frame of a
command, and that every command but CLRERR runs in it. -/

namespace Sys2Proof.Machine

open Sys2Proof.Safety

theorem raise_def {α : Type} (k : ErrorKind) (n : Nat) : (raise k n : Except Raise α) = .error ⟨k, BitVec.ofNat 32 n⟩ :=
  rfl

/-- `M[i] <- v` writes when the value fits. -/
theorem writeM_fits {c : Config.Params} {v : Int} (h : Fits c v) (i : MReg) (e : Engine) :
    writeM i v c e = .ok (e.setM i v) := by
  simp [writeM, Nat.not_le.2 h]

/-- `M[i] <- v` raises `CapacityError(0)` when it does not. -/
theorem writeM_overflow {c : Config.Params} {v : Int} (h : ¬ Fits c v) (i : MReg) (e : Engine) :
    writeM i v c e = raise .capacity 0 := by
  simp [writeM, Nat.not_lt.1 h]

/-- All that `M[i] <- v` can do. -/
theorem writeM_cases (i : MReg) (v : Int) (c : Config.Params) (e : Engine) :
    (Fits c v ∧ writeM i v c e = .ok (e.setM i v)) ∨ (¬ Fits c v ∧ writeM i v c e = raise .capacity 0) := by
  by_cases h : Fits c v
  · exact .inl ⟨h, writeM_fits h i e⟩
  · exact .inr ⟨h, writeM_overflow h i e⟩

/-- The input operand, all cases (20_memory.md R66). -/
theorem inputBytes_cases (arg : BufArg) (c : Config.Params) (e : Engine) :
    (arg.addr.toNat + arg.len.toNat ≤ c.bufsz ∧
        inputBytes arg c e = .ok (e.memRead arg.addr.toNat arg.len.toNat)) ∨
      (c.bufsz < arg.addr.toNat + arg.len.toNat ∧ inputBytes arg c e = raise .bufferRange 1) := by
  by_cases h : arg.addr.toNat + arg.len.toNat ≤ c.bufsz
  · exact .inl ⟨h, by simp [inputBytes, inRange, h]⟩
  · exact .inr ⟨by omega, by simp [inputBytes, inRange, h]⟩

/-- The output operand, all cases, in the order tested (20_memory.md R67). -/
theorem outputBytes_cases (arg : BufArg) (out : List Byte) (c : Config.Params) (e : Engine) :
    (arg.len.toNat < out.length ∧ outputBytes arg out c e = raise .bufferRange 2) ∨
      (out.length ≤ arg.len.toNat ∧ c.bufsz < arg.addr.toNat + out.length ∧
        outputBytes arg out c e = raise .bufferRange 1) ∨
      (out.length ≤ arg.len.toNat ∧ arg.addr.toNat + out.length ≤ c.bufsz ∧
        outputBytes arg out c e = .ok ((e.memWrite arg.addr.toNat out).writeRes (countRes out.length))) := by
  by_cases h : arg.len.toNat < out.length
  · exact .inl ⟨h, by simp [outputBytes, h]⟩
  · by_cases h2 : arg.addr.toNat + out.length ≤ c.bufsz
    · exact .inr (.inr ⟨by omega, h2, by simp [outputBytes, h, inRange, h2]⟩)
    · exact .inr (.inl ⟨by omega, by omega, by simp [outputBytes, h, inRange, h2]⟩)

theorem nonzeroOperand_zero : nonzeroOperand 0 = raise .divideByZero 0 := rfl

theorem nonzeroOperand_ne {v : Int} (h : v ≠ 0) : nonzeroOperand v = .ok v := by simp [nonzeroOperand, h]

theorem scalarOperand_neg {v : Int} (h : v < 0) : scalarOperand v = raise .operand 3 := by simp [scalarOperand, h]

theorem scalarOperand_nonneg {v : Int} (h : 0 ≤ v) : scalarOperand v = .ok v.toNat := by
  simp [scalarOperand, Int.not_lt.2 h]

/-! ## The frame of a command -/

/-- A command body that writes answers the completed state. -/
theorem runCommand_ok {c : Config.Params} {body : Body} {s : State} {e : Engine} (hf : s.inFault = false)
    (h : body c s.countCommand = .ok e) : runCommand c body s = .next (s.respond e 0) := by
  simp [runCommand, runBody, hf, h]

/-- A command body that raises answers the state with the error taken. -/
theorem runCommand_error {c : Config.Params} {body : Body} {s : State} {r : Raise} (hf : s.inFault = false)
    (h : body c s.countCommand = .error r) : runCommand c body s = .next (s.failedWith r) := by
  simp [runCommand, runBody, hf, h]

/-- In fault a command is rejected. -/
theorem runCommand_inFault {c : Config.Params} {body : Body} {s : State} (hf : s.inFault = true) :
    runCommand c body s = .next s.rejected := by
  simp [runCommand, hf]

/-- All that a command's step can do: rejection, completion, an error taken. -/
theorem runCommand_cases {c : Config.Params} {body : Body} {s t : State} (h : runCommand c body s = .next t) :
    (s.inFault = true ∧ t = s.rejected) ∨
      (s.inFault = false ∧ ∃ e, body c s.countCommand = .ok e ∧ t = s.respond e 0) ∨
      (s.inFault = false ∧ ∃ r, body c s.countCommand = .error r ∧ t = s.failedWith r) := by
  cases hf : s.inFault with
  | true =>
    rw [runCommand_inFault hf] at h
    exact .inl ⟨rfl, by simpa using h.symm⟩
  | false =>
    cases hb : body c s.countCommand with
    | ok e =>
      rw [runCommand_ok hf hb] at h
      exact .inr (.inl ⟨rfl, e, rfl, by simpa using h.symm⟩)
    | error r =>
      rw [runCommand_error hf hb] at h
      exact .inr (.inr ⟨rfl, r, rfl, by simpa using h.symm⟩)

/-- A command's step always answers a next state. -/
theorem runCommand_next (c : Config.Params) (body : Body) (s : State) : ∃ t, runCommand c body s = .next t := by
  unfold runCommand runBody
  split
  · exact ⟨_, rfl⟩
  · split <;> exact ⟨_, rfl⟩

/-- A command's step leaves the input, and does not depend on it or on the last answer (10_state.md R44). -/
theorem runCommand_host (c : Config.Params) (body : Body) (s : State) (x : Option Transaction) (y : Answer) :
    ∃ t, runCommand c body s = .next t ∧ t.input = s.input ∧
      runCommand c body { s with input := x, answer := y } = .next { t with input := x } := by
  cases hf : s.inFault with
  | true => exact ⟨_, runCommand_inFault hf, rfl, runCommand_inFault (s := { s with input := x, answer := y }) hf⟩
  | false =>
    cases hb : body c s.countCommand with
    | ok e => exact ⟨_, runCommand_ok hf hb, rfl, runCommand_ok (s := { s with input := x, answer := y }) hf hb⟩
    | error r => exact ⟨_, runCommand_error hf hb, rfl, runCommand_error (s := { s with input := x, answer := y }) hf hb⟩

/-! ## The frame of a command in the terms of Safety.lean -/

/-- A raised error is a failed command. -/
theorem run_raise {c : Config.Params} {body : Body} {s : State} {k : ErrorKind} {n : Nat} (hf : s.inFault = false)
    (h : body c s.countCommand = raise k n) : runCommand c body s = failed k.code (BitVec.ofNat 32 n) s :=
  runCommand_error hf h

/-- A register write is a stored value, or the capacity error. -/
theorem run_writeM {c : Config.Params} {body : Body} {s : State} {md : MReg} {v : Int} (hf : s.inFault = false)
    (h : body c s.countCommand = writeM md v c s.countCommand) :
    runCommand c body s = storedOrFull c md v s := by
  unfold storedOrFull
  split
  · rename_i hv
    rw [runCommand_ok hf (h.trans (writeM_fits hv md _))]
    rfl
  · rename_i hv
    rw [runCommand_error hf (h.trans (writeM_overflow hv md _))]
    rfl

/-- A value that fits is stored. -/
theorem storedOrFull_fits {c : Config.Params} {md : MReg} {v : Int} {s : State} (h : Fits c v) :
    storedOrFull c md v s = storedM md v s :=
  if_pos h

/-- A point write is a stored point. -/
theorem run_writeP {c : Config.Params} {body : Body} {s : State} {pd : PReg} {A : Point} (hf : s.inFault = false)
    (h : body c s.countCommand = .ok (s.countCommand.writeP pd A)) : runCommand c body s = storedP pd A s := by
  rw [runCommand_ok hf h]
  rfl

/-- An answer is left in `RES`. -/
theorem run_writeRes {c : Config.Params} {body : Body} {s : State} {v : Word} (hf : s.inFault = false)
    (h : body c s.countCommand = .ok (s.countCommand.writeRes v)) : runCommand c body s = answered v s := by
  rw [runCommand_ok hf h]
  rfl

/-- `BUF` after MemWrite does not depend on the rest of the state. -/
theorem memWrite_buf {e f : Engine} (h : e.buf = f.buf) (a : Nat) (bs : List Byte) :
    (e.memWrite a bs).buf = (f.memWrite a bs).buf := by
  induction bs generalizing e f a with
  | nil => exact h
  | cons b bs ih => exact ih (by simp [Engine.writeByte, h]) _

/-- A read of `BUF` depends on `BUF` alone. -/
theorem readByte_eq {e f : Engine} (hb : e.buf = f.buf) (he : e.epoch = f.epoch) (a : Nat) :
    e.readByte a = f.readByte a := by
  simp [Engine.readByte, hb, he]

/-- An output is written, or is one of the two range errors (20_memory.md R67). -/
theorem run_output {c : Config.Params} {body : Body} {s : State} {arg : BufArg} {out : List Byte} (hf : s.inFault = false)
    (h : body c s.countCommand = outputBytes arg out c s.countCommand) :
    Wrote c arg out s (runCommand c body s) := by
  unfold Wrote
  rcases outputBytes_cases arg out c s.countCommand with ⟨h1, h2⟩ | ⟨h1, h2, h3⟩ | ⟨h1, h2, h3⟩
  · rw [if_pos h1]
    exact run_raise hf (h.trans h2)
  · rw [if_neg (by omega), if_pos h2]
    exact run_raise hf (h.trans h3)
  · rw [if_neg (by omega), if_neg (by omega)]
    refine ⟨(s.memWrite arg.addr.toNat out).buf, ?_, ?_, ?_⟩
    · rw [runCommand_ok hf (h.trans h3), Engine.memWrite_eq, memWrite_buf (e := s.countCommand) (f := s.toEngine) rfl]
      rfl
    · intro k hk
      rw [← Engine.memWrite_eq, Engine.readByte_memWrite, dif_pos ⟨by omega, by omega⟩]
      simp [List.getD_eq_getElem?_getD, hk]
    · intro a ha
      rw [← Engine.memWrite_eq]
      exact Engine.readByte_memWrite_outside _ ha

/-- The bytes of an operand, as a list over its addresses. -/
theorem memRead_eq_map (e : Engine) (a n : Nat) : e.memRead a n = (List.range n).map fun k => e.readByte (a + k) := by
  apply List.ext_getElem (by simp)
  intro k h1 h2
  rw [Engine.memRead_getElem]
  simp

/-- An input operand inside `BUF` gives its bytes (20_memory.md R66). -/
theorem inputBytes_inBuf {c : Config.Params} {arg : BufArg} (h : InBuf c arg) (s : State) :
    inputBytes arg c s.countCommand = .ok (bytesAt s arg) := by
  rw [inputBytes, inRange, decide_eq_true h, if_pos rfl, Engine.memRead_countCommand, memRead_eq_map]
  rfl

/-- An input operand that leaves `BUF` is the range error (20_memory.md R66). -/
theorem inputBytes_outside {c : Config.Params} {arg : BufArg} (h : ¬ InBuf c arg) (e : Engine) :
    inputBytes arg c e = raise .bufferRange 1 := by
  rw [inputBytes, inRange, decide_eq_false h]
  rfl

/-! ## Every command -/

/-- `CLRERR` clears the error registers and answers 0, in fault or not (40_system.md R101). -/
theorem execAt_clrerr (c : Config.Params) (s : State) :
    execAt c .clrerr s = .next (s.respond s.countCommand.clearError 0) := by
  rw [execAt, if_neg (fun h => h.2 rfl)]
  rfl

/-- Every other command is the frame of 60_exceptions.md R262 around its pseudocode. -/
theorem execAt_eq_runCommand (c : Config.Params) {i : Instr} (h : i ≠ .clrerr) (s : State) :
    execAt c i s = runCommand c (body i) s := by
  simp [execAt, runCommand, h]

/-- The same `CSEQ`, error registers, and epoch of `BUF`. -/
abbrev SameControl (e e' : Engine) : Prop :=
  e'.cseq = e.cseq ∧ e'.epoch = e.epoch ∧ e'.status = e.status ∧ e'.errcode = e.errcode ∧ e'.errinfo = e.errinfo ∧
    e'.errseq = e.errseq

/-- `M[i] <- v` keeps the control registers. -/
theorem writeM_keeps {md : MReg} {v : Int} {c : Config.Params} {e e' : Engine} (h : writeM md v c e = .ok e') :
    SameControl e e' := by
  rcases writeM_cases md v c e with ⟨-, h2⟩ | ⟨-, h2⟩ <;> rw [h2] at h <;> cases h
  exact ⟨rfl, rfl, rfl, rfl, rfl, rfl⟩

/-- So does a left shift into a register. -/
theorem writeShiftedUp_keeps {md : MReg} {v : Int} {k : Nat} {c : Config.Params} {e e' : Engine}
    (h : writeShiftedUp md v k c e = .ok e') : SameControl e e' := by
  unfold writeShiftedUp at h
  split at h
  · cases h
  · exact writeM_keeps h

/-- An output keeps every control register but `RES`. -/
theorem outputBytes_keeps {arg : BufArg} {out : List Byte} {c : Config.Params} {e e' : Engine}
    (h : outputBytes arg out c e = .ok e') : SameControl e e' := by
  rcases outputBytes_cases arg out c e with ⟨-, h2⟩ | ⟨-, -, h2⟩ | ⟨-, -, h2⟩ <;> rw [h2] at h <;> cases h
  simp [SameControl]

/-- A sequence of two parts that succeeds: both do. -/
theorem bind_ok {ε α β : Type} {x : Except ε α} {f : α → Except ε β} {b : β} (h : (x >>= f) = .ok b) :
    ∃ a, x = .ok a ∧ f a = .ok b := by
  cases x with
  | ok a => exact ⟨a, rfl, h⟩
  | error r => cases h

/-- The pseudocode of a command changes neither `CSEQ` (10_state.md R40) nor, but for `CLRERR`, the error registers. -/
theorem body_keeps {c : Config.Params} {i : Instr} {e e' : Engine} (hi : i ≠ .clrerr) (h : body i c e = .ok e') :
    SameControl e e' := by
  cases i
  case clrerr => exact absurd rfl hi
  case divrem mq mr ma mb =>
    obtain ⟨b, -, h⟩ := bind_ok h
    obtain ⟨t, ht, h⟩ := bind_ok h
    have h1 := writeM_keeps ht
    have h2 := writeM_keeps h
    exact ⟨h2.1.trans h1.1, h2.2.1.trans h1.2.1, h2.2.2.1.trans h1.2.2.1, h2.2.2.2.1.trans h1.2.2.2.1,
      h2.2.2.2.2.1.trans h1.2.2.2.2.1, h2.2.2.2.2.2.trans h1.2.2.2.2.2⟩
  all_goals
    simp only [body, bodyCurve, bodyLdcp, bodyLdi, bodyMov, bodyAdd, bodySub, bodyMul, bodySqr, bodyDiv, bodyMod, bodyModinv,
      bodyShl, bodyShr, bodyCmp, bodyIseven, bodyTestbit, bodyBitlen, bodyFrombu, bodyTobu, bodyFrombs, bodyTobs, bodyParse,
      bodyTostr, bodyFadd, bodyFsub, bodyFmul, bodyFsqr, bodyFdiv, bodyFeq, bodyPinf, bodyPgen, bodyPseta, bodyPmov,
      bodyPisinf, bodyPgetx, bodyPgety, bodyPeq, bodyPneg, bodyPadd, bodyPdbl, bodyPmul, bodyPmul2, bodyPenc, bodyPdec,
      bodyPdechex, bodyPvalid] at h
    repeat' first
      | exact writeM_keeps h
      | exact writeShiftedUp_keeps h
      | exact outputBytes_keeps h
      | (cases h; exact ⟨rfl, rfl, rfl, rfl, rfl, rfl⟩)
      | (rw [raise_def] at h; cases h)
      | (obtain ⟨_, -, h⟩ := bind_ok h)
      | split at h

/-- The pseudocode of a command that succeeds leaves the engine that the step ends with (60_exceptions.md R262). -/
theorem runBody_ok {c : Config.Params} {i : Instr} {s : State} {e : Engine} (h : body i c s.countCommand = .ok e) :
    runBody c (body i) s = ran s { s with toEngine := e } := by
  have hc : e.cseq = s.cseq + 1 := by
    by_cases hi : i = .clrerr
    · subst hi
      cases h
      rfl
    · exact (body_keeps hi h).1
  cases e
  simp only at hc
  subst hc
  simp [runBody, h, State.respond, ran]

/-- The machine's `exec` is the execution at `Config.params`. -/
theorem exec_eq_execAt (i : Instr) (s : State) : exec i s = execAt Config.params i s := by
  by_cases h : i = .clrerr
  · subst h
    exact (execAt_clrerr _ s).symm
  · rw [execAt_eq_runCommand _ h]
    cases i <;> first | rfl | exact absurd rfl h

/-- A command always answers a next state, and leaves the input. -/
theorem execAt_next (c : Config.Params) (i : Instr) (s : State) : ∃ t, execAt c i s = .next t ∧ t.input = s.input := by
  by_cases h : i = .clrerr
  · subst h
    exact ⟨_, execAt_clrerr c s, rfl⟩
  · obtain ⟨t, ht, hi, -⟩ := runCommand_host c (body i) s none .none
    exact ⟨t, (execAt_eq_runCommand c h s).trans ht, hi⟩

/-- The step of the machine is the step at `Config.params`. -/
theorem step_eq_stepAt (s : State) : step s = stepAt Config.params s := by
  have h : exec = execAt Config.params := funext fun i => funext (exec_eq_execAt i)
  rw [step, stepAt, h]

/-- What holds of the engine of every parameters holds of the machine too. -/
theorem ofEvery {P : Config.Params → (Instr → State → Outcome) → Prop} (h : ∀ c, P c (execAt c)) : OfEvery P := by
  refine ⟨?_, h⟩
  rw [show exec = execAt Config.params from funext fun i => funext (exec_eq_execAt i)]
  exact h _

end Sys2Proof.Machine
end

