-- ==== Sys2Proof/Laws/PerInstr.lean ====
section
/-! SUPPORT. Statements made per instruction: one lemma per constructor of Instr. -/

namespace Sys2Proof

theorem mreg_mfield (r : MReg) : mreg (mfield r) = r := by revert r; decide
theorem preg_pfield (r : PReg) : preg (pfield r) = r := by revert r; decide
theorem pfield_lt (r : PReg) : (pfield r).toNat < 8 := by revert r; decide
theorem bufArg_low (a : BufArg) : bufArg a.low = a := by
  obtain ⟨addr, len⟩ := a
  simp only [bufArg, BufArg.low, BufArg.mk.injEq]
  constructor <;>
    (apply BitVec.eq_of_getLsbD_eq
     intro i hi
     simp only [BitVec.getLsbD_extractLsb', BitVec.getLsbD_append]
     split_ifs <;> first
       | omega
       | (simp only [hi, decide_true, Bool.true_and]
          congr 1
          omega))
theorem romIndex_num (i : RomIndex) : romIndex (BitVec.ofNat 8 i.num).toNat = some i := by cases i <;> rfl
theorem radix_toNat {r : Nat} (h : radixOk r = true) : (BitVec.ofNat 8 r).toNat = r := by
  simp [radixOk] at h
  rw [BitVec.toNat_ofNat]
  omega
theorem pmul2_aux (r : MReg) : (mfield r).setWidth 8 &&& 0xF0#8 = 0 ∧ mreg (((mfield r).setWidth 8).setWidth 4) = r := by
  revert r; decide
theorem penc_aux (c : Bool) :
    (BitVec.ofBool c).setWidth 8 &&& 0xFE#8 = 0 ∧ ((BitVec.ofBool c).setWidth 8).getLsbD 0 = c := by
  revert c; decide


/-- Decoding fields whose row is known and whose checks pass. -/
theorem decodeFields_row {f : Fields} {row : Row} (h : opcodeMap.find? (fun r => r.op == f.op) = some row)
    (hz : row.zerosOk f = true) (hp : row.pointsOk f = true) : decodeFields f = row.build f := by
  simp [decodeFields, h, hz, hp]

end Sys2Proof

namespace Sys2Proof.Laws.FieldRoundTrip

set_option linter.unusedSimpArgs false

/-- The fields of a well-formed command decode to it (30_encoding.md R81, R86). -/
def Statement (i : Instr) : Prop := i.wf = true → decodeFields (encodeFields i) = .ok i

theorem clrerr : Statement (.clrerr) := by
  intro h
  exact (decodeFields_row rfl
    (by simp [Row.zerosOk, FieldClass.zeroOk, encodeFields])
    (by simp [Row.pointsOk, FieldClass.pointOk, encodeFields, pfield_lt]))
    |>.trans (by simp [encodeFields, mreg_mfield, preg_pfield, bufArg_low])

theorem curve (id : Word) : Statement (.curve id) := by
  intro h
  exact (decodeFields_row rfl
    (by simp [Row.zerosOk, FieldClass.zeroOk, encodeFields])
    (by simp [Row.pointsOk, FieldClass.pointOk, encodeFields, pfield_lt]))
    |>.trans (by simp [encodeFields, mreg_mfield, preg_pfield, bufArg_low])

theorem ldcp (md : MReg) (idx : RomIndex) : Statement (.ldcp md idx) := by
  intro h
  exact (decodeFields_row rfl
    (by simp [Row.zerosOk, FieldClass.zeroOk, encodeFields])
    (by simp [Row.pointsOk, FieldClass.pointOk, encodeFields, pfield_lt]))
    |>.trans (by simp only [encodeFields, withRomIndex, romIndex_num, mreg_mfield])

theorem ldi (md : MReg) (imm : Word) : Statement (.ldi md imm) := by
  intro h
  exact (decodeFields_row rfl
    (by simp [Row.zerosOk, FieldClass.zeroOk, encodeFields])
    (by simp [Row.pointsOk, FieldClass.pointOk, encodeFields, pfield_lt]))
    |>.trans (by simp [encodeFields, mreg_mfield, preg_pfield, bufArg_low])

theorem mov (md : MReg) (ma : MReg) : Statement (.mov md ma) := by
  intro h
  exact (decodeFields_row rfl
    (by simp [Row.zerosOk, FieldClass.zeroOk, encodeFields])
    (by simp [Row.pointsOk, FieldClass.pointOk, encodeFields, pfield_lt]))
    |>.trans (by simp [encodeFields, mreg_mfield, preg_pfield, bufArg_low])

theorem add (md : MReg) (ma : MReg) (mb : MReg) : Statement (.add md ma mb) := by
  intro h
  exact (decodeFields_row rfl
    (by simp [Row.zerosOk, FieldClass.zeroOk, encodeFields])
    (by simp [Row.pointsOk, FieldClass.pointOk, encodeFields, pfield_lt]))
    |>.trans (by simp [encodeFields, mreg_mfield, preg_pfield, bufArg_low])

theorem sub (md : MReg) (ma : MReg) (mb : MReg) : Statement (.sub md ma mb) := by
  intro h
  exact (decodeFields_row rfl
    (by simp [Row.zerosOk, FieldClass.zeroOk, encodeFields])
    (by simp [Row.pointsOk, FieldClass.pointOk, encodeFields, pfield_lt]))
    |>.trans (by simp [encodeFields, mreg_mfield, preg_pfield, bufArg_low])

theorem mul (md : MReg) (ma : MReg) (mb : MReg) : Statement (.mul md ma mb) := by
  intro h
  exact (decodeFields_row rfl
    (by simp [Row.zerosOk, FieldClass.zeroOk, encodeFields])
    (by simp [Row.pointsOk, FieldClass.pointOk, encodeFields, pfield_lt]))
    |>.trans (by simp [encodeFields, mreg_mfield, preg_pfield, bufArg_low])

theorem sqr (md : MReg) (ma : MReg) : Statement (.sqr md ma) := by
  intro h
  exact (decodeFields_row rfl
    (by simp [Row.zerosOk, FieldClass.zeroOk, encodeFields])
    (by simp [Row.pointsOk, FieldClass.pointOk, encodeFields, pfield_lt]))
    |>.trans (by simp [encodeFields, mreg_mfield, preg_pfield, bufArg_low])

theorem div (md : MReg) (ma : MReg) (mb : MReg) : Statement (.div md ma mb) := by
  intro h
  exact (decodeFields_row rfl
    (by simp [Row.zerosOk, FieldClass.zeroOk, encodeFields])
    (by simp [Row.pointsOk, FieldClass.pointOk, encodeFields, pfield_lt]))
    |>.trans (by simp [encodeFields, mreg_mfield, preg_pfield, bufArg_low])

theorem mod (md : MReg) (ma : MReg) (mb : MReg) : Statement (.mod md ma mb) := by
  intro h
  exact (decodeFields_row rfl
    (by simp [Row.zerosOk, FieldClass.zeroOk, encodeFields])
    (by simp [Row.pointsOk, FieldClass.pointOk, encodeFields, pfield_lt]))
    |>.trans (by simp [encodeFields, mreg_mfield, preg_pfield, bufArg_low])

theorem divrem (mq : MReg) (mr : MReg) (ma : MReg) (mb : MReg) : Statement (.divrem mq mr ma mb) := by
  intro h
  exact (decodeFields_row rfl
    (by simp [Row.zerosOk, FieldClass.zeroOk, encodeFields])
    (by simp [Row.pointsOk, FieldClass.pointOk, encodeFields, pfield_lt]))
    |>.trans (by simp [encodeFields, withDistinct, show mq ≠ mr by simpa [Instr.wf] using h, mreg_mfield])

theorem modinv (md : MReg) (ma : MReg) (mm : MReg) : Statement (.modinv md ma mm) := by
  intro h
  exact (decodeFields_row rfl
    (by simp [Row.zerosOk, FieldClass.zeroOk, encodeFields])
    (by simp [Row.pointsOk, FieldClass.pointOk, encodeFields, pfield_lt]))
    |>.trans (by simp [encodeFields, mreg_mfield, preg_pfield, bufArg_low])

theorem shl (md : MReg) (ma : MReg) (imm : Word) : Statement (.shl md ma imm) := by
  intro h
  exact (decodeFields_row rfl
    (by simp [Row.zerosOk, FieldClass.zeroOk, encodeFields])
    (by simp [Row.pointsOk, FieldClass.pointOk, encodeFields, pfield_lt]))
    |>.trans (by simp [encodeFields, mreg_mfield, preg_pfield, bufArg_low])

theorem shr (md : MReg) (ma : MReg) (imm : Word) : Statement (.shr md ma imm) := by
  intro h
  exact (decodeFields_row rfl
    (by simp [Row.zerosOk, FieldClass.zeroOk, encodeFields])
    (by simp [Row.pointsOk, FieldClass.pointOk, encodeFields, pfield_lt]))
    |>.trans (by simp [encodeFields, mreg_mfield, preg_pfield, bufArg_low])

theorem cmp (ma : MReg) (mb : MReg) : Statement (.cmp ma mb) := by
  intro h
  exact (decodeFields_row rfl
    (by simp [Row.zerosOk, FieldClass.zeroOk, encodeFields])
    (by simp [Row.pointsOk, FieldClass.pointOk, encodeFields, pfield_lt]))
    |>.trans (by simp [encodeFields, mreg_mfield, preg_pfield, bufArg_low])

theorem iseven (ma : MReg) : Statement (.iseven ma) := by
  intro h
  exact (decodeFields_row rfl
    (by simp [Row.zerosOk, FieldClass.zeroOk, encodeFields])
    (by simp [Row.pointsOk, FieldClass.pointOk, encodeFields, pfield_lt]))
    |>.trans (by simp [encodeFields, mreg_mfield, preg_pfield, bufArg_low])

theorem testbit (ma : MReg) (idx : Word) : Statement (.testbit ma idx) := by
  intro h
  exact (decodeFields_row rfl
    (by simp [Row.zerosOk, FieldClass.zeroOk, encodeFields])
    (by simp [Row.pointsOk, FieldClass.pointOk, encodeFields, pfield_lt]))
    |>.trans (by simp [encodeFields, mreg_mfield, preg_pfield, bufArg_low])

theorem bitlen (ma : MReg) : Statement (.bitlen ma) := by
  intro h
  exact (decodeFields_row rfl
    (by simp [Row.zerosOk, FieldClass.zeroOk, encodeFields])
    (by simp [Row.pointsOk, FieldClass.pointOk, encodeFields, pfield_lt]))
    |>.trans (by simp [encodeFields, mreg_mfield, preg_pfield, bufArg_low])

theorem frombu (md : MReg) (arg : BufArg) : Statement (.frombu md arg) := by
  intro h
  exact (decodeFields_row rfl
    (by simp [Row.zerosOk, FieldClass.zeroOk, encodeFields])
    (by simp [Row.pointsOk, FieldClass.pointOk, encodeFields, pfield_lt]))
    |>.trans (by simp [encodeFields, mreg_mfield, preg_pfield, bufArg_low])

theorem tobu (ma : MReg) (arg : BufArg) : Statement (.tobu ma arg) := by
  intro h
  exact (decodeFields_row rfl
    (by simp [Row.zerosOk, FieldClass.zeroOk, encodeFields])
    (by simp [Row.pointsOk, FieldClass.pointOk, encodeFields, pfield_lt]))
    |>.trans (by simp [encodeFields, mreg_mfield, preg_pfield, bufArg_low])

theorem frombs (md : MReg) (arg : BufArg) : Statement (.frombs md arg) := by
  intro h
  exact (decodeFields_row rfl
    (by simp [Row.zerosOk, FieldClass.zeroOk, encodeFields])
    (by simp [Row.pointsOk, FieldClass.pointOk, encodeFields, pfield_lt]))
    |>.trans (by simp [encodeFields, mreg_mfield, preg_pfield, bufArg_low])

theorem tobs (ma : MReg) (arg : BufArg) : Statement (.tobs ma arg) := by
  intro h
  exact (decodeFields_row rfl
    (by simp [Row.zerosOk, FieldClass.zeroOk, encodeFields])
    (by simp [Row.pointsOk, FieldClass.pointOk, encodeFields, pfield_lt]))
    |>.trans (by simp [encodeFields, mreg_mfield, preg_pfield, bufArg_low])

theorem parse (md : MReg) (radix : Nat) (arg : BufArg) : Statement (.parse md radix arg) := by
  intro h
  exact (decodeFields_row rfl
    (by simp [Row.zerosOk, FieldClass.zeroOk, encodeFields])
    (by simp [Row.pointsOk, FieldClass.pointOk, encodeFields, pfield_lt]))
    |>.trans (by simp only [encodeFields, withRadix, radix_toNat h, show radixOk radix = true from h,
      mreg_mfield, bufArg_low, if_true])

theorem tostr (ma : MReg) (radix : Nat) (arg : BufArg) : Statement (.tostr ma radix arg) := by
  intro h
  exact (decodeFields_row rfl
    (by simp [Row.zerosOk, FieldClass.zeroOk, encodeFields])
    (by simp [Row.pointsOk, FieldClass.pointOk, encodeFields, pfield_lt]))
    |>.trans (by simp only [encodeFields, withRadix, radix_toNat h, show radixOk radix = true from h,
      mreg_mfield, bufArg_low, if_true])

theorem fadd (md : MReg) (ma : MReg) (mb : MReg) (mm : MReg) : Statement (.fadd md ma mb mm) := by
  intro h
  exact (decodeFields_row rfl
    (by simp [Row.zerosOk, FieldClass.zeroOk, encodeFields])
    (by simp [Row.pointsOk, FieldClass.pointOk, encodeFields, pfield_lt]))
    |>.trans (by simp [encodeFields, mreg_mfield, preg_pfield, bufArg_low])

theorem fsub (md : MReg) (ma : MReg) (mb : MReg) (mm : MReg) : Statement (.fsub md ma mb mm) := by
  intro h
  exact (decodeFields_row rfl
    (by simp [Row.zerosOk, FieldClass.zeroOk, encodeFields])
    (by simp [Row.pointsOk, FieldClass.pointOk, encodeFields, pfield_lt]))
    |>.trans (by simp [encodeFields, mreg_mfield, preg_pfield, bufArg_low])

theorem fmul (md : MReg) (ma : MReg) (mb : MReg) (mm : MReg) : Statement (.fmul md ma mb mm) := by
  intro h
  exact (decodeFields_row rfl
    (by simp [Row.zerosOk, FieldClass.zeroOk, encodeFields])
    (by simp [Row.pointsOk, FieldClass.pointOk, encodeFields, pfield_lt]))
    |>.trans (by simp [encodeFields, mreg_mfield, preg_pfield, bufArg_low])

theorem fsqr (md : MReg) (ma : MReg) (mm : MReg) : Statement (.fsqr md ma mm) := by
  intro h
  exact (decodeFields_row rfl
    (by simp [Row.zerosOk, FieldClass.zeroOk, encodeFields])
    (by simp [Row.pointsOk, FieldClass.pointOk, encodeFields, pfield_lt]))
    |>.trans (by simp [encodeFields, mreg_mfield, preg_pfield, bufArg_low])

theorem fdiv (md : MReg) (ma : MReg) (mb : MReg) (mm : MReg) : Statement (.fdiv md ma mb mm) := by
  intro h
  exact (decodeFields_row rfl
    (by simp [Row.zerosOk, FieldClass.zeroOk, encodeFields])
    (by simp [Row.pointsOk, FieldClass.pointOk, encodeFields, pfield_lt]))
    |>.trans (by simp [encodeFields, mreg_mfield, preg_pfield, bufArg_low])

theorem feq (ma : MReg) (mma : MReg) (mb : MReg) (mmb : MReg) : Statement (.feq ma mma mb mmb) := by
  intro h
  exact (decodeFields_row rfl
    (by simp [Row.zerosOk, FieldClass.zeroOk, encodeFields])
    (by simp [Row.pointsOk, FieldClass.pointOk, encodeFields, pfield_lt]))
    |>.trans (by simp [encodeFields, mreg_mfield, preg_pfield, bufArg_low])

theorem pinf (pd : PReg) : Statement (.pinf pd) := by
  intro h
  exact (decodeFields_row rfl
    (by simp [Row.zerosOk, FieldClass.zeroOk, encodeFields])
    (by simp [Row.pointsOk, FieldClass.pointOk, encodeFields, pfield_lt]))
    |>.trans (by simp [encodeFields, mreg_mfield, preg_pfield, bufArg_low])

theorem pgen (pd : PReg) : Statement (.pgen pd) := by
  intro h
  exact (decodeFields_row rfl
    (by simp [Row.zerosOk, FieldClass.zeroOk, encodeFields])
    (by simp [Row.pointsOk, FieldClass.pointOk, encodeFields, pfield_lt]))
    |>.trans (by simp [encodeFields, mreg_mfield, preg_pfield, bufArg_low])

theorem pseta (pd : PReg) (mx : MReg) (my : MReg) : Statement (.pseta pd mx my) := by
  intro h
  exact (decodeFields_row rfl
    (by simp [Row.zerosOk, FieldClass.zeroOk, encodeFields])
    (by simp [Row.pointsOk, FieldClass.pointOk, encodeFields, pfield_lt]))
    |>.trans (by simp [encodeFields, mreg_mfield, preg_pfield, bufArg_low])

theorem pmov (pd : PReg) (pa : PReg) : Statement (.pmov pd pa) := by
  intro h
  exact (decodeFields_row rfl
    (by simp [Row.zerosOk, FieldClass.zeroOk, encodeFields])
    (by simp [Row.pointsOk, FieldClass.pointOk, encodeFields, pfield_lt]))
    |>.trans (by simp [encodeFields, mreg_mfield, preg_pfield, bufArg_low])

theorem pisinf (pa : PReg) : Statement (.pisinf pa) := by
  intro h
  exact (decodeFields_row rfl
    (by simp [Row.zerosOk, FieldClass.zeroOk, encodeFields])
    (by simp [Row.pointsOk, FieldClass.pointOk, encodeFields, pfield_lt]))
    |>.trans (by simp [encodeFields, mreg_mfield, preg_pfield, bufArg_low])

theorem pgetx (md : MReg) (pa : PReg) : Statement (.pgetx md pa) := by
  intro h
  exact (decodeFields_row rfl
    (by simp [Row.zerosOk, FieldClass.zeroOk, encodeFields])
    (by simp [Row.pointsOk, FieldClass.pointOk, encodeFields, pfield_lt]))
    |>.trans (by simp [encodeFields, mreg_mfield, preg_pfield, bufArg_low])

theorem pgety (md : MReg) (pa : PReg) : Statement (.pgety md pa) := by
  intro h
  exact (decodeFields_row rfl
    (by simp [Row.zerosOk, FieldClass.zeroOk, encodeFields])
    (by simp [Row.pointsOk, FieldClass.pointOk, encodeFields, pfield_lt]))
    |>.trans (by simp [encodeFields, mreg_mfield, preg_pfield, bufArg_low])

theorem peq (pa : PReg) (pb : PReg) : Statement (.peq pa pb) := by
  intro h
  exact (decodeFields_row rfl
    (by simp [Row.zerosOk, FieldClass.zeroOk, encodeFields])
    (by simp [Row.pointsOk, FieldClass.pointOk, encodeFields, pfield_lt]))
    |>.trans (by simp [encodeFields, mreg_mfield, preg_pfield, bufArg_low])

theorem pneg (pd : PReg) (pa : PReg) : Statement (.pneg pd pa) := by
  intro h
  exact (decodeFields_row rfl
    (by simp [Row.zerosOk, FieldClass.zeroOk, encodeFields])
    (by simp [Row.pointsOk, FieldClass.pointOk, encodeFields, pfield_lt]))
    |>.trans (by simp [encodeFields, mreg_mfield, preg_pfield, bufArg_low])

theorem padd (pd : PReg) (pa : PReg) (pb : PReg) : Statement (.padd pd pa pb) := by
  intro h
  exact (decodeFields_row rfl
    (by simp [Row.zerosOk, FieldClass.zeroOk, encodeFields])
    (by simp [Row.pointsOk, FieldClass.pointOk, encodeFields, pfield_lt]))
    |>.trans (by simp [encodeFields, mreg_mfield, preg_pfield, bufArg_low])

theorem pdbl (pd : PReg) (pa : PReg) : Statement (.pdbl pd pa) := by
  intro h
  exact (decodeFields_row rfl
    (by simp [Row.zerosOk, FieldClass.zeroOk, encodeFields])
    (by simp [Row.pointsOk, FieldClass.pointOk, encodeFields, pfield_lt]))
    |>.trans (by simp [encodeFields, mreg_mfield, preg_pfield, bufArg_low])

theorem pmul (pd : PReg) (pa : PReg) (mk : MReg) : Statement (.pmul pd pa mk) := by
  intro h
  exact (decodeFields_row rfl
    (by simp [Row.zerosOk, FieldClass.zeroOk, encodeFields])
    (by simp [Row.pointsOk, FieldClass.pointOk, encodeFields, pfield_lt]))
    |>.trans (by simp [encodeFields, mreg_mfield, preg_pfield, bufArg_low])

theorem pmul2 (pd : PReg) (pa : PReg) (mj : MReg) (pb : PReg) (mk : MReg) : Statement (.pmul2 pd pa mj pb mk) := by
  intro h
  exact (decodeFields_row rfl
    (by simp [Row.zerosOk, FieldClass.zeroOk, encodeFields, pmul2_aux])
    (by simp [Row.pointsOk, FieldClass.pointOk, encodeFields, pfield_lt]))
    |>.trans (by simp [encodeFields, mreg_mfield, preg_pfield, pmul2_aux])

theorem penc (pa : PReg) (compressed : Bool) (arg : BufArg) : Statement (.penc pa compressed arg) := by
  intro h
  exact (decodeFields_row rfl
    (by simp [Row.zerosOk, FieldClass.zeroOk, encodeFields, penc_aux])
    (by simp [Row.pointsOk, FieldClass.pointOk, encodeFields, pfield_lt]))
    |>.trans (by simp [encodeFields, preg_pfield, bufArg_low, penc_aux])

theorem pdec (pd : PReg) (arg : BufArg) : Statement (.pdec pd arg) := by
  intro h
  exact (decodeFields_row rfl
    (by simp [Row.zerosOk, FieldClass.zeroOk, encodeFields])
    (by simp [Row.pointsOk, FieldClass.pointOk, encodeFields, pfield_lt]))
    |>.trans (by simp [encodeFields, mreg_mfield, preg_pfield, bufArg_low])

theorem pdechex (pd : PReg) (arg : BufArg) : Statement (.pdechex pd arg) := by
  intro h
  exact (decodeFields_row rfl
    (by simp [Row.zerosOk, FieldClass.zeroOk, encodeFields])
    (by simp [Row.pointsOk, FieldClass.pointOk, encodeFields, pfield_lt]))
    |>.trans (by simp [encodeFields, mreg_mfield, preg_pfield, bufArg_low])

theorem pvalid (pa : PReg) : Statement (.pvalid pa) := by
  intro h
  exact (decodeFields_row rfl
    (by simp [Row.zerosOk, FieldClass.zeroOk, encodeFields])
    (by simp [Row.pointsOk, FieldClass.pointOk, encodeFields, pfield_lt]))
    |>.trans (by simp [encodeFields, mreg_mfield, preg_pfield, bufArg_low])

end Sys2Proof.Laws.FieldRoundTrip
end

