-- ==== Sys2Proof/Tests/Slice0.lean ====
section
/-! SUPPORT. Tests of the model against the spec's own words and vectors (30_encoding.md R94, 95_test_vectors.md,
96_test_vectors_more.md), and for each statement with hypotheses a witness that meets them. A PMUL by a scalar of full
length takes seconds to evaluate, so the tests use short ones. -/

namespace Sys2Proof.Tests

open Sys2Proof.Machine Sys2Proof.Safety

set_option Elab.async false

/-! ## Start states and single steps -/

/-- The state right after reset with these registers and these bytes from these addresses on. -/
def mk (ms : List (MReg × Int)) (ps : List (PReg × Point)) (bs : List (Nat × List Byte)) : State :=
  let e := ms.foldl (fun e x => e.setM x.1 x.2) (Engine.reset 0)
  let e := ps.foldl (fun e x => e.writeP x.1 x.2) e
  { State.reset with toEngine := bs.foldl (fun e x => e.memWrite x.1 x.2) e }

/-- One step that takes this command. -/
def run (w : CmdWord) (s : State) : Outcome := hand step (.command w) s

/-- What a test looks at, in a next state. -/
def seen {α : Type} (f : State → α) : Outcome → Option α
  | .next t => some (f t)
  | _ => none

/-- `be32(v)` of the spec's vectors. -/
def be32 (v : Nat) : List Byte := (List.range 32).reverse.map fun k => BitVec.ofNat 8 (v >>> (8 * k))

/-- Digits of the spec's hex strings, in lower case. -/
def hex64 (v : Nat) : List Byte := (List.range 64).reverse.map fun k => digitChar (v >>> (4 * k) % 16)

/-- The named points of 95_test_vectors.md. -/
def pG : Point := .aff 0x79BE667EF9DCBBAC55A06295CE870B07029BFCDB2DCE28D959F2815B16F81798
  0x483ADA7726A3C4655DA4FBFC0E1108A8FD17B448A68554199C47D08FFB10D4B8
def pNegG : Point := .aff 0x79BE667EF9DCBBAC55A06295CE870B07029BFCDB2DCE28D959F2815B16F81798
  0xB7C52588D95C3B9AA25B0403F1EEF75702E84BB7597AABE663B82F6F04EF2777
def p2G : Point := .aff 0xC6047F9441ED7D6D3045406E95C07CD85C778E4B8CEF3CA7ABAC09B95C709EE5
  0x1AE168FEA63DC339A3C58419466CEAEEF7F632653266D0E1236431A950CFE52A
def p3G : Point := .aff 0xF9308A019258C31049344F85F89D5229B531C845836F99B08601F113BCE036F9
  0x388F7B0F632DE8140FE337E62A37F3566500A99934C2231B6CB9FD7584B8E672
def p7G : Point := .aff 0x5CBDF0646E5DB4EAA398F365F2EA7A0E3D419B7E0330E39CE92BDDEDCAC4F9BC
  0x6AEBCA40BA255960A3178D6D861A54DBA813D0B813FDE7B5A5082628087264DA

/-! ## Ill-formed commands (30_encoding.md R88, lines 4 and 5) -/

theorem test_wf_parse_radix : Instr.wf (.parse 1 1 ⟨0, 1⟩) = false ∧ Instr.wf (.parse 1 37 ⟨0, 1⟩) = false ∧
    Instr.wf (.parse 1 2 ⟨0, 1⟩) = true ∧ Instr.wf (.parse 1 36 ⟨0, 1⟩) = true := by decide

theorem test_wf_tostr_radix : Instr.wf (.tostr 1 1 ⟨0, 1⟩) = false ∧ Instr.wf (.tostr 1 37 ⟨0, 1⟩) = false ∧
    Instr.wf (.tostr 1 2 ⟨0, 1⟩) = true ∧ Instr.wf (.tostr 1 36 ⟨0, 1⟩) = true := by decide

theorem test_wf_divrem : Instr.wf (.divrem 4 4 1 2) = false ∧ Instr.wf (.divrem 1 2 1 2) = true := by decide

/-! ## Decoding -/

/-- Words and texts of the family from the vectors of the spec, addresses in decimal. -/
theorem test_decode_system : ∀ x ∈ ([
      (0x0100000000000000, .clrerr, "CLRERR"),
      (0x0200000000000001, .curve 1, "CURVE #1"),
      (0x03F0000000000000, .ldcp 15 .p, "LDCP m15, #0"),
      (0x03E0000500000000, .ldcp 14 .n, "LDCP m14, #5"),
      (0x0310000600000000, .ldcp 1 .h, "LDCP m1, #6"),
      (0x08100000FFFFFFFB, .ldi 1 (-5), "LDI m1, #-5"),
      (0x0820000080000000, .ldi 2 (-2147483648), "LDI m2, #-2147483648"),
      (0x0921000000000000, .mov 2 1, "MOV m2, m1")] : List (CmdWord × Instr × String)),
    decodeWord x.1 = .ok x.2.1 ∧ encode x.2.1 = x.1 ∧ assembly x.2.1 = x.2.2 := by decide +kernel

/-- Words and texts of the family from the vectors of the spec, addresses in decimal. -/
theorem test_decode_arith : ∀ x ∈ ([
      (0x1031200000000000, .add 3 1 2, "ADD m3, m1, m2"),
      (0x1131200000000000, .sub 3 1 2, "SUB m3, m1, m2"),
      (0x1231200000000000, .mul 3 1 2, "MUL m3, m1, m2"),
      (0x1331000000000000, .sqr 3 1, "SQR m3, m1"),
      (0x1431200000000000, .div 3 1 2, "DIV m3, m1, m2"),
      (0x1531200000000000, .mod 3 1 2, "MOD m3, m1, m2"),
      (0x1645120000000000, .divrem 4 5 1 2, "DIVREM m4, m5, m1, m2"),
      (0x1612120000000000, .divrem 1 2 1 2, "DIVREM m1, m2, m1, m2"),
      (0x1731200000000000, .modinv 3 1 2, "MODINV m3, m1, m2"),
      (0x182100000000001A, .shl 2 1 26, "SHL m2, m1, #26"),
      (0x18210000FFFFFFFF, .shl 2 1 (-1), "SHL m2, m1, #-1"),
      (0x192100000000001A, .shr 2 1 26, "SHR m2, m1, #26")] : List (CmdWord × Instr × String)),
    decodeWord x.1 = .ok x.2.1 ∧ encode x.2.1 = x.1 ∧ assembly x.2.1 = x.2.2 := by decide +kernel

/-- Words and texts of the family from the vectors of the spec, addresses in decimal. -/
theorem test_decode_query : ∀ x ∈ ([
      (0x2001200000000000, .cmp 1 2, "CMP m1, m2"),
      (0x2101000000000000, .iseven 1, "ISEVEN m1"),
      (0x220100000000001A, .testbit 1 26, "TESTBIT m1, #26"),
      (0x2301000000000000, .bitlen 1, "BITLEN m1")] : List (CmdWord × Instr × String)),
    decodeWord x.1 = .ok x.2.1 ∧ encode x.2.1 = x.1 ∧ assembly x.2.1 = x.2.2 := by decide +kernel

/-- Words and texts of the family from the vectors of the spec, addresses in decimal. -/
theorem test_decode_convert : ∀ x ∈ ([
      (0x2810000000020010, .frombu 1 ⟨0x10, 2⟩, "FROMBU m1, [16, 2]"),
      (0x2901000000080020, .tobu 1 ⟨0x20, 8⟩, "TOBU m1, [32, 8]"),
      (0x2A10000000020010, .frombs 1 ⟨0x10, 2⟩, "FROMBS m1, [16, 2]"),
      (0x2B01000000040020, .tobs 1 ⟨0x20, 4⟩, "TOBS m1, [32, 4]"),
      (0x2C10001000030040, .parse 1 16 ⟨0x40, 3⟩, "PARSE m1, r=16, [64, 3]"),
      (0x2C10000A00010040, .parse 1 10 ⟨0x40, 1⟩, "PARSE m1, r=10, [64, 1]"),
      (0x2D01000A00200060, .tostr 1 10 ⟨0x60, 32⟩, "TOSTR m1, r=10, [96, 32]")] : List (CmdWord × Instr × String)),
    decodeWord x.1 = .ok x.2.1 ∧ encode x.2.1 = x.1 ∧ assembly x.2.1 = x.2.2 := by decide +kernel

/-- Words and texts of the family from the vectors of the spec, addresses in decimal. -/
theorem test_decode_field : ∀ x ∈ ([
      (0x3031240000000000, .fadd 3 1 2 4, "FADD m3, m1, m2, m4"),
      (0x3131240000000000, .fsub 3 1 2 4, "FSUB m3, m1, m2, m4"),
      (0x3231240000000000, .fmul 3 1 2 4, "FMUL m3, m1, m2, m4"),
      (0x3331040000000000, .fsqr 3 1 4, "FSQR m3, m1, m4"),
      (0x3431240000000000, .fdiv 3 1 2 4, "FDIV m3, m1, m2, m4"),
      (0x3512340000000000, .feq 1 2 3 4, "FEQ m1, m2, m3, m4")] : List (CmdWord × Instr × String)),
    decodeWord x.1 = .ok x.2.1 ∧ encode x.2.1 = x.1 ∧ assembly x.2.1 = x.2.2 := by decide +kernel

/-- Words and texts of the family from the vectors of the spec, addresses in decimal. -/
theorem test_decode_point : ∀ x ∈ ([
      (0x4010000000000000, .pinf 1, "PINF p1"),
      (0x4110000000000000, .pgen 1, "PGEN p1"),
      (0x4211200000000000, .pseta 1 1 2, "PSETA p1, m1, m2"),
      (0x4321000000000000, .pmov 2 1, "PMOV p2, p1"),
      (0x4401000000000000, .pisinf 1, "PISINF p1"),
      (0x4511000000000000, .pgetx 1 1, "PGETX m1, p1"),
      (0x4611000000000000, .pgety 1 1, "PGETY m1, p1"),
      (0x4701200000000000, .peq 1 2, "PEQ p1, p2"),
      (0x4821000000000000, .pneg 2 1, "PNEG p2, p1"),
      (0x4931200000000000, .padd 3 1 2, "PADD p3, p1, p2"),
      (0x4911100000000000, .padd 1 1 1, "PADD p1, p1, p1"),
      (0x4A31000000000000, .pdbl 3 1, "PDBL p3, p1"),
      (0x4B21100000000000, .pmul 2 1 1, "PMUL p2, p1, m1"),
      (0x4C31020100000000, .pmul2 3 1 0 2 1, "PMUL2 p3, p1, m0, p2, m1")] : List (CmdWord × Instr × String)),
    decodeWord x.1 = .ok x.2.1 ∧ encode x.2.1 = x.1 ∧ assembly x.2.1 = x.2.2 := by decide +kernel

/-- Words and texts of the family from the vectors of the spec, addresses in decimal. -/
theorem test_decode_codec : ∀ x ∈ ([
      (0x4D01000000410100, .penc 1 false ⟨0x100, 65⟩, "PENC p1, c=0, [256, 65]"),
      (0x4D01000100210100, .penc 1 true ⟨0x100, 33⟩, "PENC p1, c=1, [256, 33]"),
      (0x4E10000000410000, .pdec 1 ⟨0, 65⟩, "PDEC p1, [0, 65]"),
      (0x4F10000000820200, .pdechex 1 ⟨0x200, 130⟩, "PDECHEX p1, [512, 130]"),
      (0x5001000000000000, .pvalid 1, "PVALID p1")] : List (CmdWord × Instr × String)),
    decodeWord x.1 = .ok x.2.1 ∧ encode x.2.1 = x.1 ∧ assembly x.2.1 = x.2.2 := by decide +kernel

/-- The illegal words of 96_test_vectors_more.md T15, with their info. -/
theorem test_decode_illegal : ∀ x ∈ ([(0x0000000000000000, 1), (0xFF00000000000000, 1), (0x1A00000000000000, 1),
      (0x5100000000000000, 1), (0xFFFFFFFFFFFFFFFF, 1), (0x0100000000000001, 2), (0x1031210000000000, 2),
      (0x1031200100000000, 2), (0x1031200000000001, 2), (0x4981200000000000, 3), (0x2C10000100010000, 4),
      (0x0310000700000000, 4), (0x4D01000200410000, 2), (0x4C31021000000000, 2), (0x1644120000000000, 5),
      (0x0210000000000000, 2)] : List (CmdWord × Nat)),
    illegalLine x.1 = some x.2 ∧
    seen (fun t => (t.answer, t.errinfo.toNat, t.errcode, t.status, t.cseq)) (run x.1 State.reset) =
      some (Answer.response 9 0, x.2, 9, 1, 1) := by decide +kernel

/-- A table row's word, as the host numbers its bits (30_encoding.md R93, R94). -/
theorem test_table_word : decodeTableWord 64 0x1031200000000000 = some (.add 3 1 2) ∧
    decodeTableWord 64 0 = none ∧
    seen (fun t => (t.answer, t.readM 3)) (step ((mk [(1, 7), (2, 8)] [] []).withFetchWord 64 0x1031200000000000)) =
      some (.response 0 0, 15) := by decide +kernel

/-- The opcode map is the table: 48 rows, their masks made of the two kinds of forbidden bits (R93). -/
theorem test_opcode_table : opcodeTable.length = 48 ∧ (opcodeTable.map (·.pattern)).Nodup ∧
    ∀ row ∈ opcodeTable, row.mask = 0xFF00000000000000 ||| row.zeros ||| row.points := by decide +kernel

/-! ## One step per command, from the spec's vectors -/

/-- `CLRERR` on reset state. -/
theorem test_clrerr :
    seen (fun t => (t.answer, t.cseq)) (run 0x0100000000000000
      State.reset) =
    some (Answer.response 0 0, 1) := by decide +kernel

/-- `CURVE #0` on reset state. -/
theorem test_curve :
    seen (fun t => (t.answer, t.curveid)) (run 0x0200000000000000
      State.reset) =
    some (Answer.response 0 0, 0) := by decide +kernel

/-- `CURVE #1` on reset state. -/
theorem test_curve_more :
    seen (fun t => (t.answer, t.errinfo, t.curveid)) (run 0x0200000000000001
      State.reset) =
    some (Answer.response 8 0, 1, 0) := by decide +kernel

/-- `LDCP m14, #5` on reset state. -/
theorem test_ldcp :
    seen (fun t => (t.answer, t.readM 14)) (run 0x03E0000500000000
      State.reset) =
    some (Answer.response 0 0, (Rom.n : Int)) := by decide +kernel

/-- `LDCP m1, #2` on reset state. -/
theorem test_ldcp_more :
    seen (fun t => (t.answer, t.readM 1)) (run 0x0310000200000000
      State.reset) =
    some (Answer.response 0 0, 7) := by decide +kernel

/-- `LDI m1, #-5` on reset state. -/
theorem test_ldi :
    seen (fun t => (t.answer, t.readM 1)) (run 0x08100000FFFFFFFB
      State.reset) =
    some (Answer.response 0 0, -5) := by decide +kernel

/-- `LDI m2, #-2147483648` on reset state. -/
theorem test_ldi_more :
    seen (fun t => (t.answer, t.readM 2)) (run 0x0820000080000000
      State.reset) =
    some (Answer.response 0 0, -0x80000000) := by decide +kernel

/-- `MOV m2, m1` on M[1] = 7. -/
theorem test_mov :
    seen (fun t => (t.answer, t.readM 1, t.readM 2)) (run 0x0921000000000000
      (mk [(1, 7)] [] [])) =
    some (Answer.response 0 0, 7, 7) := by decide +kernel

/-- `ADD m3, m1, m2` on M[1] = -5, M[2] = 3. -/
theorem test_add :
    seen (fun t => (t.answer, t.readM 3)) (run 0x1031200000000000
      (mk [(1, -5), (2, 3)] [] [])) =
    some (Answer.response 0 0, -2) := by decide +kernel

/-- `ADD m3, m1, m2` on M[1] = 2^1040 - 1, M[2] = 1, M[3] = 9. -/
theorem test_add_more :
    seen (fun t => (t.answer, t.errinfo, t.readM 3)) (run 0x1031200000000000
      (mk [(1, 2^1040 - 1), (2, 1), (3, 9)] [] [])) =
    some (Answer.response 6 0, 0, 9) := by decide +kernel

/-- `SUB m3, m1, m2` on M[1] = 3, M[2] = 5. -/
theorem test_sub :
    seen (fun t => (t.answer, t.readM 3)) (run 0x1131200000000000
      (mk [(1, 3), (2, 5)] [] [])) =
    some (Answer.response 0 0, -2) := by decide +kernel

/-- `SUB m3, m1, m2` on M[1] = 5, M[2] = -3. -/
theorem test_sub_more :
    seen (fun t => (t.answer, t.readM 3)) (run 0x1131200000000000
      (mk [(1, 5), (2, -3)] [] [])) =
    some (Answer.response 0 0, 8) := by decide +kernel

/-- `MUL m3, m1, m2` on M[1] = -7, M[2] = 6. -/
theorem test_mul :
    seen (fun t => (t.answer, t.readM 3)) (run 0x1231200000000000
      (mk [(1, -7), (2, 6)] [] [])) =
    some (Answer.response 0 0, -42) := by decide +kernel

/-- `MUL m3, m1, m2` on M[1] = 2^520, M[2] = 2^520. -/
theorem test_mul_more :
    seen (fun t => (t.answer, t.errinfo, (t.status, t.cseq))) (run 0x1231200000000000
      (mk [(1, 2^520), (2, 2^520)] [] [])) =
    some (Answer.response 6 0, 0, (1, 1)) := by decide +kernel

/-- `SQR m3, m1` on M[1] = -9. -/
theorem test_sqr :
    seen (fun t => (t.answer, t.readM 3)) (run 0x1331000000000000
      (mk [(1, -9)] [] [])) =
    some (Answer.response 0 0, 81) := by decide +kernel

/-- `SQR m3, m1` on M[1] = 0xFFFFFFFFFFFFFFFF. -/
theorem test_sqr_more :
    seen (fun t => (t.answer, t.readM 3)) (run 0x1331000000000000
      (mk [(1, 0xFFFFFFFFFFFFFFFF)] [] [])) =
    some (Answer.response 0 0, 0xFFFFFFFFFFFFFFFE0000000000000001) := by decide +kernel

/-- `DIV m3, m1, m2` on M[1] = -7, M[2] = 2. -/
theorem test_div :
    seen (fun t => (t.answer, t.readM 3)) (run 0x1431200000000000
      (mk [(1, -7), (2, 2)] [] [])) =
    some (Answer.response 0 0, -3) := by decide +kernel

/-- `DIV m3, m1, m2` on M[1] = 7, M[2] = 0. -/
theorem test_div_more :
    seen (fun t => (t.answer, t.errinfo, t.readM 3)) (run 0x1431200000000000
      (mk [(1, 7), (2, 0)] [] [])) =
    some (Answer.response 5 0, 0, 0) := by decide +kernel

/-- `MOD m3, m1, m2` on M[1] = -7, M[2] = 2. -/
theorem test_mod :
    seen (fun t => (t.answer, t.readM 3)) (run 0x1531200000000000
      (mk [(1, -7), (2, 2)] [] [])) =
    some (Answer.response 0 0, 1) := by decide +kernel

/-- `MOD m3, m1, m2` on M[1] = 7, M[2] = 0. -/
theorem test_mod_more :
    seen (fun t => (t.answer, t.errinfo, t.readM 3)) (run 0x1531200000000000
      (mk [(1, 7), (2, 0)] [] [])) =
    some (Answer.response 5 0, 0, 0) := by decide +kernel

/-- `DIVREM m4, m5, m1, m2` on M[1] = -7, M[2] = 2. -/
theorem test_divrem :
    seen (fun t => (t.answer, t.readM 4, t.readM 5)) (run 0x1645120000000000
      (mk [(1, -7), (2, 2)] [] [])) =
    some (Answer.response 0 0, -3, -1) := by decide +kernel

/-- `DIVREM m4, m5, m1, m2` on M[1] = 2^256 - 1, M[2] = 2^130 + 12345. -/
theorem test_divrem_more :
    seen (fun t => (t.answer, t.readM 4, t.readM 5)) (run 0x1645120000000000
      (mk [(1, 2^256 - 1), (2, 2^130 + 12345)] [] [])) =
    some (Answer.response 0 0, 0x3FFFFFFFFFFFFFFFFFFFFFFFFFFFFCFC, 0x1C0000000000000000000000000916BE3) := by decide +kernel

/-- `MODINV m3, m1, m2` on M[1] = 3, M[2] = 10, M[3] = 99. -/
theorem test_modinv :
    seen (fun t => (t.answer, t.readM 3)) (run 0x1731200000000000
      (mk [(1, 3), (2, 10), (3, 99)] [] [])) =
    some (Answer.response 0 0, 7) := by decide +kernel

/-- `MODINV m3, m1, m2` on M[1] = 4, M[2] = 6, M[3] = 99. -/
theorem test_modinv_more :
    seen (fun t => (t.answer, t.errinfo, t.readM 3)) (run 0x1731200000000000
      (mk [(1, 4), (2, 6), (3, 99)] [] [])) =
    some (Answer.response 4 0, 2, 99) := by decide +kernel

/-- `SHL m2, m1, #-1` on M[1] = 1. -/
theorem test_shl :
    seen (fun t => (t.answer, t.readM 2)) (run 0x18210000FFFFFFFF
      (mk [(1, 1)] [] [])) =
    some (Answer.response 0 0, 0) := by decide +kernel

/-- `SHL m2, m1, #1040` on M[1] = 1. -/
theorem test_shl_more :
    seen (fun t => (t.answer, t.errinfo, (t.status, t.cseq))) (run 0x1821000000000410
      (mk [(1, 1)] [] [])) =
    some (Answer.response 6 0, 0, (1, 1)) := by decide +kernel

/-- `SHR m2, m1, #1` on M[1] = -5. -/
theorem test_shr :
    seen (fun t => (t.answer, t.readM 2)) (run 0x1921000000000001
      (mk [(1, -5)] [] [])) =
    some (Answer.response 0 0, -2) := by decide +kernel

/-- `SHR m2, m1, #-2` on M[1] = 6. -/
theorem test_shr_more :
    seen (fun t => (t.answer, t.readM 2)) (run 0x19210000FFFFFFFE
      (mk [(1, 6)] [] [])) =
    some (Answer.response 0 0, 24) := by decide +kernel

/-- `CMP m1, m2` on M[1] = -7, M[2] = 3. -/
theorem test_cmp :
    seen (fun t => (t.answer)) (run 0x2001200000000000
      (mk [(1, -7), (2, 3)] [] [])) =
    some (Answer.response 0 0xFFFFFFFF) := by decide +kernel

/-- `CMP m1, m2` on M[1] = 0x4000000, M[2] = 0x3FFFFFF. -/
theorem test_cmp_more :
    seen (fun t => (t.answer)) (run 0x2001200000000000
      (mk [(1, 0x4000000), (2, 0x3FFFFFF)] [] [])) =
    some (Answer.response 0 1) := by decide +kernel

/-- `ISEVEN m1` on M[1] = 10. -/
theorem test_iseven :
    seen (fun t => (t.answer)) (run 0x2101000000000000
      (mk [(1, 10)] [] [])) =
    some (Answer.response 0 1) := by decide +kernel

/-- `ISEVEN m1` on M[1] = -3. -/
theorem test_iseven_more :
    seen (fun t => (t.answer)) (run 0x2101000000000000
      (mk [(1, -3)] [] [])) =
    some (Answer.response 0 0) := by decide +kernel

/-- `TESTBIT m1, #26` on M[1] = 0x4000000. -/
theorem test_testbit :
    seen (fun t => (t.answer)) (run 0x220100000000001A
      (mk [(1, 0x4000000)] [] [])) =
    some (Answer.response 0 1) := by decide +kernel

/-- `TESTBIT m1, #1` on M[1] = -5. -/
theorem test_testbit_more :
    seen (fun t => (t.answer)) (run 0x2201000000000001
      (mk [(1, -5)] [] [])) =
    some (Answer.response 0 0) := by decide +kernel

/-- `BITLEN m1` on M[1] = -256. -/
theorem test_bitlen :
    seen (fun t => (t.answer)) (run 0x2301000000000000
      (mk [(1, -256)] [] [])) =
    some (Answer.response 0 9) := by decide +kernel

/-- `BITLEN m1` on M[1] = ROM.p. -/
theorem test_bitlen_more :
    seen (fun t => (t.answer)) (run 0x2301000000000000
      (mk [(1, Rom.p)] [] [])) =
    some (Answer.response 0 0x100) := by decide +kernel

/-- `FROMBU m1, [0x10, 3]` on BUF[0x10..] = 00 00 01, M[1] = 99. -/
theorem test_frombu :
    seen (fun t => (t.answer, t.readM 1)) (run 0x2810000000030010
      (mk [(1, 99)] [] [(0x10, [0x00, 0x00, 0x01])])) =
    some (Answer.response 0 0, 1) := by decide +kernel

/-- `FROMBU m1, [0xFFF, 2]` on M[1] = 99. -/
theorem test_frombu_more :
    seen (fun t => (t.answer, t.errinfo, (t.status, t.cseq))) (run 0x2810000000020FFF
      (mk [(1, 99)] [] [])) =
    some (Answer.response 7 0, 1, (1, 1)) := by decide +kernel

/-- `TOBU m1, [0x20, 4]` on M[1] = 255. -/
theorem test_tobu :
    seen (fun t => (t.answer, t.memRead 0x20 1)) (run 0x2901000000040020
      (mk [(1, 255)] [] [])) =
    some (Answer.response 0 1, [0xFF]) := by decide +kernel

/-- `TOBU m1, [0x20, 4]` on M[1] = -256. -/
theorem test_tobu_more :
    seen (fun t => (t.answer, t.memRead 0x20 2)) (run 0x2901000000040020
      (mk [(1, -256)] [] [])) =
    some (Answer.response 0 2, [0x01, 0x00]) := by decide +kernel

/-- `FROMBS m1, [0x10, 2]` on BUF[0x10..] = 80 80, M[1] = 99. -/
theorem test_frombs :
    seen (fun t => (t.answer, t.readM 1)) (run 0x2A10000000020010
      (mk [(1, 99)] [] [(0x10, [0x80, 0x80])])) =
    some (Answer.response 0 0, -128) := by decide +kernel

/-- `FROMBS m1, [0x10, 3]` on BUF[0x10..] = 80 00 01, M[1] = 99. -/
theorem test_frombs_more :
    seen (fun t => (t.answer, t.readM 1)) (run 0x2A10000000030010
      (mk [(1, 99)] [] [(0x10, [0x80, 0x00, 0x01])])) =
    some (Answer.response 0 0, -1) := by decide +kernel

/-- `TOBS m1, [0x20, 4]` on M[1] = -128. -/
theorem test_tobs :
    seen (fun t => (t.answer, t.memRead 0x20 2)) (run 0x2B01000000040020
      (mk [(1, -128)] [] [])) =
    some (Answer.response 0 2, [0x80, 0x80]) := by decide +kernel

/-- `TOBS m1, [0x20, 4]` on M[1] = -256. -/
theorem test_tobs_more :
    seen (fun t => (t.answer, t.memRead 0x20 2)) (run 0x2B01000000040020
      (mk [(1, -256)] [] [])) =
    some (Answer.response 0 2, [0x81, 0x00]) := by decide +kernel

/-- `PARSE m1, r=16, [0x40, 3]` on BUF[0x40..] = "-ff", M[1] = 99. -/
theorem test_parse :
    seen (fun t => (t.answer, t.readM 1)) (run 0x2C10001000030040
      (mk [(1, 99)] [] [(0x40, [0x2D, 0x66, 0x66])])) =
    some (Answer.response 0 0, -255) := by decide +kernel

/-- `PARSE m1, r=10, [0x40, 3]` on BUF[0x40..] = "12a", M[1] = 99. -/
theorem test_parse_more :
    seen (fun t => (t.answer, t.errinfo, t.readM 1)) (run 0x2C10000A00030040
      (mk [(1, 99)] [] [(0x40, [0x31, 0x32, 0x61])])) =
    some (Answer.response 1 0, 2, 99) := by decide +kernel

/-- `TOSTR m1, r=16, [0x60, 32]` on M[1] = -255. -/
theorem test_tostr :
    seen (fun t => (t.answer, t.memRead 0x60 3)) (run 0x2D01001000200060
      (mk [(1, -255)] [] [])) =
    some (Answer.response 0 3, [0x2D, 0x66, 0x66]) := by decide +kernel

/-- `TOSTR m1, r=10, [0x60, 4]` on M[1] = 65535. -/
theorem test_tostr_more :
    seen (fun t => (t.answer, t.errinfo, t.buf)) (run 0x2D01000A00040060
      (mk [(1, 65535)] [] [])) =
    some (Answer.response 7 0, 2, []) := by decide +kernel

/-- `FADD m3, m1, m2, m4` on M[1] = -1, M[2] = 0, M[4] = 7, M[3] = 99. -/
theorem test_fadd :
    seen (fun t => (t.answer, t.readM 3)) (run 0x3031240000000000
      (mk [(1, -1), (2, 0), (4, 7), (3, 99)] [] [])) =
    some (Answer.response 0 0, 6) := by decide +kernel

/-- `FADD m3, m1, m2, m4` on M[1] = 3, M[2] = 5, M[4] = 0, M[3] = 99. -/
theorem test_fadd_more :
    seen (fun t => (t.answer, t.errinfo, t.readM 3)) (run 0x3031240000000000
      (mk [(1, 3), (2, 5), (4, 0), (3, 99)] [] [])) =
    some (Answer.response 5 0, 0, 99) := by decide +kernel

/-- `FSUB m3, m1, m2, m4` on M[1] = 3, M[2] = 5, M[4] = 7, M[3] = 99. -/
theorem test_fsub :
    seen (fun t => (t.answer, t.readM 3)) (run 0x3131240000000000
      (mk [(1, 3), (2, 5), (4, 7), (3, 99)] [] [])) =
    some (Answer.response 0 0, 5) := by decide +kernel

/-- `FSUB m3, m1, m2, m4` on M[1] = 1, M[2] = 2, M[4] = ROM.p, M[3] = 99. -/
theorem test_fsub_more :
    seen (fun t => (t.answer, t.readM 3)) (run 0x3131240000000000
      (mk [(1, 1), (2, 2), (4, Rom.p), (3, 99)] [] [])) =
    some (Answer.response 0 0, (Rom.p - 1 : Int)) := by decide +kernel

/-- `FMUL m3, m1, m2, m4` on M[1] = -3, M[2] = 5, M[4] = 7, M[3] = 99. -/
theorem test_fmul :
    seen (fun t => (t.answer, t.readM 3)) (run 0x3231240000000000
      (mk [(1, -3), (2, 5), (4, 7), (3, 99)] [] [])) =
    some (Answer.response 0 0, 6) := by decide +kernel

/-- `FSQR m3, m1, m4` on M[1] = ROM.p - 1, M[4] = ROM.p, M[3] = 99. -/
theorem test_fsqr :
    seen (fun t => (t.answer, t.readM 3)) (run 0x3331040000000000
      (mk [(1, Rom.p - 1), (4, Rom.p), (3, 99)] [] [])) =
    some (Answer.response 0 0, 1) := by decide +kernel

/-- `FDIV m3, m1, m2, m4` on M[1] = 6, M[2] = 3, M[4] = 7, M[3] = 99. -/
theorem test_fdiv :
    seen (fun t => (t.answer, t.readM 3)) (run 0x3431240000000000
      (mk [(1, 6), (2, 3), (4, 7), (3, 99)] [] [])) =
    some (Answer.response 0 0, 2) := by decide +kernel

/-- `FDIV m3, m1, m2, m4` on M[1] = 3, M[2] = 2, M[4] = 6, M[3] = 99. -/
theorem test_fdiv_more :
    seen (fun t => (t.answer, t.errinfo, t.readM 3)) (run 0x3431240000000000
      (mk [(1, 3), (2, 2), (4, 6), (3, 99)] [] [])) =
    some (Answer.response 4 0, 2, 99) := by decide +kernel

/-- `FEQ m1, m2, m3, m4` on M[1] = 3, M[2] = 7, M[3] = 10, M[4] = 7. -/
theorem test_feq :
    seen (fun t => (t.answer)) (run 0x3512340000000000
      (mk [(1, 3), (2, 7), (3, 10), (4, 7)] [] [])) =
    some (Answer.response 0 1) := by decide +kernel

/-- `FEQ m1, m2, m3, m4` on M[1] = 3, M[2] = 7, M[3] = 3, M[4] = -7. -/
theorem test_feq_more :
    seen (fun t => (t.answer)) (run 0x3512340000000000
      (mk [(1, 3), (2, 7), (3, 3), (4, -7)] [] [])) =
    some (Answer.response 0 0) := by decide +kernel

/-- `PINF p1` on P[1] = G. -/
theorem test_pinf :
    seen (fun t => (t.answer, t.readP 1)) (run 0x4010000000000000
      (mk [] [(1, pG)] [])) =
    some (Answer.response 0 0, .inf) := by decide +kernel

/-- `PGEN p1` on reset state. -/
theorem test_pgen :
    seen (fun t => (t.answer, t.readP 1)) (run 0x4110000000000000
      State.reset) =
    some (Answer.response 0 0, pG) := by decide +kernel

/-- `PGEN p8` on reset state. -/
theorem test_pgen_more :
    seen (fun t => (t.answer, t.errinfo, (t.status, t.cseq))) (run 0x4180000000000000
      State.reset) =
    some (Answer.response 9 0, 3, (1, 1)) := by decide +kernel

/-- `PSETA p1, m1, m2` on M[1] = 1, M[2] = 2. -/
theorem test_pseta :
    seen (fun t => (t.answer, t.readP 1)) (run 0x4211200000000000
      (mk [(1, 1), (2, 2)] [] [])) =
    some (Answer.response 0 0, .aff 1 2) := by decide +kernel

/-- `PSETA p1, m1, m2` on M[1] = ROM.p, M[2] = 2. -/
theorem test_pseta_more :
    seen (fun t => (t.answer, t.errinfo, t.readP 1)) (run 0x4211200000000000
      (mk [(1, Rom.p), (2, 2)] [] [])) =
    some (Answer.response 2 0, 2, .inf) := by decide +kernel

/-- `PMOV p2, p1` on P[1] = Aff(1, 2). -/
theorem test_pmov :
    seen (fun t => (t.answer, t.readP 1, t.readP 2)) (run 0x4321000000000000
      (mk [] [(1, .aff 1 2)] [])) =
    some (Answer.response 0 0, .aff 1 2, .aff 1 2) := by decide +kernel

/-- `PISINF p1` on P[1] = Inf. -/
theorem test_pisinf :
    seen (fun t => (t.answer)) (run 0x4401000000000000
      (mk [] [(1, .inf)] [])) =
    some (Answer.response 0 1) := by decide +kernel

/-- `PISINF p1` on P[1] = Aff(0, 0). -/
theorem test_pisinf_more :
    seen (fun t => (t.answer)) (run 0x4401000000000000
      (mk [] [(1, .aff 0 0)] [])) =
    some (Answer.response 0 0) := by decide +kernel

/-- `PGETX m1, p1` on P[1] = Aff(1, 2), M[1] = 99. -/
theorem test_pgetx :
    seen (fun t => (t.answer, t.readM 1)) (run 0x4511000000000000
      (mk [(1, 99)] [(1, .aff 1 2)] [])) =
    some (Answer.response 0 0, 1) := by decide +kernel

/-- `PGETX m1, p1` on P[1] = Inf, M[1] = 99. -/
theorem test_pgetx_more :
    seen (fun t => (t.answer, t.errinfo, t.readM 1)) (run 0x4511000000000000
      (mk [(1, 99)] [(1, .inf)] [])) =
    some (Answer.response 8 0, 2, 99) := by decide +kernel

/-- `PGETY m1, p1` on P[1] = Aff(1, 2), M[1] = 99. -/
theorem test_pgety :
    seen (fun t => (t.answer, t.readM 1)) (run 0x4611000000000000
      (mk [(1, 99)] [(1, .aff 1 2)] [])) =
    some (Answer.response 0 0, 2) := by decide +kernel

/-- `PGETY m1, p1` on P[1] = Inf, M[1] = 99. -/
theorem test_pgety_more :
    seen (fun t => (t.answer, t.errinfo, t.readM 1)) (run 0x4611000000000000
      (mk [(1, 99)] [(1, .inf)] [])) =
    some (Answer.response 8 0, 2, 99) := by decide +kernel

/-- `PEQ p1, p2` on P[1] = Inf, P[2] = Inf. -/
theorem test_peq :
    seen (fun t => (t.answer)) (run 0x4701200000000000
      (mk [] [(1, .inf), (2, .inf)] [])) =
    some (Answer.response 0 1) := by decide +kernel

/-- `PEQ p1, p2` on P[1] = G, P[2] = -G. -/
theorem test_peq_more :
    seen (fun t => (t.answer)) (run 0x4701200000000000
      (mk [] [(1, pG), (2, pNegG)] [])) =
    some (Answer.response 0 0) := by decide +kernel

/-- `PNEG p2, p1` on P[1] = Aff(1, 2). -/
theorem test_pneg :
    seen (fun t => (t.answer, t.readP 2)) (run 0x4821000000000000
      (mk [] [(1, .aff 1 2)] [])) =
    some (Answer.response 0 0, .aff 1 (Rom.p - 2)) := by decide +kernel

/-- `PNEG p2, p1` on P[1] = Aff(5, 0). -/
theorem test_pneg_more :
    seen (fun t => (t.answer, t.readP 2)) (run 0x4821000000000000
      (mk [] [(1, .aff 5 0)] [])) =
    some (Answer.response 0 0, .aff 5 0) := by decide +kernel

/-- `PADD p3, p1, p2` on P[1] = G, P[2] = -G, P[3] = Aff(1, 2). -/
theorem test_padd :
    seen (fun t => (t.answer, t.readP 3)) (run 0x4931200000000000
      (mk [] [(1, pG), (2, pNegG), (3, .aff 1 2)] [])) =
    some (Answer.response 0 0, .inf) := by decide +kernel

/-- `PADD p3, p1, p2` on P[1] = G, P[2] = 2G, P[3] = Aff(1, 2). -/
theorem test_padd_more :
    seen (fun t => (t.answer, t.readP 3)) (run 0x4931200000000000
      (mk [] [(1, pG), (2, p2G), (3, .aff 1 2)] [])) =
    some (Answer.response 0 0, p3G) := by decide +kernel

/-- `PDBL p3, p1` on P[1] = G, P[3] = Aff(1, 2). -/
theorem test_pdbl :
    seen (fun t => (t.answer, t.readP 3)) (run 0x4A31000000000000
      (mk [] [(1, pG), (3, .aff 1 2)] [])) =
    some (Answer.response 0 0, p2G) := by decide +kernel

/-- `PDBL p3, p1` on P[1] = Aff(5, 0), P[3] = Aff(1, 2). -/
theorem test_pdbl_more :
    seen (fun t => (t.answer, t.readP 3)) (run 0x4A31000000000000
      (mk [] [(1, .aff 5 0), (3, .aff 1 2)] [])) =
    some (Answer.response 0 0, .inf) := by decide +kernel

/-- `PMUL p2, p1, m1` on P[1] = G, M[1] = 7, P[2] = Aff(1, 2). -/
theorem test_pmul :
    seen (fun t => (t.answer, t.readP 2)) (run 0x4B21100000000000
      (mk [(1, 7)] [(1, pG), (2, .aff 1 2)] [])) =
    some (Answer.response 0 0, p7G) := by decide +kernel

/-- `PMUL p2, p1, m1` on P[1] = G, M[1] = -1, P[2] = Aff(1, 2). -/
theorem test_pmul_more :
    seen (fun t => (t.answer, t.errinfo, t.readP 2)) (run 0x4B21100000000000
      (mk [(1, -1)] [(1, pG), (2, .aff 1 2)] [])) =
    some (Answer.response 8 0, 3, .aff 1 2) := by decide +kernel

/-- `PMUL2 p3, p1, m0, p2, m1` on P[1] = G, M[0] = 3, P[2] = 2G, M[1] = 2, P[3] = Aff(1, 2). -/
theorem test_pmul2 :
    seen (fun t => (t.answer, t.readP 3)) (run 0x4C31020100000000
      (mk [(0, 3), (1, 2)] [(1, pG), (2, p2G), (3, .aff 1 2)] [])) =
    some (Answer.response 0 0, p7G) := by decide +kernel

/-- `PMUL2 p3, p1, m0, p2, m1` on P[1] = G, M[0] = -1, P[2] = G, M[1] = 1, P[3] = Aff(1, 2). -/
theorem test_pmul2_more :
    seen (fun t => (t.answer, t.errinfo, t.readP 3)) (run 0x4C31020100000000
      (mk [(0, -1), (1, 1)] [(1, pG), (2, pG), (3, .aff 1 2)] [])) =
    some (Answer.response 8 0, 3, .aff 1 2) := by decide +kernel

/-- `PENC p1, c=1, [0x100, 33]` on P[1] = G (y even). -/
theorem test_penc :
    seen (fun t => (t.answer, t.memRead 0x100 1, t.memRead 0x101 32)) (run 0x4D01000100210100
      (mk [] [(1, pG)] [])) =
    some (Answer.response 0 0x21, [0x02], be32 Rom.gx) := by decide +kernel

/-- `PENC p1, c=0, [0xFC0, 65]` on P[1] = G. -/
theorem test_penc_more :
    seen (fun t => (t.answer, t.errinfo, (t.status, t.cseq))) (run 0x4D01000000410FC0
      (mk [] [(1, pG)] [])) =
    some (Answer.response 7 0, 1, (1, 1)) := by decide +kernel

/-- `PDEC p1, [0, 65]` on BUF[0..64] = 06 ‖ be32(Gx) ‖ be32(Gy). -/
theorem test_pdec :
    seen (fun t => (t.answer, t.readP 1)) (run 0x4E10000000410000
      (mk [] [] [(0, [0x06] ++ be32 Rom.gx ++ be32 Rom.gy)])) =
    some (Answer.response 0 0, pG) := by decide +kernel

/-- `PDEC p1, [0, 2]` on BUF[0..1] = 00 00, P[1] = G. -/
theorem test_pdec_more :
    seen (fun t => (t.answer, t.errinfo, t.readP 1)) (run 0x4E10000000020000
      (mk [] [(1, pG)] [(0, [0x00, 0x00])])) =
    some (Answer.response 1 0, 4, pG) := by decide +kernel

/-- `PDECHEX p1, [0x200, 130]` on BUF[0x200..] = "04" ‖ hex(Gx) ‖ hex(Gy), lowercase. -/
theorem test_pdechex :
    seen (fun t => (t.answer, t.readP 1)) (run 0x4F10000000820200
      (mk [] [] [(0x200, [0x30, 0x34] ++ hex64 Rom.gx ++ hex64 Rom.gy)])) =
    some (Answer.response 0 0, pG) := by decide +kernel

/-- `PDECHEX p1, [0x200, 4]` on BUF[0x200..] = "04g1". -/
theorem test_pdechex_more :
    seen (fun t => (t.answer, t.errinfo, t.readP 1)) (run 0x4F10000000040200
      (mk [] [] [(0x200, [0x30, 0x34, 0x67, 0x31])])) =
    some (Answer.response 1 0, 2, .inf) := by decide +kernel

/-- `PVALID p1` on P[1] = G. -/
theorem test_pvalid :
    seen (fun t => (t.answer)) (run 0x5001000000000000
      (mk [] [(1, pG)] [])) =
    some (Answer.response 0 1) := by decide +kernel

/-- `PVALID p1` on P[1] = Aff(1, 2). -/
theorem test_pvalid_more :
    seen (fun t => (t.answer, t.errinfo)) (run 0x5001000000000000
      (mk [] [(1, .aff 1 2)] [])) =
    some (Answer.response 2 0, 3) := by decide +kernel

/-- A command while in fault (60_exceptions.md R265). -/
theorem test_reject : seen (fun t => (t.answer, t.cseq, t.readM 3)) (run 0x1031200000000000
      { State.reset with status := 1, errcode := 9, errinfo := 1, cseq := 4 }) = some (.response 0xFF 0, 5, 0) := by
  decide +kernel

/-- The chunk table of 43_mpi_convert.md R178 and the counts of 45_point_arith.md R216. -/
theorem test_datapath_tables :
    [3, 5, 7, 10, 26, 36].map Datapath.chunkSize = [16, 11, 9, 7, 5, 5] ∧
    (Datapath.pmulIterations 0x1111111111111111111111111111111111111111111111111111111111111111,
      Datapath.pmulAdditions 0x1111111111111111111111111111111111111111111111111111111111111111) = (252, 63) := by
  decide +kernel

/-- The least engine that 00_scope.md R5 allows: 260 bits a register, one byte of `BUF`. -/
def least : Config.Params := ⟨10, 1, by decide, by decide, by decide, by decide⟩

/-- One step of that engine, which takes this command. -/
def runLeast (w : CmdWord) (s : State) : Outcome := hand (stepAt least) (.command w) s

/-- `2^260 - 1` is the largest value of that engine (R5, R15). -/
theorem test_least_capacity :
    seen (fun t => (t.answer, t.errinfo)) (runLeast 0x1031200000000000 (mk [(1, 2 ^ 260 - 1), (2, 1)] [] [])) = some (Answer.response 6 0, 0) ∧
    seen (fun t => (t.answer, t.readM 3)) (runLeast 0x1031200000000000 (mk [(1, 2 ^ 260 - 2), (2, 1)] [] [])) =
      some (Answer.response 0 0, (2 ^ 260 - 1 : Int)) := by decide +kernel

/-- Byte 0 is the one byte of its buffer (R5; 20_memory.md R66). -/
theorem test_least_buffer :
    seen (fun t => (t.answer, t.errinfo)) (runLeast 0x2810000000020000 State.reset) =
      some (Answer.response 7 0, 1) ∧
    seen (fun t => (t.answer, t.memRead 0 1)) (runLeast 0x2901000000010000 (mk [(1, 255)] [] [])) =
      some (Answer.response 0 1, [0xFF]) := by decide +kernel

/-! ## A witness for every statement with hypotheses: the hypotheses of each clause, at a boundary of their range -/

/-- An engine in fault. -/
def faulted : State := { State.reset with status := 1, errcode := 5, cseq := 1 }

/-- An engine whose registers and buffer hold something. -/
def busy : State := mk [(1, 7), (2, 0), (3, -128)] [(1, pG)] [(4095, [0x80])]

/-- `CanonicalPoint`, evaluated. -/
def canonicalB : Point → Bool
  | .inf => true
  | .aff x y => decide (x < Rom.p) && decide (y < Rom.p)

theorem canonical_of {A : Point} (h : canonicalB A = true) : CanonicalPoint A := by
  cases A <;> simp_all [canonicalB, CanonicalPoint]

theorem busy_inv : Inv Config.params busy where
  fits := by decide +kernel
  points := fun r => canonical_of ((by decide +kernel : ∀ r, canonicalB (busy.readP r) = true) r)
  buf := by decide +kernel
  status := by decide +kernel
  noError := by decide +kernel
  anError := by decide +kernel
  curve := by decide +kernel

theorem witness_DecodeOfEncode : Instr.wf (.parse 15 2 ⟨0xFFFF, 0xFFFF⟩) = true ∧
    Instr.wf (.tostr 15 36 ⟨0, 0⟩) = true ∧ Instr.wf (.divrem 0 15 0 15) = true := by decide

theorem witness_EncodeOfDecode : ∃ i, decodeWord 0x4C7F0F0F00000000 = .ok i ∨ decodeWord 0x4C77F70F00000000 = .ok i :=
  ⟨_, Or.inr rfl⟩

theorem witness_OpcodeTableSelects : (∀ x ∈ ([("PARSE", 0x2CF0000200000000), ("TOSTR", 0x2D0F0024FFFFFFFF),
      ("LDCP", 0x03F0000600000000), ("DIVREM", 0x160F120000000000)] : List (String × CmdWord)),
    ∃ row ∈ opcodeTable, row.mnemonic = x.1 ∧ x.2 &&& row.mask = row.pattern ∧ rangeLine row x.2 = none) ∧
    decodeWord 0x160F120000000000 = .ok (.divrem 0 15 1 2) := by decide +kernel

theorem witness_IllegalWords : busy.inFault = false ∧ illegalLine 0x3600000000000000 = some 1 ∧
    illegalLine 0x0100000000000001 = some 2 ∧ illegalLine 0x4080000000000000 = some 3 ∧
    illegalLine 0x2C10002500000000 = some 4 ∧ illegalLine 0x1600000000000000 = some 5 ∧
    illegalLine 0x4070000000000000 = none := by decide +kernel

theorem witness_StepRunsCommand : State.input { busy with input := some .reset } = some .reset ∧ busy.input = none ∧
    (State.input { busy with input := some (.command 0x1031200000000000) } = some (.command 0x1031200000000000) ∧
      decodeWord 0x1031200000000000 = .ok (.add 3 1 2)) ∧
    (State.input { busy with input := some (.command 0xFFFFFFFFFFFFFFFF) } = some (.command 0xFFFFFFFFFFFFFFFF) ∧
      illegalLine 0xFFFFFFFFFFFFFFFF = some 1 ∧ busy.inFault = false) ∧
    (State.input { faulted with input := some (.command 0x0100000000000001) } = some (.command 0x0100000000000001) ∧
      illegalLine 0x0100000000000001 = some 2 ∧ faulted.inFault = true) := by decide +kernel

theorem witness_CommandStep : faulted.inFault = true ∧ (0x0100000000000001 : CmdWord) ≠ clrerrWord ∧
    busy.inFault = false ∧ illegalLine 0x0100000000000001 = some 2 ∧ illegalLine clrerrWord = none := by decide +kernel

theorem witness_RejectionWhileInFault :
    faulted.inFault = true ∧ (0 : CmdWord) ≠ clrerrWord ∧ 4095 < Config.params.bufsz := by
  decide

theorem witness_ClrerrClears : (Inv Config.params busy ∧ busy.inFault = false) ∧
    (0x0100000000000001 : CmdWord).extractLsb' 56 8 = 0x01 ∧ (0x0100000000000001 : CmdWord) ≠ clrerrWord ∧
    faulted.inFault = true := ⟨⟨busy_inv, rfl⟩, by decide⟩

theorem witness_FailedCommandChanges : ∃ t, command 0x1431200000000000 busy = .next t ∧ busy.inFault = false ∧
    t.inFault = true := ⟨_, rfl, rfl, rfl⟩

theorem witness_ResponseRecord : (∃ t, command 0x1031200000000000 busy = .next t ∧ t.inFault = false) ∧
    (∃ t, command 0x1600000000000000 busy = .next t ∧ t.inFault = true) ∧
    (∃ t, command 0x1031200000000000 faulted = .next t ∧ t.cseq = 2) ∧
    ∃ t, command clrerrWord faulted = .next t ∧ t.inFault = false := ⟨⟨_, rfl, rfl⟩, ⟨_, rfl, rfl⟩, ⟨_, rfl, rfl⟩, _, rfl, rfl⟩

theorem witness_CommandCount : (∃ t, command 0 { busy with cseq := 0xFFFFFFFF } = .next t ∧ t.cseq = 0) ∧
    (∃ t, bufWrite Config.params 4095 1 busy = .next t) ∧ (∃ t, bufRead Config.params 4095 busy = .next t) ∧ ∃ t, csrRead 6 busy = .next t :=
  ⟨⟨_, rfl, rfl⟩, ⟨_, rfl⟩, ⟨_, rfl⟩, _, rfl⟩

theorem witness_CommandFrame :
    (∃ t, exec (.tobs 3 ⟨0x20, 2⟩) busy = .next t ∧ 3 ∉ mDests (.tobs 3 ⟨0x20, 2⟩) ∧ t.answer = .response 0 t.res ∧
      t.res = 2 ∧ 0x1F < (0x20 : BitVec 16).toNat ∧ (0x20 : BitVec 16).toNat + t.res.toNat ≤ 0x22) ∧
    (∃ t, exec (.divrem 4 5 1 3) busy = .next t ∧ 3 ∉ mDests (.divrem 4 5 1 3) ∧ writesRes (.divrem 4 5 1 3) = false ∧
      outArg (.divrem 4 5 1 3) = none ∧ t.answer = .response 0 t.res) ∧
    (∃ t, exec (.pdbl 2 1) busy = .next t ∧ 1 ∉ pDests (.pdbl 2 1)) ∧
    (∀ id, Instr.pinf 0 ≠ .curve id) ∧ Instr.pinf 0 ≠ .clrerr :=
  ⟨⟨_, rfl, by decide, rfl, rfl, by decide, by decide⟩, ⟨_, rfl, by decide, rfl, rfl, rfl⟩,
    ⟨_, rfl, by decide⟩, by simp, by decide⟩

theorem witness_BufferReads : (∀ arg, inArg (.frombu 0 ⟨4095, 1⟩) = some arg → ∀ a, arg.addr.toNat ≤ a →
      a < arg.addr.toNat + arg.len.toNat →
      Engine.readByte { busy.toEngine with buf := [(4094, 1), (4095, 0x80)] } a = busy.readByte a) ∧
    (∃ t, exec (.frombu 0 ⟨4095, 1⟩) busy = .next t) ∧
    (∃ u, exec (.frombu 0 ⟨4095, 1⟩)
      { busy with buf := [(4094, 1), (4095, 0x80)], input := some .reset, answer := .done } = .next u) ∧
    inArg (.add 0 1 2) = none := by
  refine ⟨fun arg h a h1 h2 => ?_, ⟨_, rfl⟩, ⟨_, rfl⟩, rfl⟩
  obtain rfl : BufArg.mk 4095 1 = arg := by simpa [inArg] using h
  obtain rfl : a = 4095 := by
    change 4095 ≤ a at h1
    change a < 4095 + 1 at h2
    omega
  rfl

theorem witness_FaultIsSticky : (faulted.inFault = true ∧ Transaction.command 0 ≠ .command clrerrWord ∧
    Transaction.bufRead 4095 ≠ .reset ∧ (∃ t, transact (.command 0) faulted = .next t) ∧
    (∃ t, transact (.bufWrite 4095 1) faulted = .next t) ∧ (∃ t, transact (.bufRead 4095) faulted = .next t) ∧
    ∃ t, transact (.csrRead 6) faulted = .next t) ∧
    (busy.inFault = false ∧ (∃ t, command 0 busy = .next t ∧ t.inFault = true) ∧
      ∃ t, command 0x1031200000000000 busy = .next t ∧ t.inFault = false) :=
  ⟨⟨rfl, by decide, by decide, ⟨_, rfl⟩, ⟨_, rfl⟩, ⟨_, rfl⟩, _, rfl⟩, rfl, ⟨_, rfl, rfl⟩, _, rfl, rfl⟩

theorem witness_ErrorsRaised : Inv Config.params busy ∧ Instr.wf (.modinv 4 1 2) = true ∧ busy.inFault = false ∧
    ∃ t, exec (.modinv 4 1 2) busy = .next t ∧ t.inFault = true := ⟨busy_inv, rfl, rfl, _, rfl, rfl⟩

theorem witness_StepKeepsInvariant : ∃ s t : State, Inv Config.params s ∧ s.input ≠ none ∧ step s = .next t ∧ t.readM 3 = 7 :=
  ⟨{ busy with input := some (.command 0x1031200000000000) }, _,
    ⟨busy_inv.fits, busy_inv.points, busy_inv.buf, busy_inv.status, busy_inv.noError, busy_inv.anError, busy_inv.curve⟩,
    by decide, rfl, rfl⟩

theorem witness_TransactionsComplete :
    (∀ x ∈ State.input { busy with input := some (.bufWrite 4095 1) }, Legal Config.params x) ∧
    (∀ x ∈ State.input { busy with input := some (.csrRead 6) }, Legal Config.params x) ∧ Config.params.bufsz ≤ 4096 ∧
    State.input { busy with input := some (.bufRead 4096) } = some (.bufRead 4096) ∧
    State.input { busy with input := some (.bufWrite 4096 1) } = some (.bufWrite 4096 1) ∧
    6 < 7 ∧ State.input { busy with input := some (.csrRead 7) } = some (.csrRead 7) := by
  refine ⟨?_, ?_, by decide, rfl, rfl, by decide, rfl⟩
  · rintro x ⟨⟩
    exact (by decide : 4095 < Config.params.bufsz)
  · rintro x ⟨⟩
    exact (by decide : 6 ≤ 6)

theorem witness_DataTransactions : 4095 < Config.params.bufsz ∧ (4094 : Nat) ≠ 4095 := by decide

/-- Transactions that write no byte at 4095: a command, a `BufWrite` beside it, a `BufRead` of it. -/
theorem between_leaves (x : Transaction) (h : x ∈ [.command 0x2901000000010FFE, .bufWrite 4094 7, .bufRead 4095]) :
    Legal Config.params x ∧ Leaves 4095 x := by
  simp only [List.mem_cons, List.not_mem_nil, or_false] at h
  rcases h with rfl | rfl | rfl
  · refine ⟨trivial, fun i arg hi ho => ?_⟩
    rw [show decodeWord 0x2901000000010FFE = .ok (.tobu 1 ⟨0xFFE, 1⟩) from rfl] at hi
    cases hi
    cases ho
    exact Or.inr (by decide)
  · exact ⟨(by decide : 4094 < Config.params.bufsz), (by decide : (4094 : Nat) ≠ 4095)⟩
  · exact ⟨(by decide : 4095 < Config.params.bufsz), trivial⟩

theorem witness_BufferOrder : (4095 < Config.params.bufsz ∧
      (∀ x ∈ [.command 0x2901000000010FFE, .bufWrite 4094 7, .bufRead 4095], Legal Config.params x ∧ Leaves 4095 x) ∧
      0 < (BufArg.mk 4095 1).len.toNat ∧ (BufArg.mk 4095 1).addr.toNat + 0 = 4095) ∧
    (∃ t, hand step (.command 0x2B03000000020FFE) busy = .next t ∧ t.inFault = false ∧
      Wrote Config.params ⟨0xFFE, 2⟩ [0x80, 0x80] { busy with input := none } (.next t) ∧ 1 < [0x80, 0x80].length) := by
  refine ⟨⟨by decide, between_leaves, by decide, by decide⟩, _, rfl, rfl, ?_, by decide⟩
  rw [Wrote, if_neg (by decide), if_neg (by decide)]
  refine ⟨[(0xFFE, 0x80), (0xFFF, 0x80)], rfl, by decide +kernel, fun a ha => ?_⟩
  change a < 0xFFE ∨ 0xFFE + 2 ≤ a at ha
  simp only [Engine.readByte, Memory.find]
  rw [if_neg (by omega), if_neg (by omega)]
  rw [show busy.buf = [(0xFFF, 0x80)] from rfl, Memory.find, if_neg (by simp only; omega), Memory.find]

/-- The largest value of a register. -/
def full : State := mk [(1, 2 ^ 1040 - 1), (2, -(2 ^ 1040 - 1)), (3, 1), (4, 0)] [] []

theorem witness_SystemCommands : full.inFault = false ∧ Fits Config.params (full.readM 1) ∧ Fits Config.params (full.readM 2) := by decide +kernel

theorem witness_ExactArithmetic : full.inFault = false ∧ ¬ Fits Config.params (full.readM 1 + full.readM 3) ∧
    Fits Config.params (full.readM 1 + full.readM 4) := by decide +kernel

theorem witness_Division : full.inFault = false ∧ Fits Config.params (full.readM 1) ∧ Fits Config.params (full.readM 4) ∧ full.readM 4 = 0 ∧
    Fits Config.params (full.readM 2) ∧ full.readM 2 ≠ 0 ∧ (0 : MReg) ≠ 15 := by decide +kernel

theorem witness_DivisionIdentities : (-1 : Int) ≠ 0 ∧ (¬ ((0 : Int) ≤ -7 ∨ (2 : Int) ∣ -7)) ∧ (2 : Int) ∣ -6 := by decide

theorem witness_ModularInverse : full.inFault = false ∧ (Fits Config.params (full.readM 4) ∧ full.readM 4 = 0) ∧
    (Fits Config.params (full.readM 1) ∧ full.readM 1 ≠ 0 ∧ Int.gcd (full.readM 4) (full.readM 1) ≠ 1) ∧
    (Fits Config.params (full.readM 2) ∧ Int.gcd (full.readM 3) (full.readM 2) = 1 ∧
      (0 : Int) ≤ 1 ∧ 1 < |full.readM 2| ∧ full.readM 2 ∣ full.readM 3 * 1 - 1) := by decide +kernel

theorem witness_Shifts : full.inFault = false ∧ Fits Config.params (full.readM 2) ∧ 0 ≤ (0 : Word).toInt ∧
    (0xFFFFFFFF : Word).toInt < 0 ∧ (0x80000000 : Word).toInt < 0 := by decide +kernel

theorem witness_IntegerQueries : full.inFault = false ∧ (full.readM 2).natAbs < 2 ^ 1040 := by decide +kernel

theorem witness_ReadIntegers : busy.inFault = false ∧ ¬ InBuf Config.params ⟨4095, 2⟩ ∧ InBuf Config.params ⟨4095, 1⟩ ∧ InBuf Config.params ⟨4096, 0⟩ ∧
    bytesAt busy ⟨4095, 1⟩ = 0x80 :: [] := by decide +kernel

theorem witness_WriteIntegers : busy.inFault = false ∧
    ∀ x ∈ ([(127, 0x7F), (128, 0x80), (-127, 0x7F), (-128, 0x80)] : List (Int × Byte)),
      (mk [(1, x.1)] [] []).readM 1 = x.1 ∧ beSum [x.2] = x.1.natAbs ∧ [x.2].head? ≠ some 0 := by decide +kernel

theorem witness_DigitValues : ∀ x ∈ ([(0x30, some 0), (0x39, some 9), (0x61, some 10), (0x7A, some 35), (0x41, some 10),
      (0x5A, some 35), (0x2F, none), (0x3A, none), (0x40, none), (0x5B, none), (0x60, none), (0x7B, none), (0x00, none),
      (0xFF, none)] : List (Byte × Option Nat)), digitVal x.1 = x.2 := by decide

/-- Strings in the buffer: "-", "zZ", "-g", "-00". -/
def strings : State := mk [(1, -5), (2, 0)] [] [(0x10, [0x2D]), (0x20, [0x7A, 0x5A]), (0x30, [0x2D, 0x67]), (0x50, [0x2D, 0x30, 0x30])]

theorem witness_ParseStrings : strings.inFault = false ∧ (2 : Nat) ≤ 2 ∧ (36 : Nat) ≤ 36 ∧ ¬ InBuf Config.params ⟨0xFFFF, 0xFFFF⟩ ∧
    (InBuf Config.params ⟨0x10, 1⟩ ∧ bytesAt strings ⟨0x10, 1⟩ = 0x2D :: []) ∧
    (InBuf Config.params ⟨4096, 0⟩ ∧ bytesAt strings ⟨4096, 0⟩ = [] ∧ ([] : List Byte).head? ≠ some 0x2D) ∧
    (InBuf Config.params ⟨0x30, 2⟩ ∧ bytesAt strings ⟨0x30, 2⟩ = 0x2D :: [0x67] ∧ digitVal 0x67 = some 16) ∧
    (InBuf Config.params ⟨0x20, 2⟩ ∧ (bytesAt strings ⟨0x20, 2⟩).map digitVal = [35, 35].map some ∧
      (bytesAt strings ⟨0x20, 2⟩).head? ≠ some 0x2D) := by decide +kernel

theorem witness_RenderStrings : strings.inFault = false ∧ (2 : Nat) ≤ 36 ∧ strings.readM 1 ≠ 0 ∧ strings.readM 2 = 0 := by
  decide +kernel

theorem witness_IntegerRoundTrips : busy.inFault = false ∧ Fits Config.params (busy.readM 3) ∧
    (∃ t, exec (.tobu 3 ⟨4095, 1⟩) busy = .next t ∧ t.inFault = false) ∧
    (∃ t, exec (.tobs 3 ⟨4094, 2⟩) busy = .next t ∧ t.inFault = false) ∧
    ∃ t, exec (.frombu 0 ⟨4095, 1⟩) busy = .next t ∧ t.inFault = false :=
  ⟨rfl, by decide +kernel, ⟨_, rfl, rfl⟩, ⟨_, rfl, rfl⟩, _, rfl, rfl⟩

theorem witness_StringRoundTrip : busy.inFault = false ∧ Fits Config.params (busy.readM 3) ∧
    (∃ t, exec (.tostr 3 2 ⟨0, 9⟩) busy = .next t ∧ t.inFault = false) ∧
    (∃ t, exec (.tostr 3 36 ⟨4092, 4⟩) busy = .next t ∧ t.inFault = false) ∧
    (InBuf Config.params ⟨0x20, 2⟩ ∧ bytesAt strings ⟨0x20, 2⟩ = [0x7A, 0x5A] ∧ [35, 35].map some = [0x7A, 0x5A].map digitVal ∧
      (∃ t, exec (.parse 0 36 ⟨0x20, 2⟩) strings = .next t ∧ t.inFault = false)) ∧
    (InBuf Config.params ⟨0x50, 3⟩ ∧ bytesAt strings ⟨0x50, 3⟩ = [0x2D, 0x30, 0x30] ∧ [0, 0].map some = [0x30, 0x30].map digitVal ∧
      ∃ t, exec (.parse 0 2 ⟨0x50, 3⟩) strings = .next t ∧ t.inFault = false) :=
  ⟨rfl, by decide +kernel, ⟨_, rfl, rfl⟩, ⟨_, rfl, rfl⟩,
    ⟨by decide, by decide +kernel, by decide, _, rfl, by decide +kernel⟩,
    by decide, by decide +kernel, by decide, _, rfl, by decide +kernel⟩

theorem witness_FieldArithmetic : full.inFault = false ∧ (Fits Config.params (full.readM 4) ∧ full.readM 4 = 0) ∧
    (Fits Config.params (full.readM 2) ∧ full.readM 2 ≠ 0) := by decide +kernel

theorem witness_FieldDivideAndEquality : full.inFault = false ∧ full.readM 4 = 0 ∧
    (Fits Config.params (full.readM 2) ∧ full.readM 2 ≠ 0 ∧ Int.gcd (full.readM 4) (full.readM 2) ≠ 1) ∧
    full.readM 2 ∣ full.readM 3 * 1 - 1 := by decide +kernel

theorem witness_FieldLaws : full.inFault = false ∧ Fits Config.params (full.readM 2) ∧ full.readM 2 ≠ 0 ∧ (0 : MReg) ≠ 3 ∧
    (0 : MReg) ≠ 2 ∧ Int.gcd (full.readM 3) (full.readM 2) = 1 := by decide +kernel

/-- Coordinates at the ends of their range, in and out of it. -/
def coordinates : State :=
  mk [(1, -1), (2, Rom.p), (3, Rom.p - 1), (4, 0), (5, 1)]
    [(1, pG), (2, pNegG), (3, .aff (Rom.p - 1) 0), (4, p2G), (5, .aff 0 5), (6, .aff 1 2)] []

theorem witness_PointMoves : coordinates.inFault = false ∧ coordinates.readM 1 < 0 ∧ Rom.p ≤ coordinates.readM 2 ∧
    coordinates.readM 3 = ((Rom.p - 1 : Nat) : Int) ∧ Rom.p - 1 < Rom.p ∧ coordinates.readM 4 = ((0 : Nat) : Int) := by
  decide +kernel

theorem witness_PointReads : coordinates.inFault = false ∧ coordinates.readP 0 = .inf ∧
    coordinates.readP 3 = .aff (Rom.p - 1) 0 ∧ Rom.p - 1 < Rom.p ∧ 0 < Rom.p := by decide +kernel

theorem witness_ChordAndTangent : coordinates.inFault = false ∧ coordinates.readP 0 = .inf ∧
    coordinates.readP 1 = pG ∧ coordinates.readP 2 = pNegG ∧ coordinates.readP 3 = .aff (Rom.p - 1) 0 ∧
    coordinates.readP 4 = p2G ∧ ∀ A ∈ [pG, pNegG, p2G, .aff (Rom.p - 1) 0], canonicalB A = true := by decide +kernel

theorem witness_ScalarMultiplyScan : coordinates.inFault = false ∧ coordinates.readM 1 < 0 ∧
    coordinates.readM 4 = ((0 : Nat) : Int) ∧ coordinates.readM 5 = ((1 : Nat) : Int) ∧ coordinates.readP 1 ≠ .inf ∧
    2 ^ (0 + 1) ≤ 3 * 1 ∧ 3 * 1 < 2 ^ (0 + 2) := by decide +kernel

theorem witness_DoubleScalarScan : coordinates.inFault = false ∧ coordinates.readM 1 < 0 ∧
    coordinates.readM 4 = ((0 : Nat) : Int) ∧ coordinates.readM 5 = ((1 : Nat) : Int) ∧
    (0 < 2 ^ 0 ∧ (0 = 0 ∨ 2 ^ (0 - 1) ≤ 0)) ∧ (0 < 2 ^ 1 ∧ 1 < 2 ^ 1 ∧ 2 ^ (1 - 1) ≤ 1) := by decide +kernel

/-- The generator is a point of the curve's group. -/
theorem generator_represented [Fact (Nat.Prime Rom.p)] : ∃ U : curveE.Point, Represents pG U := by
  have h2 : ((2 : Nat) : ZMod Rom.p) ≠ 0 := by
    rw [Ne, ZMod.natCast_eq_zero_iff]
    decide +kernel
  have hy : (Rom.gy : ZMod Rom.p) ≠ 0 := by
    rw [Ne, ZMod.natCast_eq_zero_iff]
    decide +kernel
  have heq : ((Rom.gy ^ 2 : Nat) : ZMod Rom.p) = ((Rom.gx ^ 3 + 7 : Nat) : ZMod Rom.p) :=
    (ZMod.natCast_eq_natCast_iff' _ _ _).2 (by decide +kernel)
  have hN : curveE.Nonsingular (Rom.gx : ZMod Rom.p) (Rom.gy : ZMod Rom.p) := by
    rw [WeierstrassCurve.Affine.nonsingular_iff, WeierstrassCurve.Affine.equation_iff]
    constructor
    · push_cast at heq
      simp [curveE, Rom.a, Rom.b, heq]
    · right
      intro h
      apply mul_ne_zero h2 hy
      push_cast
      simp [curveE] at h
      linear_combination h
  exact ⟨.some _ _ hN, by decide +kernel, by decide +kernel, hN, rfl⟩

theorem witness_GroupLaw : Nat.Prime Rom.p ∧ coordinates.inFault = false ∧ coordinates.readP 1 = pG ∧
    Rom.gx < Rom.p ∧ Rom.gy < Rom.p ∧ Rom.gy * Rom.gy % Rom.p = (Rom.gx * Rom.gx * Rom.gx + 7) % Rom.p ∧
    ∃ U : curveE.Point, Represents (coordinates.readP 1) U :=
  ⟨fact_p.out, rfl, rfl, by decide +kernel, by decide +kernel, by decide +kernel,
    @generator_represented fact_p⟩

theorem witness_ScalarMultiples : Nat.Prime Rom.p ∧ coordinates.inFault = false ∧
    (∃ U : curveE.Point, Represents (coordinates.readP 1) U) ∧ Represents (coordinates.readP 0) .zero ∧
    coordinates.readM 4 = ((0 : Nat) : Int) ∧ coordinates.readM 5 = ((1 : Nat) : Int) :=
  ⟨fact_p.out, rfl, @generator_represented fact_p, rfl, rfl, rfl⟩

theorem witness_PointIdentities : coordinates.inFault = false ∧ CanonicalPoint (coordinates.readP 3) ∧ (3 : PReg) ≠ 7 :=
  ⟨rfl, canonical_of (by decide +kernel), by decide⟩

theorem witness_EncodePoints : coordinates.inFault = false ∧ coordinates.readP 0 = .inf ∧
    coordinates.readP 3 = .aff (Rom.p - 1) 0 ∧ Rom.p - 1 < Rom.p ∧ 0 < Rom.p := by decide +kernel

theorem witness_DecodePoints : busy.inFault = false ∧ ¬ InBuf Config.params ⟨4095, 2⟩ ∧ InBuf Config.params ⟨4095, 1⟩ ∧ InBuf Config.params ⟨0, 4096⟩ := by
  decide +kernel

/-- Hex text in the buffer: "00" and "g0". -/
def hexText : State := mk [] [] [(0x10, [0x30, 0x30]), (0x20, [0x67, 0x30])]

theorem witness_DecodeHexPoints : hexText.inFault = false ∧ ¬ InBuf Config.params ⟨4095, 2⟩ ∧
    (InBuf Config.params ⟨4095, 1⟩ ∧ (BufArg.mk 4095 1).len.toNat % 2 = 1) ∧
    (InBuf Config.params ⟨0x20, 2⟩ ∧ (BufArg.mk 0x20 2).len.toNat % 2 = 0 ∧ 0x67 ∈ bytesAt hexText ⟨0x20, 2⟩ ∧
      digitVal 0x67 = some 16) ∧
    (InBuf Config.params ⟨0x10, 2⟩ ∧ (∀ x ∈ ([(0, 0)] : List (Nat × Nat)), x.1 ≤ 15 ∧ x.2 ≤ 15) ∧
      (bytesAt hexText ⟨0x10, 2⟩).map digitVal = ([(0, 0)] : List (Nat × Nat)).flatMap fun x => [some x.1, some x.2]) := by
  decide +kernel

theorem witness_PointRoundTrip : coordinates.readP 3 = .aff (Rom.p - 1) 0 ∧ Rom.p - 1 < Rom.p ∧ 0 < Rom.p ∧
    (∃ t, exec (.penc 3 false ⟨4031, 65⟩) coordinates = .next t ∧ coordinates.inFault = false ∧ t.inFault = false) ∧
    (∃ t, exec (.pdec 1 ⟨4093, 3⟩) (mk [] [] [(4093, [0x06, 0x01, 0x02])]) = .next t ∧ t.inFault = false ∧
      t.readP 1 ≠ .inf) ∧
    ∃ t, exec (.pdec 1 ⟨0, 65⟩) (mk [] [] [(0, 0x04 :: (be32 1 ++ be32 2))]) = .next t ∧ t.inFault = false ∧
      t.readP 1 ≠ .inf :=
  ⟨rfl, by decide +kernel, by decide +kernel, ⟨_, rfl, rfl, by decide +kernel⟩,
    ⟨_, rfl, by decide +kernel, by decide +kernel⟩, _, rfl, by decide +kernel, by decide +kernel⟩

theorem witness_ValidatePoints : coordinates.inFault = false ∧ coordinates.readP 0 = .inf ∧
    (coordinates.readP 5 = .aff 0 5 ∧ 0 < 1) ∧
    (coordinates.readP 6 = .aff 1 2 ∧ 1 ≤ 1 ∧ 1 ≤ Rom.p - 1 ∧ ¬ 2 * 2 ≡ 1 * 1 * 1 + 0 * 1 + 7 [MOD Rom.p]) ∧
    (coordinates.readP 1 = .aff Rom.gx Rom.gy ∧ 1 ≤ Rom.gx ∧ Rom.gx ≤ Rom.p - 1 ∧
      Rom.gy * Rom.gy ≡ Rom.gx * Rom.gx * Rom.gx + 0 * Rom.gx + 7 [MOD Rom.p]) := by decide +kernel

/-! The clause of ValidatePoints for a point of the curve with `[n]P` not the infinity has no witness: the curve's group has
the prime order `n` (46_point_codec.md R247), which is why the rule's last test never fails. -/

theorem normal_pair : Datapath.SignedLimbs.Normal ⟨true, [2 ^ 26 - 1, 1]⟩ ∧ Datapath.SignedLimbs.Normal ⟨false, []⟩ := by
  simp only [Datapath.SignedLimbs.Normal, Datapath.Normal, Datapath.Limbs]
  decide +kernel

theorem witness_LimbView : Datapath.SignedLimbs.Normal ⟨true, [2 ^ 26 - 1, 1]⟩ ∧
    Datapath.SignedLimbs.value ⟨true, [2 ^ 26 - 1, 1]⟩ = -(2 ^ 27 - 1) := ⟨normal_pair.1, by decide +kernel⟩

theorem witness_LimbAdder : ∃ x y : Datapath.SignedLimbs, x.Normal ∧ y.Normal ∧ x.neg ≠ y.neg :=
  ⟨_, _, normal_pair.1, normal_pair.2, by decide⟩

theorem witness_LimbMultiplier : ∃ x y : Datapath.SignedLimbs, x.Normal ∧ y.Normal :=
  ⟨_, _, normal_pair.1, normal_pair.1⟩

theorem witness_LimbShifter : ∃ a : List Nat, Datapath.Normal a ∧ a ≠ [] := ⟨_, normal_pair.1.1, by decide⟩

theorem witness_LimbDivider : ∃ x y : Datapath.SignedLimbs, x.Normal ∧ y.Normal ∧ y.limbs ≠ [] :=
  ⟨_, _, normal_pair.2, normal_pair.1, by decide⟩

theorem witness_BinaryInverter : (1 ≤ 1 ∧ 1 < 2 ∧ ¬ (2 ∣ 1 ∧ 2 ∣ 2) ∧ Nat.Coprime 1 2) ∧
    (1 ≤ 3 ∧ 3 < 6 ∧ ¬ (2 ∣ 3 ∧ 2 ∣ 6) ∧ ¬ Nat.Coprime 3 6) := by decide

theorem witness_RadixConverters : (2 ≤ 2 ∧ 36 ≤ 36) ∧ 0 < 1 ∧ ∀ x ∈ [0, 35], x < 36 := by decide

theorem witness_ProjectiveFormulas : ∃ P Q : Datapath.Triple, P.Stored ∧ Q.Stored ∧ Datapath.crossX P Q ≠ 0 ∧ P.y ≠ 0 ∧
    ¬ Rom.p ∣ 2 := by
  refine ⟨⟨Rom.gx, Rom.gy, 1⟩, ⟨0, 5, Rom.p - 1⟩, ?_⟩
  simp only [Datapath.Triple.Stored]
  decide +kernel

end Sys2Proof.Tests
end

section
/-! PROOFS. What the pseudocode of a command can write (30_encoding.md R86, the columns "dest"), how a `Command`
transaction ends, and with them the frame of every command. -/

namespace Sys2Proof.Machine

open Sys2Proof.Safety

/-! ## The writes of a command -/

/-- What the pseudocode of `i`, run to its end on `e`, leaves: one kind of write, to what `i` names as its destination
(Safety.lean: `mDests`, `pDests`, `outArg`, `writesRes`). -/
inductive Effect (i : Instr) (e : Engine) : Engine → Prop
  | mpi {md : MReg} (v : Int) (h : md ∈ mDests i) : Effect i e (e.setM md v)
  | mpiPair {mq mr : MReg} (q r : Int) (hq : mq ∈ mDests i) (hr : mr ∈ mDests i) :
      Effect i e ((e.setM mq q).setM mr r)
  | point {pd : PReg} (A : Point) (h : pd ∈ pDests i) : Effect i e (e.writeP pd A)
  | answer (v : Word) (h : writesRes i = true) (ho : outArg i = none) : Effect i e (e.writeRes v)
  | output {arg : BufArg} {out : List Byte} (h : writesRes i = true) (ho : outArg i = some arg)
      (hlen : out.length ≤ arg.len.toNat) :
      Effect i e ((e.memWrite arg.addr.toNat out).writeRes (countRes out.length))
  | curve (id : Word) (h : i = .curve id) : Effect i e { e with curveid := 0 }
  | clrerr (h : i = .clrerr) : Effect i e e.clearError

/-- `M[i] <- v` that succeeds has written the register. -/
theorem eq_setM_of_writeM {md : MReg} {v : Int} {c : Config.Params} {e e' : Engine} (h : writeM md v c e = .ok e') :
    e' = e.setM md v := by
  rcases writeM_cases md v c e with ⟨-, hw⟩ | ⟨-, hw⟩ <;> rw [hw] at h <;> cases h
  rfl

theorem Effect.of_writeM {i : Instr} {md : MReg} {v : Int} {c : Config.Params} {e e' : Engine} (hd : md ∈ mDests i)
    (h : writeM md v c e = .ok e') : Effect i e e' :=
  eq_setM_of_writeM h ▸ .mpi v hd

theorem Effect.of_outputBytes {i : Instr} {arg : BufArg} {out : List Byte} {c : Config.Params} {e e' : Engine}
    (hr : writesRes i = true) (ho : outArg i = some arg) (h : outputBytes arg out c e = .ok e') : Effect i e e' := by
  rcases outputBytes_cases arg out c e with ⟨-, hw⟩ | ⟨-, -, hw⟩ | ⟨hlen, -, hw⟩ <;> rw [hw] at h <;> cases h
  exact .output hr ho hlen

/-- All that the pseudocode of a command can write. -/
theorem body_effect {c : Config.Params} {i : Instr} {e e' : Engine} (h : body i c e = .ok e') : Effect i e e' := by
  cases i with
  | clrerr =>
    cases h
    exact .clrerr rfl
  | curve id =>
    simp only [body, bodyCurve] at h
    split at h
    · cases h
    · cases h
      exact .curve id rfl
  | ldcp md | ldi md | mov md | add md | sub md | mul md | sqr md => exact .of_writeM (md := md) (by simp [mDests]) h
  | div md | mod md | frombu md | frombs md | fadd md | fsub md | fmul md | fsqr md | pgetx md | pgety md =>
    obtain ⟨_, -, h⟩ := bind_ok h
    exact .of_writeM (md := md) (by simp [mDests]) h
  | parse md =>
    obtain ⟨_, -, h⟩ := bind_ok h
    obtain ⟨_, -, h⟩ := bind_ok h
    exact .of_writeM (md := md) (by simp [mDests]) h
  | fdiv md =>
    obtain ⟨_, -, h⟩ := bind_ok h
    dsimp only at h
    split at h
    · cases h
    · exact .of_writeM (md := md) (by simp [mDests]) h
  | divrem mq mr =>
    obtain ⟨_, -, h⟩ := bind_ok h
    obtain ⟨t, ht, h⟩ := bind_ok h
    rw [eq_setM_of_writeM h, eq_setM_of_writeM ht]
    exact .mpiPair _ _ (by simp [mDests]) (by simp [mDests])
  | modinv md =>
    simp only [body, bodyModinv] at h
    split at h
    · cases h
    · split at h
      · cases h
      · exact .of_writeM (md := md) (by simp [mDests]) h
  | shl md | shr md =>
    simp only [body, bodyShl, bodyShr, writeShiftedUp_eq] at h
    split at h
    · exact .of_writeM (md := md) (by simp [mDests]) h
    · exact .of_writeM (md := md) (by simp [mDests]) h
  | cmp | iseven | testbit | bitlen | pisinf | peq =>
    cases h
    exact .answer _ rfl rfl
  | pvalid =>
    obtain ⟨_, -, h⟩ := bind_ok h
    cases h
    exact .answer _ rfl rfl
  | feq =>
    obtain ⟨_, -, h⟩ := bind_ok h
    obtain ⟨_, -, h⟩ := bind_ok h
    cases h
    exact .answer _ rfl rfl
  | tobu | tobs | tostr => exact .of_outputBytes rfl rfl h
  | penc =>
    obtain ⟨_, -, h⟩ := bind_ok h
    exact .of_outputBytes rfl rfl h
  | pinf | pgen | pmov | pneg | padd | pdbl =>
    cases h
    exact .point _ (by simp [pDests])
  | pseta | pmul =>
    obtain ⟨_, -, h⟩ := bind_ok h
    cases h
    exact .point _ (by simp [pDests])
  | pmul2 | pdec =>
    obtain ⟨_, -, h⟩ := bind_ok h
    obtain ⟨_, -, h⟩ := bind_ok h
    cases h
    exact .point _ (by simp [pDests])
  | pdechex =>
    obtain ⟨_, -, h⟩ := bind_ok h
    obtain ⟨_, -, h⟩ := bind_ok h
    obtain ⟨_, -, h⟩ := bind_ok h
    cases h
    exact .point _ (by simp [pDests])

/-! ## What each kind of write leaves unchanged -/

namespace Effect

variable {i : Instr} {e e' : Engine} (h : Effect i e e')
include h

/-- An MPI register changes only as a named destination (10_state.md R24). -/
theorem readM_eq {r : MReg} (hr : r ∉ mDests i) : e'.readM r = e.readM r := by
  cases h with
  | mpi v hd => exact Engine.readM_setM_ne _ (ne_of_mem_of_not_mem hd hr) v
  | mpiPair q t hq ht =>
    rw [Engine.readM_setM_ne _ (ne_of_mem_of_not_mem ht hr), Engine.readM_setM_ne _ (ne_of_mem_of_not_mem hq hr)]
  | output => simp
  | point | answer | curve | clrerr => rfl

/-- A point register changes only as a named destination (10_state.md R24). -/
theorem readP_eq {r : PReg} (hr : r ∉ pDests i) : e'.readP r = e.readP r := by
  cases h with
  | point A hd => exact Engine.readP_writeP_ne _ (ne_of_mem_of_not_mem hd hr) A
  | output => simp
  | mpi | mpiPair | answer | curve | clrerr => rfl

/-- `RES` changes only by the twelve commands that write it (10_state.md R39). -/
theorem res_eq (hw : writesRes i = false) : e'.res = e.res := by
  cases h with
  | answer _ hi | output hi => simp [hi] at hw
  | mpi | mpiPair | point | curve | clrerr => rfl

/-- `BUF` changes only by the commands with an output operand (20_memory.md R60). -/
theorem buf_eq (ho : outArg i = none) : e'.buf = e.buf := by
  cases h with
  | output _ hi => simp [hi] at ho
  | mpi | mpiPair | point | answer | curve | clrerr => rfl

/-- `CURVEID` changes only by `CURVE` (10_state.md R41). -/
theorem curveid_eq (hi : ∀ id, i ≠ .curve id) : e'.curveid = e.curveid := by
  cases h with
  | curve id hid => exact absurd hid (hi id)
  | output => simp
  | mpi | mpiPair | point | answer | clrerr => rfl

/-- No command ends the life of the unwritten bytes (log 3: `Reset` alone takes the next epoch). -/
theorem epoch_eq : e'.epoch = e.epoch := by
  cases h with
  | output => simp
  | mpi | mpiPair | point | answer | curve | clrerr => rfl

/-- An output changes the `RES` bytes from the operand's address on and no other byte (20_memory.md R67). -/
theorem readByte_eq {a : Nat}
    (ha : ∀ arg, outArg i = some arg → a < arg.addr.toNat ∨ arg.addr.toNat + e'.res.toNat ≤ a) :
    e'.readByte a = e.readByte a := by
  cases h with
  | @output arg out _ ho hlen =>
    have hres : (countRes out.length).toNat = out.length := by
      rw [countRes, BitVec.toNat_ofNat, Nat.mod_eq_of_lt]
      omega
    have hout := ha arg ho
    rw [Engine.writeRes_res, hres] at hout
    exact Engine.readByte_memWrite_outside e hout
  | mpi | mpiPair | point | answer | curve | clrerr => rfl

end Effect

/-! ## How a `Command` transaction ends -/

/-- All that the step of any command can do: rejection, completion, an error taken (60_exceptions.md R262, R265). -/
theorem execAt_cases {c : Config.Params} {i : Instr} {s t : State} (h : execAt c i s = .next t) :
    t = s.rejected ∨ (∃ e, body i c s.countCommand = .ok e ∧ t = s.respond e 0) ∨ ∃ r, t = s.failedWith r := by
  by_cases hi : i = .clrerr
  · subst hi
    rw [execAt_clrerr] at h
    cases h
    exact .inr (.inl ⟨_, rfl, rfl⟩)
  · rw [execAt_eq_runCommand c hi] at h
    rcases runCommand_cases h with ⟨-, ht⟩ | ⟨-, ht⟩ | ⟨-, r, -, ht⟩
    · exact .inl ht
    · exact .inr (.inl ht)
    · exact .inr (.inr ⟨r, ht⟩)

/-- No error has the code of a command that executed (60_exceptions.md R261: the codes are 1..9). -/
@[simp] theorem ErrorKind.code_ne_zero (k : ErrorKind) : k.code ≠ 0#8 := by cases k <;> decide

/-- Settles O13: a rejected or failed command writes control registers alone and answers no 0; what an executed one writes
is an `Effect`, and each kind of effect stays within the command's destinations. -/
theorem commandFrame : Obligations.CommandFrame := by
  refine ofEvery fun c i s t h => ?_
  rcases execAt_cases h with rfl | ⟨e, hb, rfl⟩ | ⟨r, rfl⟩
  case inl | inr.inr =>
    refine ⟨fun _ _ => rfl, fun _ _ => rfl, fun _ => rfl, fun _ _ => rfl, fun _ => rfl, fun _ => rfl, fun ha => ?_,
      rfl, rfl⟩
    simp at ha
  case inr.inl =>
    have he := body_effect hb
    refine ⟨fun r => he.readM_eq, fun r => he.readP_eq, he.res_eq,
      fun a ha => he.readByte_eq fun arg ho => ha arg ho rfl, he.buf_eq, he.curveid_eq, fun _ hi => ?_, rfl, he.epoch_eq⟩
    obtain ⟨-, -, hstatus, hcode, hinfo, hseq⟩ := body_keeps hi hb
    exact ⟨hstatus, hcode, hinfo, hseq⟩

end Sys2Proof.Machine
end

section
/-! PROOFS. The transactions of the host (00_scope.md R8): that each one ends, and what the data transactions do. -/

namespace Sys2Proof.Machine

open Sys2Proof.Safety

/-! ## The data transactions, inside the interface and outside it -/

theorem bufWrite_inside {c : Config.Params} {a : Nat} (h : a < c.bufsz) (b : Byte) (s : State) :
    bufWrite c a b s = .next { s with toEngine := s.writeByte a b, answer := .done } :=
  if_pos h

theorem bufWrite_outside {c : Config.Params} {a : Nat} (h : c.bufsz ≤ a) (b : Byte) (s : State) :
    bufWrite c a b s = .fault (.noSuchAddress a) :=
  if_neg (Nat.not_lt.2 h)

theorem bufRead_inside {c : Config.Params} {a : Nat} (h : a < c.bufsz) (s : State) :
    bufRead c a s = .next { s with answer := .byte (s.readByte a) } :=
  if_pos h

theorem bufRead_outside {c : Config.Params} {a : Nat} (h : c.bufsz ≤ a) (s : State) :
    bufRead c a s = .fault (.noSuchAddress a) :=
  if_neg (Nat.not_lt.2 h)

theorem csrRead_some {i : Nat} {s : State} {v : Word} (h : s.csr? i = some v) :
    csrRead i s = .next { s with answer := .csr v } := by
  simp [csrRead, h]

theorem csrRead_none {i : Nat} {s : State} (h : s.csr? i = none) : csrRead i s = .refused (.noSuchCsr i) := by
  simp [csrRead, h]

/-- There are seven control registers, 0 to 6 (10_state.md R34). -/
theorem csr?_isSome_iff (e : Engine) (i : Nat) : (e.csr? i).isSome = true ↔ i ≤ 6 := by
  unfold Engine.csr?
  split <;> simp_all
  omega

/-! ## Every transaction ends -/

/-- A `Command` transaction ends, whatever the word, and leaves the input (70_reset_and_hazards.md R304). -/
theorem commandOn_next (c : Config.Params) (w : CmdWord) (s : State) :
    ∃ t, commandOn c (execAt c) w s = .next t ∧ t.input = s.input := by
  unfold commandOn
  split
  · exact execAt_next c _ s
  · obtain ⟨t, ht, hi, -⟩ := runCommand_host c _ s none .none
    exact ⟨t, ht, hi⟩

/-- A transaction of the interface ends, and leaves the input. -/
theorem transactOn_next {c : Config.Params} {x : Transaction} (h : Legal c x) (s : State) :
    ∃ t, transactOn c (execAt c) x s = .next t ∧ t.input = s.input := by
  cases x with
  | command w => exact commandOn_next c w s
  | bufWrite a b => exact ⟨_, bufWrite_inside h b s, rfl⟩
  | bufRead a => exact ⟨_, bufRead_inside h s, rfl⟩
  | csrRead i =>
    obtain ⟨v, hv⟩ := Option.isSome_iff_exists.1 ((csr?_isSome_iff s.toEngine i).2 h)
    exact ⟨_, csrRead_some hv, rfl⟩
  | reset => exact ⟨_, rfl, rfl⟩

/-! ## The step and the transaction being made -/

theorem takeTransaction_none {c : Config.Params} {run : Instr → State → Outcome} {s : State} (h : s.input = none) :
    takeTransaction c run s = .next s := by
  simp [takeTransaction, h]

theorem takeTransaction_some {c : Config.Params} {run : Instr → State → Outcome} {s : State} {x : Transaction}
    (h : s.input = some x) : takeTransaction c run s = transactOn c run x { s with input := none } := by
  simp [takeTransaction, h]

/-- Settles O20: inside the interface by `transactOn_next`, outside it by the equations of the data transactions. -/
theorem transactionsComplete : Obligations.TransactionsComplete := by
  refine ⟨step_eq_stepAt, fun c s hlegal => ?_, fun c s a ha => ⟨fun h => ?_, fun b h => ?_⟩, fun c s i hi h => ?_⟩
  · cases hx : s.input with
    | none => exact ⟨s, takeTransaction_none hx, hx⟩
    | some x =>
      obtain ⟨t, ht, hin⟩ := transactOn_next (hlegal x hx) { s with input := none }
      exact ⟨t, (takeTransaction_some hx).trans ht, hin⟩
  · exact (takeTransaction_some h).trans (bufRead_outside ha _)
  · exact (takeTransaction_some h).trans (bufWrite_outside ha b _)
  · refine (takeTransaction_some h).trans (csrRead_none ?_)
    rw [← Option.not_isSome_iff_eq_none, csr?_isSome_iff]
    omega

/-- Settles O21: `readByte_writeByte` says what a write does to every byte; a control register is answered by its
number. -/
theorem dataTransactions : Obligations.DataTransactions := by
  refine ofEvery fun c s => ⟨fun a b ha => ?_, fun a ha => bufRead_inside ha s, fun x hx => csrRead_some ?_⟩
  · refine ⟨(s.writeByte a b).buf, bufWrite_inside ha b s, ?_, fun x hx => ?_⟩
    · exact (Engine.readByte_writeByte s.toEngine a a b).trans (if_pos rfl)
    · exact (Engine.readByte_writeByte s.toEngine a x b).trans (if_neg hx.symm)
  · simp only [List.mem_cons, List.not_mem_nil, or_false] at hx
    rcases hx with rfl | rfl | rfl | rfl | rfl | rfl | rfl <;> rfl

end Sys2Proof.Machine
end

section
/-! PROOFS. The lines of 30_encoding.md R88 read off the opcode table are the errors of the decoder. -/

namespace Sys2Proof

open Sys2Proof.Safety

/-! ## Masks of a word, field by field -/

/-- The fields of a masked word are the masked fields. -/
theorem fieldsOf_and (w v : CmdWord) : fieldsOf (w &&& v) =
    { op := (fieldsOf w).op &&& (fieldsOf v).op, r0 := (fieldsOf w).r0 &&& (fieldsOf v).r0,
      r1 := (fieldsOf w).r1 &&& (fieldsOf v).r1, r2 := (fieldsOf w).r2 &&& (fieldsOf v).r2,
      r3 := (fieldsOf w).r3 &&& (fieldsOf v).r3, aux := (fieldsOf w).aux &&& (fieldsOf v).aux,
      low := (fieldsOf w).low &&& (fieldsOf v).low } := by
  simp only [fieldsOf, BitVec.extractLsb'_and]

/-- Words with the same fields are the same word (R81: the fields cover all 64 bits). -/
theorem fieldsOf_inj {w v : CmdWord} : fieldsOf w = fieldsOf v ↔ w = v :=
  ⟨fun h => by rw [← word_fieldsOf w, h, word_fieldsOf], congrArg fieldsOf⟩

/-- A word has no bit of a mask when no field has a bit of the mask's field. -/
theorem and_word_eq_zero (w : CmdWord) (g : Fields) : w &&& g.word = 0 ↔
    (fieldsOf w).op &&& g.op = 0 ∧ (fieldsOf w).r0 &&& g.r0 = 0 ∧ (fieldsOf w).r1 &&& g.r1 = 0 ∧
      (fieldsOf w).r2 &&& g.r2 = 0 ∧ (fieldsOf w).r3 &&& g.r3 = 0 ∧ (fieldsOf w).aux &&& g.aux = 0 ∧
      (fieldsOf w).low &&& g.low = 0 := by
  rw [← fieldsOf_inj, fieldsOf_and, fieldsOf_word, show fieldsOf 0 = { op := 0 } by decide, Fields.mk.injEq]

/-! ## The two masks of a row of the opcode map -/

/-- The bits of a register field that must be zero (R88 line 2). -/
def FieldClass.zeroMask : FieldClass → BitVec 4
  | .unused => 0xF
  | .mpi => 0
  | .point => 0

/-- The bit of a register field that must be zero because it names a point register (R88 line 3). -/
def FieldClass.pointMask : FieldClass → BitVec 4
  | .unused => 0
  | .mpi => 0
  | .point => 8

theorem FieldClass.zeroOk_iff (k : FieldClass) (b : BitVec 4) : k.zeroOk b = true ↔ b &&& k.zeroMask = 0 := by
  cases k <;> revert b <;> decide

theorem FieldClass.pointOk_iff (k : FieldClass) (b : BitVec 4) : k.pointOk b = true ↔ b &&& k.pointMask = 0 := by
  cases k <;> revert b <;> decide

/-- The bits of a row's words that must be zero (R88 line 2). -/
def Row.zeroMask (row : Row) : Fields where
  op  := 0
  r0  := row.r0.zeroMask
  r1  := row.r1.zeroMask
  r2  := row.r2.zeroMask
  r3  := row.r3.zeroMask
  aux := row.auxZero
  low := if row.lowZero then BitVec.allOnes 32 else 0

/-- The top bits of a row's point fields (R88 line 3). -/
def Row.pointMask (row : Row) : Fields where
  op  := 0
  r0  := row.r0.pointMask
  r1  := row.r1.pointMask
  r2  := row.r2.pointMask
  r3  := row.r3.pointMask

theorem Row.zerosOk_iff (row : Row) (w : CmdWord) : row.zerosOk (fieldsOf w) = true ↔ w &&& row.zeroMask.word = 0 := by
  have hlow : row.lowZero = false ∨ (fieldsOf w).low = 0 ↔ (fieldsOf w).low &&& row.zeroMask.low = 0 := by
    unfold Row.zeroMask
    cases row.lowZero with
    | false => simp
    | true => simp only [if_true, BitVec.and_allOnes, Bool.true_eq_false, false_or]
  rw [and_word_eq_zero, ← hlow]
  simp [Row.zerosOk, Row.zeroMask, FieldClass.zeroOk_iff, and_assoc]

theorem Row.pointsOk_iff (row : Row) (w : CmdWord) :
    row.pointsOk (fieldsOf w) = true ↔ w &&& row.pointMask.word = 0 := by
  rw [and_word_eq_zero]
  simp [Row.pointsOk, Row.pointMask, FieldClass.pointOk_iff, and_assoc]

/-! ## The rows of the table are the rows of the map -/

/-- The line of R88 by which the decoder refuses a word, as the `info` of its error; none for a command. -/
def refusalLine : Except DecodeError Instr → Option Nat
  | .ok _ => none
  | .error e => some e.info

/-- A row of the opcode table and a row of the opcode map say the same of every word. -/
structure SameRow (tr : TableRow) (row : Row) : Prop where
  op     : tr.pattern.extractLsb' 56 8 = row.op
  zeros  : tr.zeros = row.zeroMask.word
  points : tr.points = row.pointMask.word
  range  : ∀ w, rangeLine tr w = refusalLine (row.build (fieldsOf w))

/-- Line 4 for a radix. -/
theorem refusalLine_withRadix (w : CmdWord) (mk : Nat → Instr) :
    refusalLine (withRadix (fieldsOf w).aux mk) = if auxOf w < 2 ∨ 36 < auxOf w then some 4 else none := by
  have haux : (fieldsOf w).aux.toNat = auxOf w := rfl
  by_cases h : auxOf w < 2 ∨ 36 < auxOf w
  · rw [if_pos h, withRadix, if_neg (by simp [radixOk, haux]; omega)]
    rfl
  · rw [if_neg h, withRadix, if_pos (by simp [radixOk, haux]; omega)]
    rfl

/-- The curve ROM has the indexes 0 to 6 (10_state.md R30). -/
theorem romIndex_eq_none_iff (n : Nat) : romIndex n = none ↔ 6 < n := by
  unfold romIndex
  split <;> simp_all
  omega

/-- Line 4 for a ROM index. -/
theorem refusalLine_withRomIndex (w : CmdWord) (mk : RomIndex → Instr) :
    refusalLine (withRomIndex (fieldsOf w).aux mk) = if 6 < auxOf w then some 4 else none := by
  have haux : (fieldsOf w).aux.toNat = auxOf w := rfl
  simp only [← romIndex_eq_none_iff, withRomIndex, haux]
  cases romIndex (auxOf w) <;> rfl

/-- Line 5, for the destinations of `DIVREM`. -/
theorem refusalLine_withDistinct (a b : BitVec 4) (i : Instr) :
    refusalLine (withDistinct (mreg a) (mreg b) i) = if a = b then some 5 else none := by
  have hinj : mreg a = mreg b ↔ a = b := BitVec.toFin_inj
  by_cases h : a = b <;> simp [withDistinct, hinj, h, refusalLine, DecodeError.info]

/-- The rows whose fields have no range check; the others are `LDCP`, `DIVREM`, `PARSE` and `TOSTR`. -/
theorem SameRow.unchecked {tr : TableRow} {row : Row} {mk : Fields → Instr}
    (hbits : tr.pattern.extractLsb' 56 8 = row.op ∧ tr.zeros = row.zeroMask.word ∧ tr.points = row.pointMask.word)
    (hname : tr.mnemonic ∉ ["PARSE", "TOSTR", "LDCP", "DIVREM"]) (hbuild : row.build = fun f => .ok (mk f)) :
    SameRow tr row := by
  obtain ⟨hop, hzeros, hpoints⟩ := hbits
  refine ⟨hop, hzeros, hpoints, fun w => ?_⟩
  simp only [List.mem_cons, List.not_mem_nil, or_false, not_or] at hname
  simp [rangeLine, hname, hbuild, refusalLine]

theorem sameRows_system : List.Forall₂ SameRow systemTable systemRows := by
  unfold systemTable systemRows
  iterate 2 refine .cons (.unchecked (by decide) (by decide) rfl) ?_
  refine .cons ⟨by decide, by decide, by decide, fun w => by simp [rangeLine, refusalLine_withRomIndex]⟩ ?_
  iterate 2 refine .cons (.unchecked (by decide) (by decide) rfl) ?_
  exact .nil

theorem sameRows_arith : List.Forall₂ SameRow arithTable arithRows := by
  unfold arithTable arithRows
  iterate 6 refine .cons (.unchecked (by decide) (by decide) rfl) ?_
  refine .cons ⟨by decide, by decide, by decide, fun w => by simp [rangeLine, refusalLine_withDistinct, fieldsOf]⟩ ?_
  iterate 3 refine .cons (.unchecked (by decide) (by decide) rfl) ?_
  exact .nil

theorem sameRows_queryConvert : List.Forall₂ SameRow queryConvertTable (queryRows ++ convertRows) := by
  unfold queryConvertTable queryRows convertRows
  iterate 8 refine .cons (.unchecked (by decide) (by decide) rfl) ?_
  refine .cons ⟨by decide, by decide, by decide, fun w => by simp [rangeLine, refusalLine_withRadix]⟩ ?_
  refine .cons ⟨by decide, by decide, by decide, fun w => by simp [rangeLine, refusalLine_withRadix]⟩ ?_
  exact .nil

theorem sameRows_field : List.Forall₂ SameRow fieldTable fieldRows := by
  unfold fieldTable fieldRows
  iterate 6 refine .cons (.unchecked (by decide) (by decide) rfl) ?_
  exact .nil

theorem sameRows_point : List.Forall₂ SameRow pointTable (pointRows ++ codecRows) := by
  unfold pointTable pointRows codecRows
  iterate 17 refine .cons (.unchecked (by decide) (by decide) rfl) ?_
  exact .nil

/-- The opcode table and the opcode map agree row by row (R86, R93). -/
theorem sameRows : List.Forall₂ SameRow opcodeTable opcodeMap := by
  have h := List.rel_append (List.rel_append (List.rel_append (List.rel_append sameRows_system sameRows_arith)
    sameRows_queryConvert) sameRows_field) sameRows_point
  simpa only [opcodeTable, opcodeMap, List.append_assoc] using h

/-! ## The first line that applies -/

/-- Lists related element by element have related first elements of predicates that agree on related elements. -/
theorem forall₂_find? {α β : Type} {R : α → β → Prop} {p : α → Bool} {q : β → Bool} {as : List α} {bs : List β}
    (h : List.Forall₂ R as bs) (hpq : ∀ a b, R a b → p a = q b) : Option.Rel R (as.find? p) (bs.find? q) := by
  induction h with
  | nil => exact .none
  | @cons a b as bs hab _ ih =>
    rw [List.find?_cons, List.find?_cons, hpq a b hab]
    cases q b with
    | true => exact .some hab
    | false => exact ih

/-- The row that the opcode of a word selects in the table is the one it selects in the map. -/
theorem sameRow_selected (w : CmdWord) : Option.Rel SameRow
    (opcodeTable.find? fun tr => tr.pattern.extractLsb' 56 8 == w.extractLsb' 56 8)
    (opcodeMap.find? fun row => row.op == (fieldsOf w).op) :=
  forall₂_find? sameRows fun tr row h => by rw [h.op]; rfl

/-- R88, the whole of it: the first line that applies to a word is the one the decoder refuses it by, and a word to which
none applies is a command. -/
theorem illegalLine_eq_refusalLine (w : CmdWord) : illegalLine w = refusalLine (decodeWord w) := by
  unfold illegalLine decodeWord decodeFields
  generalize hsel : opcodeMap.find? (fun row => row.op == (fieldsOf w).op) = selected
  have h := hsel ▸ sameRow_selected w
  generalize opcodeTable.find? (fun tr => tr.pattern.extractLsb' 56 8 == w.extractLsb' 56 8) = tr at h ⊢
  cases h with
  | none => rfl
  | @some tr row h =>
    simp only [ne_eq, h.zeros, h.points, ← Row.zerosOk_iff, ← Row.pointsOk_iff, h.range, Bool.not_eq_true']
    cases row.zerosOk (fieldsOf w) with
    | false => rfl
    | true =>
      cases row.pointsOk (fieldsOf w) with
      | false => rfl
      | true => rfl

/-- A word is refused by a line of R88 when the decoder answers an error with this line as its info. -/
theorem illegalLine_eq_some_iff {w : CmdWord} {n : Nat} :
    illegalLine w = some n ↔ ∃ e, decodeWord w = .error e ∧ e.info = n := by
  rw [illegalLine_eq_refusalLine]
  cases decodeWord w <;> simp [refusalLine]

/-- A word that no line of R88 refuses is a command. -/
theorem illegalLine_eq_none_iff {w : CmdWord} : illegalLine w = none ↔ ∃ i, decodeWord w = .ok i := by
  rw [illegalLine_eq_refusalLine]
  cases decodeWord w <;> simp [refusalLine]

end Sys2Proof
end

section
/-! PROOFS. A step takes the transaction that the host is making (00_scope.md R6, R8). -/

namespace Sys2Proof.Machine

open Sys2Proof.Safety

/-- The machine takes its transaction as `transact` says. -/
theorem step_of_input {s : State} {x : Transaction} (h : s.input = some x) :
    step s = transact x { s with input := none } :=
  takeTransaction_some h

/-- The engine of any parameters takes it as `transactOn` says. -/
theorem stepAt_of_input {s : State} {x : Transaction} (h : s.input = some x) (c : Config.Params) :
    stepAt c s = transactOn c (execAt c) x { s with input := none } :=
  takeTransaction_some h

/-! ## A command word: its command runs, or its line of R88 fails it, or it is rejected -/

section

variable {c : Config.Params} {run : Instr → State → Outcome} {w : CmdWord} {n : Nat} {s : State}

/-- A word that decodes runs its command. -/
theorem commandOn_ok {i : Instr} (h : decodeWord w = .ok i) : commandOn c run w s = run i s := by
  simp [commandOn, h]

/-- An illegal word raises `IllegalCommandError` of its line in the frame of every command (30_encoding.md R88). -/
theorem commandOn_illegal (h : illegalLine w = some n) :
    commandOn c run w s = runCommand c (fun _ _ => raise .illegalCommand n) s := by
  obtain ⟨e, hw, rfl⟩ := illegalLine_eq_some_iff.1 h
  simp [commandOn, hw]

theorem commandOn_illegal_failed (h : illegalLine w = some n) (hf : s.inFault = false) :
    commandOn c run w s = failed 9 (BitVec.ofNat 32 n) s :=
  (commandOn_illegal h).trans (run_raise (k := .illegalCommand) hf rfl)

theorem commandOn_illegal_turnedAway (h : illegalLine w = some n) (hf : s.inFault = true) :
    commandOn c run w s = turnedAway s :=
  (commandOn_illegal h).trans (runCommand_inFault hf)

end

/-- Settles O6: the step is `takeTransaction`, a command word goes through `commandOn`, and the lines of R88 are the
decoder's errors (`illegalLine_eq_some_iff`). -/
theorem stepRunsCommand : Obligations.StepRunsCommand := by
  refine ⟨step_eq_stepAt, exec_eq_execAt, fun s x h => ⟨step_of_input h, stepAt_of_input h⟩,
    fun s h => ⟨takeTransaction_none h, fun c => takeTransaction_none h⟩, fun s w h => ⟨fun i hi => ?_, fun n hn hf => ?_,
    fun n hn hf => ?_⟩⟩
  · exact ⟨(step_of_input h).trans (commandOn_ok hi), fun c => (stepAt_of_input h c).trans (commandOn_ok hi)⟩
  · exact ⟨(step_of_input h).trans (commandOn_illegal_failed hn hf),
      fun c => (stepAt_of_input h c).trans (commandOn_illegal_failed hn hf)⟩
  · exact ⟨(step_of_input h).trans (commandOn_illegal_turnedAway hn hf),
      fun c => (stepAt_of_input h c).trans (commandOn_illegal_turnedAway hn hf)⟩

end Sys2Proof.Machine
end

section
/-! PROOFS. How each transaction of the host ends (00_scope.md R8, 60_exceptions.md R262, R265), and from it that a fault
stays and that commands are counted. -/

namespace Sys2Proof.Machine

open Sys2Proof.Safety

/-! ## The ends of a transaction -/

/-- How a `Command` transaction ends (60_exceptions.md R262, R265): rejected in fault, its command executed, or an error
taken; in fault `CLRERR` alone is executed. -/
theorem commandOn_cases {c : Config.Params} {w : CmdWord} {s t : State} (h : commandOn c (execAt c) w s = .next t) :
    (s.inFault = true ∧ t = s.rejected) ∨
      (∃ i e, decodeWord w = .ok i ∧ (s.inFault = true → i = .clrerr) ∧ body i c s.countCommand = .ok e ∧
        t = s.respond e 0) ∨
      (s.inFault = false ∧ ∃ r, t = s.failedWith r) := by
  unfold commandOn at h
  split at h
  case h_1 i hw =>
    by_cases hi : i = .clrerr
    · subst hi
      rw [execAt_clrerr] at h
      cases h
      exact .inr (.inl ⟨_, _, hw, fun _ => rfl, rfl, rfl⟩)
    · rw [execAt_eq_runCommand c hi] at h
      rcases runCommand_cases h with hrej | ⟨hf, e, hb, ht⟩ | ⟨hf, r, -, ht⟩
      · exact .inl hrej
      · exact .inr (.inl ⟨i, e, hw, by simp [hf], hb, ht⟩)
      · exact .inr (.inr ⟨hf, r, ht⟩)
  case h_2 err hw =>
    rcases runCommand_cases h with hrej | ⟨-, e, hb, -⟩ | ⟨hf, r, -, ht⟩
    · exact .inl hrej
    · cases hb
    · exact .inr (.inr ⟨hf, r, ht⟩)

theorem bufWrite_eq_next {c : Config.Params} {a : Nat} {b : Byte} {s t : State} (h : bufWrite c a b s = .next t) :
    a < c.bufsz ∧ t = { s with toEngine := s.writeByte a b, answer := .done } := by
  unfold bufWrite at h
  split at h
  case isTrue ha =>
    cases h
    exact ⟨ha, rfl⟩
  case isFalse => cases h

theorem bufRead_eq_next {c : Config.Params} {a : Nat} {s t : State} (h : bufRead c a s = .next t) :
    t = { s with answer := .byte (s.readByte a) } := by
  unfold bufRead at h
  split at h
  · cases h
    rfl
  · cases h

theorem csrRead_eq_next {i : Nat} {s t : State} (h : csrRead i s = .next t) :
    ∃ v, t = { s with answer := .csr v } := by
  unfold csrRead at h
  split at h
  case h_1 v _ =>
    cases h
    exact ⟨v, rfl⟩
  case h_2 => cases h

/-! ## The word of `CLRERR` -/

/-- The one row of the opcode map for `CLRERR` has its first opcode and no operands (30_encoding.md R86). -/
theorem row_of_build_clrerr {row : Row} {f : Fields} (hrow : row ∈ opcodeMap) (h : row.build f = .ok .clrerr) :
    row = { op := 0x01, build := fun _ => .ok .clrerr } := by
  have hall : ∀ row ∈ opcodeMap, row.build f = .ok .clrerr → row = { op := 0x01, build := fun _ => .ok .clrerr } := by
    simp only [opcodeMap, systemRows, arithRows, queryRows, convertRows, fieldRows, pointRows, codecRows,
      List.forall_mem_append, List.forall_mem_cons, List.not_mem_nil, false_imp_iff, implies_true, and_true]
    simp only [withRadix, withRomIndex, withDistinct, reduceCtorEq, Except.ok.injEq, false_imp_iff,
      and_true, true_and]
    refine ⟨⟨?_, ?_⟩, ?_, ?_⟩ <;> split <;> simp
  exact hall row hrow h

/-- `CLRERR` has one word (60_exceptions.md R262): the checks of its row leave no bit free. -/
theorem eq_clrerrWord_of_decodeWord {w : CmdWord} (h : decodeWord w = .ok .clrerr) : w = clrerrWord := by
  unfold decodeWord decodeFields at h
  split at h
  case h_1 => cases h
  case h_2 row hrow =>
    have hop := List.find?_some hrow
    split_ifs at h with hz hp
    obtain rfl := row_of_build_clrerr (List.mem_of_find?_eq_some hrow) h
    have hfields : fieldsOf w = { op := 0x01 } := by
      revert hop hz
      generalize fieldsOf w = f
      obtain ⟨op, r0, r1, r2, r3, aux, low⟩ := f
      simp only [Row.zerosOk, FieldClass.zeroOk, show (0xFF : BitVec 8) = BitVec.allOnes 8 from rfl, BitVec.and_allOnes]
      simp +contextual
    rw [← word_fieldsOf w, hfields]
    rfl

/-- The error codes are 1..9 (60_exceptions.md R261). -/
theorem ErrorKind.code_bounds (k : ErrorKind) : 1 ≤ k.code.toNat ∧ k.code.toNat ≤ 9 := by cases k <;> decide

/-! ## The control registers of an executed command -/

/-- The engine of an executed command is counted (10_state.md R40). -/
theorem cseq_of_body {c : Config.Params} {i : Instr} {e e' : Engine} (h : body i c e = .ok e') : e'.cseq = e.cseq := by
  by_cases hi : i = .clrerr
  · subst hi
    cases h
    rfl
  · exact (body_keeps hi h).1

/-- No command that is executed sets the fault (60_exceptions.md R260). -/
theorem inFault_of_body {c : Config.Params} {i : Instr} {e e' : Engine} (h : body i c e = .ok e')
    (hf : e.inFault = false) : e'.inFault = false := by
  by_cases hi : i = .clrerr
  · subst hi
    cases h
    exact e.clearError_inFault
  · obtain ⟨-, -, hstatus, -⟩ := body_keeps hi h
    rw [Engine.inFault, hstatus]
    exact hf

/-- Taking an error sets the fault (60_exceptions.md R263). -/
@[simp] theorem Engine.takeError_inFault (e : Engine) (r : Raise) : (e.takeError r).inFault = true := by
  simp [inFault, faultBit, setFaultBit]

/-! ## Counting commands, and the fault that stays -/

/-- Settles O12: each of the three ends of a command counts it, and the data transactions write no register. -/
theorem commandCount : Obligations.CommandCount := by
  refine ofEvery fun c => ⟨fun w s t h => ?_, fun a b s t h => ?_, fun a s t h => ?_, fun i s t h => ?_⟩
  · have hcseq : t.cseq = s.cseq + 1 := by
      rcases commandOn_cases h with ⟨-, rfl⟩ | ⟨i, e, -, -, hb, rfl⟩ | ⟨-, r, rfl⟩
      · rfl
      · exact cseq_of_body hb
      · rfl
    rw [hcseq, BitVec.toNat_add]
    rfl
  · obtain ⟨-, rfl⟩ := bufWrite_eq_next h
    rfl
  · obtain rfl := bufRead_eq_next h
    rfl
  · obtain ⟨v, rfl⟩ := csrRead_eq_next h
    rfl

/-- Settles O15: in fault only `CLRERR` is executed, and it has one word; without a fault only an error taken sets the
fault, and an executed command answers 0, the code of no error. -/
theorem faultIsSticky : Obligations.FaultIsSticky := by
  refine ofEvery fun c => ⟨fun x s t hf hx hreset h => ?_, fun w s t hf h => ?_⟩
  · cases x with
    | command w =>
      rcases commandOn_cases h with ⟨-, rfl⟩ | ⟨i, e, hw, hi, -, -⟩ | ⟨hnf, -⟩
      · exact ⟨hf, rfl, rfl, rfl, rfl, fun _ _ => rfl⟩
      · rw [hi hf] at hw
        exact absurd (congrArg _ (eq_clrerrWord_of_decodeWord hw)) hx
      · simp [hf] at hnf
    | bufWrite a b =>
      obtain ⟨-, rfl⟩ := bufWrite_eq_next h
      exact ⟨hf, rfl, rfl, rfl, rfl, fun _ hw => by cases hw⟩
    | bufRead a =>
      obtain rfl := bufRead_eq_next h
      exact ⟨hf, rfl, rfl, rfl, rfl, fun _ hw => by cases hw⟩
    | csrRead i =>
      obtain ⟨v, rfl⟩ := csrRead_eq_next h
      exact ⟨hf, rfl, rfl, rfl, rfl, fun _ hw => by cases hw⟩
    | reset => exact absurd rfl hreset
  · rcases commandOn_cases h with ⟨hf', -⟩ | ⟨i, e, -, -, hb, rfl⟩ | ⟨-, r, rfl⟩
    · simp [hf] at hf'
    · have hclear : e.inFault = false := inFault_of_body hb hf
      refine iff_of_false (by simp [hclear]) ?_
      rintro ⟨code, info, hcode, hfail⟩
      rw [failed, Host.Outcome.next.injEq] at hfail
      obtain ⟨rfl, -⟩ : 0#8 = code ∧ _ := by simpa using congrArg State.answer hfail
      simp at hcode
    · exact iff_of_true (Engine.takeError_inFault _ r) ⟨_, _, r.kind.code_bounds.1, rfl⟩

end Sys2Proof.Machine
end

section
/-! PROOFS. The invariant of the engine (10_state.md R20, R26, R34 to R38, R41) holds after reset and through every step. -/

namespace Sys2Proof.Machine

open Sys2Proof.Safety

/-! ## The invariant in two parts -/

/-- The part of the invariant that the pseudocode of a command can touch: the registers, `BUF` and the selected curve. -/
structure Engine.Sound (c : Config.Params) (e : Engine) : Prop where
  fits   : ∀ r : MReg, Fits c (e.readM r)
  points : ∀ r : PReg, CanonicalPoint (e.readP r)
  buf    : e.buf.wf c.bufsz = true
  curve  : e.curveid = 0#32

/-- The part of the invariant that taking an error and `CLRERR` touch: `STATUS` and the registers that describe the error. -/
structure Engine.ErrorSound (e : Engine) : Prop where
  status  : e.status = 0#32 ∨ e.status = 1#32
  noError : e.status = 0#32 → e.errcode = 0#32 ∧ e.errinfo = 0#32 ∧ e.errseq = 0#32
  anError : e.status = 1#32 → 1 ≤ e.errcode.toNat ∧ e.errcode.toNat ≤ 9

theorem inv_iff {c : Config.Params} {s : State} : Inv c s ↔ s.toEngine.Sound c ∧ s.toEngine.ErrorSound :=
  ⟨fun h => ⟨⟨h.fits, h.points, h.buf, h.curve⟩, ⟨h.status, h.noError, h.anError⟩⟩,
    fun ⟨h, he⟩ => ⟨h.fits, h.points, h.buf, he.status, he.noError, he.anError, h.curve⟩⟩

/-! ## The operations of the pseudocode -/

namespace Engine.Sound

variable {c : Config.Params} {e : Engine} (h : e.Sound c)
include h

theorem setM {v : Int} (md : MReg) (hv : Fits c v) : (e.setM md v).Sound c :=
  { h with
    fits := fun r => by
      rw [readM_setM]
      split
      · exact hv
      · exact h.fits r }

theorem writeP {A : Point} (pd : PReg) (hA : CanonicalPoint A) : (e.writeP pd A).Sound c :=
  { h with
    points := fun r => by
      rw [readP_writeP]
      split
      · exact hA
      · exact h.points r }

theorem writeRes (v : Word) : (e.writeRes v).Sound c := { h with }

theorem countCommand : e.countCommand.Sound c := { h with }

theorem clearError : e.clearError.Sound c := { h with }

theorem takeError (r : Raise) : (e.takeError r).Sound c := { h with }

theorem writeByte {a : Nat} (ha : a < c.bufsz) (b : Byte) : (e.writeByte a b).Sound c :=
  { h with buf := Memory.wf_put b h.buf ha }

theorem memWrite {a : Nat} {bs : List Byte} (hb : a + bs.length ≤ c.bufsz) : (e.memWrite a bs).Sound c where
  fits   := by simpa using h.fits
  points := by simpa using h.points
  buf    := memWrite_wf h.buf hb
  curve  := by simpa using h.curve

/-- `M[i] <- v` stores no value that does not fit (10_state.md R23). -/
theorem of_writeM {md : MReg} {v : Int} {e' : Engine} (hw : writeM md v c e = .ok e') : e'.Sound c := by
  rcases writeM_cases md v c e with ⟨hv, hok⟩ | ⟨-, herr⟩
  · cases hok.symm.trans hw
    exact h.setM md hv
  · cases herr.symm.trans hw

/-- An output stays inside `BUF` (20_memory.md R67). -/
theorem of_outputBytes {arg : BufArg} {out : List Byte} {e' : Engine} (hw : outputBytes arg out c e = .ok e') :
    e'.Sound c := by
  rcases outputBytes_cases arg out c e with ⟨-, herr⟩ | ⟨-, -, herr⟩ | ⟨-, hb, hok⟩
  · cases herr.symm.trans hw
  · cases herr.symm.trans hw
  · cases hok.symm.trans hw
    exact (h.memWrite hb).writeRes _

end Engine.Sound

/-- A point set from two integers is canonical (45_point_arith.md R203). -/
theorem canonical_pointOf {x y : Int} {A : Point} (h : pointOf x y = .ok A) : CanonicalPoint A := by
  unfold pointOf at h
  split at h
  · cases h
  · cases h
    constructor <;> omega

/-- A decoded point is canonical (46_point_codec.md R242). -/
theorem canonical_decodeCoords {ds : List Byte} {A : Point} (h : decodeCoords ds = .ok A) : CanonicalPoint A := by
  unfold decodeCoords at h
  split at h
  · cases h
  · dsimp only at h
    split at h
    · cases h
    · cases h
      constructor <;> omega

theorem canonical_decodePoint {bs : List Byte} {A : Point} (h : decodePoint bs = .ok A) : CanonicalPoint A := by
  unfold decodePoint at h
  split at h
  · cases h
  · split_ifs at h
    · cases h
    · cases h
      trivial
    · cases h
    · cases h
    · exact canonical_decodeCoords h

/-! ## The pseudocode of every command -/

/-- The pseudocode of every command keeps registers, `BUF` and the curve sound. -/
theorem Engine.Sound.of_body {c : Config.Params} {i : Instr} {e e' : Engine} (hs : e.Sound c) (h : body i c e = .ok e') :
    e'.Sound c := by
  cases i with
  | clrerr =>
    cases h
    exact hs.clearError
  | curve id =>
    simp only [body, bodyCurve] at h
    split at h
    · cases h
    · cases h
      exact { hs with curve := rfl }
  | ldcp | ldi | mov | add | sub | mul | sqr => exact hs.of_writeM h
  | div | mod | frombu | frombs | fadd | fsub | fmul | fsqr | pgetx | pgety =>
    obtain ⟨_, -, h⟩ := bind_ok h
    exact hs.of_writeM h
  | parse =>
    obtain ⟨_, -, h⟩ := bind_ok h
    obtain ⟨_, -, h⟩ := bind_ok h
    exact hs.of_writeM h
  | fdiv =>
    obtain ⟨_, -, h⟩ := bind_ok h
    dsimp only at h
    split at h
    · cases h
    · exact hs.of_writeM h
  | divrem =>
    obtain ⟨_, -, h⟩ := bind_ok h
    obtain ⟨_, ht, h⟩ := bind_ok h
    exact (hs.of_writeM ht).of_writeM h
  | modinv =>
    simp only [body, bodyModinv] at h
    split_ifs at h
    · cases h
    · cases h
    · exact hs.of_writeM h
  | shl | shr =>
    simp only [body, bodyShl, bodyShr, writeShiftedUp_eq] at h
    split at h
    · exact hs.of_writeM h
    · exact hs.of_writeM h
  | cmp | iseven | testbit | bitlen | pisinf | peq =>
    cases h
    exact hs.writeRes _
  | pvalid =>
    obtain ⟨_, -, h⟩ := bind_ok h
    cases h
    exact hs.writeRes _
  | feq =>
    obtain ⟨_, -, h⟩ := bind_ok h
    obtain ⟨_, -, h⟩ := bind_ok h
    cases h
    exact hs.writeRes _
  | tobu | tobs | tostr => exact hs.of_outputBytes h
  | penc =>
    obtain ⟨_, -, h⟩ := bind_ok h
    exact hs.of_outputBytes h
  | pinf pd =>
    cases h
    exact hs.writeP pd trivial
  | pgen pd =>
    cases h
    exact hs.writeP pd canonical_generator
  | pmov pd pa =>
    cases h
    exact hs.writeP pd (hs.points pa)
  | pneg pd pa =>
    cases h
    exact hs.writeP pd (canonical_neg (hs.points pa))
  | padd pd pa pb =>
    cases h
    exact hs.writeP pd (canonical_padd (hs.points pa) (hs.points pb))
  | pdbl pd pa =>
    cases h
    exact hs.writeP pd (canonical_pdbl _)
  | pseta pd =>
    obtain ⟨_, hA, h⟩ := bind_ok h
    cases h
    exact hs.writeP pd (canonical_pointOf hA)
  | pmul pd pa =>
    obtain ⟨_, -, h⟩ := bind_ok h
    cases h
    exact hs.writeP pd (canonical_pmul (hs.points pa) _)
  | pmul2 pd pa _ pb =>
    obtain ⟨_, -, h⟩ := bind_ok h
    obtain ⟨_, -, h⟩ := bind_ok h
    cases h
    exact hs.writeP pd (canonical_pmul2 (hs.points pa) (hs.points pb) _ _)
  | pdec pd =>
    obtain ⟨_, -, h⟩ := bind_ok h
    obtain ⟨_, hA, h⟩ := bind_ok h
    cases h
    exact hs.writeP pd (canonical_decodePoint hA)
  | pdechex pd =>
    obtain ⟨_, -, h⟩ := bind_ok h
    obtain ⟨_, -, h⟩ := bind_ok h
    obtain ⟨_, hA, h⟩ := bind_ok h
    cases h
    exact hs.writeP pd (canonical_decodePoint hA)

/-! ## The error registers -/

namespace Engine.ErrorSound

variable {e : Engine} (h : e.ErrorSound)
include h

theorem takeError (r : Raise) : (e.takeError r).ErrorSound := by
  have hst : (e.takeError r).status = 1#32 := by
    rw [takeError_status]
    rcases h.status with hs | hs <;> rw [hs] <;> rfl
  refine ⟨.inr hst, fun h0 => ?_, fun _ => ?_⟩
  · rw [hst] at h0
    cases h0
  · have := r.kind.code_bounds
    rw [takeError_errcode, BitVec.toNat_setWidth, Nat.mod_eq_of_lt (by omega)]
    exact this

theorem countCommand : e.countCommand.ErrorSound := { h with }

theorem clearError : e.clearError.ErrorSound := by
  have hst : e.clearError.status = 0#32 := by
    rw [clearError_status]
    rcases h.status with hs | hs <;> rw [hs] <;> rfl
  refine ⟨.inl hst, fun _ => ⟨rfl, rfl, rfl⟩, fun h1 => ?_⟩
  rw [hst] at h1
  cases h1

/-- Only `CLRERR` among the commands writes the error registers of an engine that it executes on. -/
theorem of_body {c : Config.Params} {i : Instr} {e' : Engine} (hb : body i c e = .ok e') : e'.ErrorSound := by
  by_cases hi : i = .clrerr
  · subst hi
    cases hb
    exact h.clearError
  · obtain ⟨-, -, hstatus, hcode, hinfo, hseq⟩ := body_keeps hi hb
    exact ⟨hstatus ▸ h.status, hstatus ▸ hcode ▸ hinfo ▸ hseq ▸ h.noError, hstatus ▸ hcode ▸ h.anError⟩

end Engine.ErrorSound

/-! ## Right after reset -/

/-- Right after reset, at power-on or later, the invariant holds (10_state.md R43). -/
theorem Engine.Sound.reset (c : Config.Params) (epoch : Nat) : (Engine.reset epoch).Sound c where
  fits r   := by
    rw [Engine.reset_readM]
    exact lt_of_lt_of_le (by positivity) (capacity_ge c)
  points r := by
    rw [Engine.reset_readP]
    trivial
  buf      := rfl
  curve    := rfl

theorem Engine.ErrorSound.reset (epoch : Nat) : (Engine.reset epoch).ErrorSound :=
  ⟨.inl rfl, fun _ => ⟨rfl, rfl, rfl⟩, fun h => by cases h⟩

/-! ## Every transaction -/

theorem commandOn_inv {c : Config.Params} {w : CmdWord} {s t : State} (hs : Inv c s)
    (h : commandOn c (execAt c) w s = .next t) : Inv c t := by
  obtain ⟨hr, he⟩ := inv_iff.1 hs
  rcases commandOn_cases h with ⟨-, rfl⟩ | ⟨i, e, -, -, hb, rfl⟩ | ⟨-, r, rfl⟩
  · exact inv_iff.2 ⟨hr.countCommand, he.countCommand⟩
  · exact inv_iff.2 ⟨hr.countCommand.of_body hb, he.countCommand.of_body hb⟩
  · exact inv_iff.2 ⟨hr.takeError r, he.takeError r⟩

theorem transactOn_inv {c : Config.Params} {x : Transaction} {s t : State} (hs : Inv c s)
    (h : transactOn c (execAt c) x s = .next t) : Inv c t := by
  cases x with
  | command w => exact commandOn_inv hs h
  | bufWrite a b =>
    obtain ⟨ha, rfl⟩ := bufWrite_eq_next h
    obtain ⟨hr, he⟩ := inv_iff.1 hs
    exact inv_iff.2 ⟨hr.writeByte ha b, { he with }⟩
  | bufRead a =>
    obtain rfl := bufRead_eq_next h
    exact { hs with }
  | csrRead i =>
    obtain ⟨v, rfl⟩ := csrRead_eq_next h
    exact { hs with }
  | reset =>
    cases h
    exact inv_iff.2 ⟨.reset c _, .reset _⟩

theorem stepAt_inv {c : Config.Params} {s t : State} (hs : Inv c s) (h : stepAt c s = .next t) : Inv c t := by
  cases hx : s.input with
  | none =>
    cases (takeTransaction_none hx).symm.trans h
    exact hs
  | some x =>
    rw [stepAt_of_input hx] at h
    exact transactOn_inv (s := { s with input := none }) { hs with } h

/-- Settles O18: the values of `Engine.reset` are sound for all parameters. -/
theorem resetMeetsInvariant : Obligations.ResetMeetsInvariant := fun c =>
  inv_iff.2 ⟨.reset c 0, .reset 0⟩

/-- Settles O19: the step takes one transaction (`stepAt_of_input`), and each of them keeps both parts of the invariant. -/
theorem stepKeepsInvariant : Obligations.StepKeepsInvariant :=
  ⟨fun s _ hs h => stepAt_inv hs (step_eq_stepAt s ▸ h), fun _ _ _ => stepAt_inv⟩

end Sys2Proof.Machine
end

section
/-! PROOFS. The point functions are the operations of the curve's group (45_point_arith.md R209 to R213), coordinate by
coordinate against Mathlib's formulas for a Weierstrass curve. -/

namespace Sys2Proof.Machine

open Sys2Proof.Safety WeierstrassCurve.Affine

/-! ## The curve of 10_state.md R30 -/

/-- The discriminant is `-27 * (4 * 7)^2`, which `p` does not divide. -/
theorem curveE_discriminant_ne_zero : curveE.Δ ≠ 0 := by
  have hΔ : curveE.Δ = -((21168 : Nat) : ZMod Rom.p) := by
    simp only [WeierstrassCurve.Δ, WeierstrassCurve.b₂, WeierstrassCurve.b₄, WeierstrassCurve.b₆, WeierstrassCurve.b₈,
      curveE, Rom.a, Rom.b]
    push_cast
    ring
  rw [hΔ, neg_ne_zero, Ne, ZMod.natCast_eq_zero_iff]
  decide +kernel

theorem curveE_equation_iff (x y : ZMod Rom.p) : curveE.Equation x y ↔ y * y = x * x * x + 7 := by
  rw [WeierstrassCurve.Affine.equation_iff]
  simp only [curveE, Rom.a, Rom.b]
  push_cast
  ring_nf

theorem curveE_negY (x y : ZMod Rom.p) : curveE.negY x y = -y := by simp [negY, curveE]

/-- `ROM.p` is odd, so no coordinate but 0 is its own negative. -/
theorem odd_p : Odd Rom.p := by decide +kernel

section

variable [Fact (Nat.Prime Rom.p)]

/-- A canonical pair that satisfies the equation is a point of the group. -/
theorem exists_represents {x y : Nat} (hx : x < Rom.p) (hy : y < Rom.p)
    (h : y * y % Rom.p = (x * x * x + 7) % Rom.p) : ∃ U : curveE.Point, Represents (.aff x y) U := by
  have heq := (ZMod.natCast_eq_natCast_iff' _ _ Rom.p).2 h
  push_cast at heq
  exact ⟨_, hx, hy, (equation_iff_nonsingular_of_Δ_ne_zero curveE_discriminant_ne_zero).1
    ((curveE_equation_iff _ _).2 heq), rfl⟩

/-- Canonical coordinates stand for the point that has them in the field. -/
theorem represents_aff {x y : Nat} {X Y : ZMod Rom.p} {h : curveE.Nonsingular X Y} (hx : x < Rom.p) (hy : y < Rom.p)
    (hX : (x : ZMod Rom.p) = X) (hY : (y : ZMod Rom.p) = Y) : Represents (.aff x y) (.some X Y h) := by
  subst hX hY
  exact ⟨hx, hy, h, rfl⟩

/-! ## The operations -/

theorem represents_negPoint {A : Point} {U : curveE.Point} (h : Represents A U) : Represents (negPoint A) (-U) := by
  cases A with
  | inf =>
    obtain rfl : U = .zero := h
    rfl
  | aff x y =>
    obtain ⟨hx, -, hU, rfl⟩ := h
    rw [Point.neg_some]
    refine represents_aff hx (modP_lt _) rfl ?_
    rw [curveE_negY, cast_modP]
    simp

/-- The last lines of `pdbl` and `padd` (45_point_arith.md R210) are Mathlib's sum on a line of slope `lam`. -/
theorem represents_chordPoint {lam x1 y1 x2 : Nat} {ℓ : ZMod Rom.p} (hlam : (lam : ZMod Rom.p) = ℓ)
    (h : curveE.Nonsingular (curveE.addX x1 x2 ℓ) (curveE.addY x1 x2 y1 ℓ)) :
    Represents (chordPoint lam x1 y1 x2) (.some _ _ h) := by
  have hX : ((modP ((lam : Int) * lam - x1 - x2) : Nat) : ZMod Rom.p) = curveE.addX x1 x2 ℓ := by
    subst hlam
    simp [addX, curveE, sq]
  refine represents_aff (modP_lt _) (modP_lt _) hX ?_
  rw [cast_modP, addY, curveE_negY, negAddY, ← hX, ← hlam]
  push_cast
  ring

theorem represents_pdbl {A : Point} {U : curveE.Point} (h : Represents A U) : Represents (pdbl A) (U + U) := by
  cases A with
  | inf =>
    obtain rfl : U = .zero := h
    exact add_zero _
  | aff x y =>
    obtain ⟨hx, hy, hU, rfl⟩ := h
    by_cases hy0 : y = 0
    · subst hy0
      rw [Point.add_self_of_Y_eq (by rw [curveE_negY, Nat.cast_zero, neg_zero])]
      rfl
    · have hne : (y : ZMod Rom.p) ≠ curveE.negY x y := by
        rw [curveE_negY]
        exact ZMod.ne_neg_self odd_p fun h0 => hy0 (eq_of_cast_eq hy p_pos (by simpa using h0))
      rw [Point.add_self_of_Y_ne hne, pdbl, if_neg hy0]
      refine represents_chordPoint ?_ _
      rw [slope_of_Y_ne rfl hne, cast_modP, curveE_negY]
      push_cast [cast_invP]
      simp [curveE, Rom.a]
      ring

theorem represents_padd {A B : Point} {U V : curveE.Point} (hA : Represents A U) (hB : Represents B V) :
    Represents (padd A B) (U + V) := by
  cases A with
  | inf =>
    obtain rfl : U = .zero := hA
    exact (zero_add V).symm ▸ hB
  | aff x1 y1 =>
    cases B with
    | inf =>
      obtain rfl : V = .zero := hB
      exact (add_zero U).symm ▸ hA
    | aff x2 y2 =>
      by_cases hsame : x1 = x2 ∧ y1 = y2
      · obtain ⟨rfl, rfl⟩ := hsame
        obtain rfl : U = V := by
          obtain ⟨-, -, _, rfl⟩ := hA
          obtain ⟨-, -, _, rfl⟩ := hB
          rfl
        rw [padd, if_pos ⟨rfl, rfl⟩]
        exact represents_pdbl hA
      · obtain ⟨hx1, hy1, hU, rfl⟩ := hA
        obtain ⟨hx2, hy2, hV, rfl⟩ := hB
        rw [padd, if_neg hsame]
        by_cases hx : x1 = x2
        · subst hx
          have hy : (y1 : ZMod Rom.p) ≠ y2 := fun h => hsame ⟨rfl, eq_of_cast_eq hy1 hy2 h⟩
          rw [if_pos rfl, Point.add_of_Y_eq rfl ((Y_eq_of_X_eq hU.1 hV.1 rfl).resolve_left hy)]
          rfl
        · have hne : (x1 : ZMod Rom.p) ≠ x2 := fun h => hx (eq_of_cast_eq hx1 hx2 h)
          rw [if_neg hx, Point.add_of_X_ne hne]
          refine represents_chordPoint ?_ _
          rw [slope_of_X_ne hne, cast_modP]
          push_cast [cast_invP]
          rw [← neg_sub, ← neg_sub (x1 : ZMod Rom.p), inv_neg, neg_mul_neg, div_eq_mul_inv]

end

/-- Settles O45: each command stores what its point function gives (`run_writeP`), and that represents the result of the
group's operation. -/
theorem groupLaw : Obligations.GroupLaw := by
  refine ofEvery fun c => ?_
  intro _
  refine ⟨fun x y => exists_represents, fun s pd pa pb U V hf hU hV => ⟨⟨_, ?_, represents_padd hU hV⟩,
    ⟨_, ?_, represents_pdbl hU⟩, ⟨_, ?_, represents_negPoint hU⟩⟩⟩
  all_goals
    rw [execAt_eq_runCommand c (by simp)]
    exact run_writeP hf rfl

end Sys2Proof.Machine
end

section
/-! PROOFS. The limb lists of the reference datapath (10_state.md R21, R22) are Mathlib's digits in base `2^26`; with that the
queries on limbs (42_mpi_query.md R160 to R163) are read off the value. -/

namespace Sys2Proof.Machine.Datapath

open Sys2Proof.Safety

/-! ## Limbs are digits -/

theorem one_lt_radix : 1 < radix := by decide

theorem limbsValue_eq_ofDigits (a : List Nat) : limbsValue a = Nat.ofDigits radix a := by
  induction a with
  | nil => rfl
  | cons x xs ih => rw [limbsValue, ih, Nat.ofDigits_cons]

/-- `n` limbs are the digits when `n` is exactly the length of the value. -/
theorem lowLimbs_eq_digits {n m : Nat} (hlt : m < radix ^ n) (hle : n = 0 ∨ radix ^ (n - 1) ≤ m) :
    lowLimbs n m = Nat.digits radix m := by
  induction n generalizing m with
  | zero =>
    obtain rfl : m = 0 := by simpa using hlt
    simp [lowLimbs]
  | succ n ih =>
    replace hle : radix ^ n ≤ m := hle.resolve_left n.succ_ne_zero
    have hm : 0 < m := lt_of_lt_of_le (Nat.pow_pos (by decide)) hle
    rw [lowLimbs, Nat.digits_def' one_lt_radix hm, ih]
    · exact Nat.div_lt_of_lt_mul (by rwa [← pow_succ'])
    · cases n with
      | zero => exact .inl rfl
      | succ k => exact .inr ((Nat.le_div_iff_mul_le (by decide)).2 (by rwa [← pow_succ]))

theorem limbsOf_eq_digits (m : Nat) : limbsOf m = Nat.digits radix m := by
  refine lowLimbs_eq_digits ?_ ?_
  · rw [radix, ← pow_mul, ← bitlen_le_iff, Config.limbBits]
    omega
  · refine or_iff_not_imp_left.2 fun hn => ?_
    rw [radix, ← pow_mul, ← lt_bitlen_iff]
    simp only [Config.limbBits] at hn ⊢
    omega

@[simp] theorem limbsValue_limbsOf (m : Nat) : limbsValue (limbsOf m) = m := by
  rw [limbsValue_eq_ofDigits, limbsOf_eq_digits, Nat.ofDigits_digits]

/-- Limb `i` of a magnitude. -/
theorem getD_limbsOf (m i : Nat) : (limbsOf m).getD i 0 = m / radix ^ i % radix := by
  rw [limbsOf_eq_digits, Nat.getD_digits m i one_lt_radix]

theorem limbsOf_eq_nil_iff {m : Nat} : limbsOf m = [] ↔ m = 0 := by
  rw [limbsOf_eq_digits, Nat.digits_eq_nil_iff_eq_zero]

theorem lowLimbs_length (n m : Nat) : (lowLimbs n m).length = n := by
  induction n generalizing m with
  | zero => rfl
  | succ n ih => rw [lowLimbs, List.length_cons, ih]

/-- The limbs below `k` hold exactly the values below `radix^k`. -/
theorem limbsOf_length_le_iff {m k : Nat} : (limbsOf m).length ≤ k ↔ m < radix ^ k := by
  rw [limbsOf_eq_digits, Nat.digits_length_le_iff one_lt_radix]

/-! ## Normal limb lists -/

/-- A list is trimmed when its most significant limb is not 0. -/
theorem trim_eq_self_iff (a : List Nat) : trim a = a ↔ ∀ h : a ≠ [], a.getLast h ≠ 0 := by
  induction a with
  | nil => simp [trim]
  | cons x xs ih =>
    cases xs with
    | nil => by_cases hx : x = 0 <;> simp [trim, hx]
    | cons y ys =>
      have hstep : trim (x :: y :: ys) = x :: y :: ys ↔ trim (y :: ys) = y :: ys := by
        rw [trim]
        split
        case h_1 h0 => by_cases hx : x = 0 <;> simp [h0, hx]
        case h_2 z zs h0 => simp [h0]
      rw [hstep, ih]
      simp

/-- The normal limb lists are the lists of limbs of the magnitudes, one for each (10_state.md R21). -/
theorem limbsOf_limbsValue {a : List Nat} (h : Normal a) : limbsOf (limbsValue a) = a := by
  obtain ⟨hlimbs, htrim⟩ := h
  rw [limbsOf_eq_digits, limbsValue_eq_ofDigits]
  exact Nat.digits_ofDigits _ one_lt_radix a hlimbs ((trim_eq_self_iff a).1 htrim)

theorem normal_limbsOf (m : Nat) : Normal (limbsOf m) := by
  rw [limbsOf_eq_digits]
  refine ⟨fun x hx => Nat.digits_lt_base one_lt_radix hx, (trim_eq_self_iff _).2 fun h => ?_⟩
  exact Nat.getLast_digit_ne_zero _ (Nat.digits_ne_nil_iff_ne_zero.1 h)

/-- A limb list without a leading zero limb stands for 0 only when it is empty (10_state.md R21). -/
theorem limbsValue_pos {a : List Nat} (h : Normal a) (hne : a ≠ []) : 0 < limbsValue a := by
  refine Nat.pos_of_ne_zero fun h0 => hne ?_
  rw [← limbsOf_limbsValue h, h0]
  rfl

/-! ## Sign and limbs -/

@[simp] theorem SignedLimbs.natAbs_value (x : SignedLimbs) : x.value.natAbs = limbsValue x.limbs := by
  unfold SignedLimbs.value
  split
  · rw [Int.natAbs_neg, Int.natAbs_natCast]
  · rw [Int.natAbs_natCast]

/-- A sign flag says whether the value is negative. -/
theorem SignedLimbs.Normal.value_neg_iff {x : SignedLimbs} (h : x.Normal) : x.value < 0 ↔ x.neg = true := by
  obtain ⟨hlimbs, hzero⟩ := h
  unfold SignedLimbs.value
  cases hneg : x.neg with
  | true =>
    have := limbsValue_pos hlimbs fun h0 => by simp [hzero h0] at hneg
    simp [this]
  | false => simp

theorem SignedLimbs.normal_of (v : Int) : (SignedLimbs.of v).Normal := by
  refine ⟨normal_limbsOf _, fun h => ?_⟩
  obtain rfl : v = 0 := Int.natAbs_eq_zero.1 (limbsOf_eq_nil_iff.1 h)
  rfl

theorem SignedLimbs.value_of (v : Int) : (SignedLimbs.of v).value = v := by
  simp only [SignedLimbs.value, SignedLimbs.of, limbsValue_limbsOf, decide_eq_true_eq]
  split <;> omega

/-- The sign and limbs of a value are the only normal ones that stand for it (10_state.md R21). -/
theorem SignedLimbs.Normal.of_value {x : SignedLimbs} (h : x.Normal) : SignedLimbs.of x.value = x := by
  have hneg : decide (x.value < 0) = x.neg := by rw [Bool.eq_iff_iff, decide_eq_true_iff, h.value_neg_iff]
  rw [SignedLimbs.of, hneg, SignedLimbs.natAbs_value, limbsOf_limbsValue h.1]

/-- The capacity of a register is its number of limbs (10_state.md R22, R23). -/
theorem fits_iff_nlimbs_le (c : Config.Params) (v : Int) : Fits c v ↔ nlimbs v ≤ c.nlimb := by
  rw [Fits, capacity_eq, ← bitlen_le_iff, Config.Params.capacityBits, nlimbs, Config.limbBits]
  omega

/-! ## Queries (42_mpi_query.md R161 to R163) -/

theorem limbsEven_limbsOf (m : Nat) : limbsEven (limbsOf m) = decide (2 ∣ m) := by
  rw [limbsEven, getD_limbsOf, pow_zero, Nat.div_one, Nat.mod_mod_of_dvd m (by decide), decide_eq_decide,
    Nat.dvd_iff_mod_eq_zero]

theorem limbsBit_limbsOf (m n : Nat) : limbsBit (limbsOf m) n = m.testBit n := by
  have hlt : n % Config.limbBits < Config.limbBits := Nat.mod_lt n (by decide)
  rw [limbsBit, getD_limbsOf, radix, ← pow_mul, Nat.testBit_mod_two_pow, Nat.testBit_div_two_pow, Nat.mod_add_div]
  simp [hlt]

theorem bitlen_div_two_pow (m j : Nat) : bitlen (m / 2 ^ j) = bitlen m - j := by
  refine eq_of_forall_ge_iff fun k => ?_
  rw [bitlen_le_iff, Nat.div_lt_iff_lt_mul (Nat.pow_pos two_pos), ← pow_add, ← bitlen_le_iff, Nat.sub_le_iff_le_add]

theorem limbsBitlen_limbsOf (m : Nat) : limbsBitlen (limbsOf m) = bitlen m := by
  unfold limbsBitlen
  split
  case isTrue h =>
    rw [limbsOf_eq_nil_iff.1 h]
    rfl
  case isFalse h =>
    have hpos : 0 < (limbsOf m).length := List.length_pos_of_ne_nil h
    generalize hk : (limbsOf m).length - 1 = k
    have htop : m / radix ^ k < radix := by
      refine Nat.div_lt_of_lt_mul ?_
      rw [← pow_succ, ← limbsOf_length_le_iff]
      omega
    have hlow : Config.limbBits * k < bitlen m := by
      rw [lt_bitlen_iff, pow_mul, ← not_lt]
      exact fun hlt => absurd (limbsOf_length_le_iff.2 hlt) (by omega)
    rw [getD_limbsOf, Nat.mod_eq_of_lt htop, radix, ← pow_mul, bitlen_div_two_pow]
    omega

/-! ## Comparison (42_mpi_query.md R160) -/

/-- The loop of `mag_cmp` compares the values of the limbs that it has seen. -/
theorem cmpBelow_limbsOf (m n k : Nat) :
    cmpBelow (limbsOf m) (limbsOf n) k = (((m % radix ^ k : Nat) : Int) - ((n % radix ^ k : Nat) : Int)).sign := by
  induction k with
  | zero => simp [cmpBelow, Nat.mod_one]
  | succ k ih =>
    have hm : m % radix ^ k < radix ^ k := Nat.mod_lt m (Nat.pow_pos (by decide))
    have hn : n % radix ^ k < radix ^ k := Nat.mod_lt n (Nat.pow_pos (by decide))
    rw [cmpBelow, ih, getD_limbsOf, getD_limbsOf, Nat.mod_pow_succ, Nat.mod_pow_succ]
    generalize m % radix ^ k = m' at hm ⊢
    generalize n % radix ^ k = n' at hn ⊢
    generalize m / radix ^ k % radix = x
    generalize n / radix ^ k % radix = y
    rcases Nat.lt_trichotomy x y with h | rfl | h
    · have := Nat.mul_le_mul_left (radix ^ k) h
      rw [if_pos h.ne, if_pos h, Int.sign_eq_neg_one_of_neg]
      rw [Nat.mul_succ] at this
      omega
    · rw [if_neg (not_not.2 rfl)]
      congr 1
      push_cast
      ring
    · have := Nat.mul_le_mul_left (radix ^ k) h
      rw [if_pos h.ne', if_neg h.le.not_gt, Int.sign_eq_one_of_pos]
      rw [Nat.mul_succ] at this
      omega

theorem limbsOf_length_lt {m n : Nat} (h : (limbsOf m).length < (limbsOf n).length) : m < n :=
  (limbsOf_length_le_iff.1 le_rfl).trans_le (not_lt.1 fun hlt => absurd (limbsOf_length_le_iff.2 hlt) h.not_ge)

/-- `mag_cmp` compares magnitudes (41_mpi_arith.md R122). -/
theorem magCmp_limbsOf (m n : Nat) : magCmp (limbsOf m) (limbsOf n) = ((m : Int) - n).sign := by
  unfold magCmp
  rcases Nat.lt_trichotomy (limbsOf m).length (limbsOf n).length with h | h | h
  · have := limbsOf_length_lt h
    rw [if_pos h.ne, if_pos h, Int.sign_eq_neg_one_of_neg (by omega)]
  · rw [if_neg (not_not.2 h), cmpBelow_limbsOf, Nat.mod_eq_of_lt (limbsOf_length_le_iff.1 le_rfl),
      Nat.mod_eq_of_lt (limbsOf_length_le_iff.1 h.ge)]
  · have := limbsOf_length_lt h
    rw [if_pos h.ne', if_neg h.le.not_gt, Int.sign_eq_one_of_pos (by omega)]

/-- `compareTo` compares values (42_mpi_query.md R160). -/
theorem signedCmp_eq_sign {x y : SignedLimbs} (hx : x.Normal) (hy : y.Normal) :
    signedCmp x y = (x.value - y.value).sign := by
  have hmag : magCmp x.limbs y.limbs = ((limbsValue x.limbs : Int) - limbsValue y.limbs).sign := by
    rw [← magCmp_limbsOf, limbsOf_limbsValue hx.1, limbsOf_limbsValue hy.1]
  have hxneg := hx.value_neg_iff
  have hyneg := hy.value_neg_iff
  unfold signedCmp
  cases hnx : x.neg <;> cases hny : y.neg <;> simp only [hnx, hny] at hxneg hyneg
  · simp [hmag, SignedLimbs.value, hnx, hny]
  · rw [Int.sign_eq_one_of_pos (by simp at hxneg hyneg; omega)]
    rfl
  · rw [Int.sign_eq_neg_one_of_neg (by simp at hxneg hyneg; omega)]
    rfl
  · rw [if_neg (not_not.2 rfl), if_pos rfl, hmag, ← Int.sign_neg]
    simp only [SignedLimbs.value, hnx, hny, if_true]
    congr 1
    omega

/-- Settles O53: limbs are the digits of the magnitude in base `2^26` (`limbsOf_eq_digits`), and everything is read off
them. -/
theorem limbView : Obligations.LimbView := by
  refine ⟨fun v => ⟨SignedLimbs.normal_of v, SignedLimbs.value_of v, fun x hx hv => hv ▸ hx.of_value.symm,
    lowLimbs_length _ _, fun c => fits_iff_nlimbs_le c v, ?_, limbsBit_limbsOf _, limbsBitlen_limbsOf _⟩,
    fun x y hx hy => ?_⟩
  · rw [SignedLimbs.of, limbsEven_limbsOf, decide_eq_decide, Int.natAbs_dvd_natAbs.symm]
    rfl
  · rw [signedCmp_eq_sign hx hy]
    rcases lt_trichotomy x.value y.value with h | h | h
    · rw [if_pos h, Int.sign_eq_neg_one_of_neg (by omega)]
    · simp [h]
    · rw [if_neg h.le.not_gt, if_neg h.ne', Int.sign_eq_one_of_pos (by omega)]

end Sys2Proof.Machine.Datapath
end

section
/-! PROOFS. A command sees `BUF` only through its input operand (20_memory.md R60), and nothing of the host's side
(10_state.md R44). -/

namespace Sys2Proof.Machine

open Sys2Proof.Safety

/-! ## Two runs of one pseudocode -/

/-- How two runs end that began on the engines `e` and `f`, alike but for `BUF`: both with the same error, or both with the
same registers and every byte alike that was alike before. -/
inductive SameEnd (e f : Engine) : Except Raise Engine → Except Raise Engine → Prop
  | error (r : Raise) : SameEnd e f (.error r) (.error r)
  | ok {e' f' : Engine} (hregs : f' = { e' with buf := f'.buf })
      (hbytes : ∀ a, f.readByte a = e.readByte a → f'.readByte a = e'.readByte a) : SameEnd e f (.ok e') (.ok f')

/-- The input operand is the same on two engines whose bytes of it are. -/
theorem inputBytes_congr {e f : Engine} {arg : BufArg} {c : Config.Params}
    (h : ∀ a, arg.addr.toNat ≤ a → a < arg.addr.toNat + arg.len.toNat → f.readByte a = e.readByte a) :
    inputBytes arg c e = inputBytes arg c f := by
  rw [inputBytes, inputBytes, Engine.memRead_congr fun a h1 h2 => (h a h1 h2).symm]

namespace SameEnd

/-- A part that gives both runs the same value or error may stand before them. -/
theorem bind {α : Type} {e f : Engine} {x y : Except Raise α} {K L : α → Except Raise Engine} (hxy : x = y)
    (h : ∀ a, SameEnd e f (K a) (L a)) : SameEnd e f (x >>= K) (y >>= L) := by
  subst hxy
  cases x with
  | ok a => exact h a
  | error r => exact .error r

/-- Both runs take the branch of a test that reads no byte. -/
theorem ite {e f : Engine} {P : Prop} [Decidable P] {x₁ y₁ x₂ y₂ : Except Raise Engine} (h₁ : SameEnd e f x₁ y₁)
    (h₂ : SameEnd e f x₂ y₂) : SameEnd e f (if P then x₁ else x₂) (if P then y₁ else y₂) := by
  split_ifs
  · exact h₁
  · exact h₂

/-- Two runs that end alike may go on with one pseudocode whose runs do. -/
theorem seq {e f : Engine} {x y : Except Raise Engine} {K : Engine → Except Raise Engine} (hxy : SameEnd e f x y)
    (h : ∀ (e' : Engine) (buf : Memory), SameEnd e' { e' with buf := buf } (K e') (K { e' with buf := buf })) :
    SameEnd e f (x >>= K) (y >>= K) := by
  cases hxy with
  | error r => exact .error r
  | @ok e' f' hregs hbytes =>
    have hK := h e' f'.buf
    rw [← hregs] at hK
    change SameEnd e f (K e') (K f')
    generalize K e' = p, K f' = q at hK
    cases hK with
    | error r => exact .error r
    | ok hregs' hbytes' => exact .ok hregs' fun a ha => hbytes' a (hbytes a ha)

variable {e : Engine} {buf : Memory}

/-- `M[i] <- v` tests and writes no byte. -/
theorem of_writeM (md : MReg) (v : Int) (c : Config.Params) :
    SameEnd e { e with buf := buf } (writeM md v c e) (writeM md v c { e with buf := buf }) := by
  by_cases hv : Fits c v
  · rw [writeM_fits hv, writeM_fits hv]
    exact .ok rfl fun _ h => h
  · rw [writeM_overflow hv, writeM_overflow hv]
    exact .error _

/-- Nor does a left shift into a register. -/
theorem of_writeShiftedUp (md : MReg) (v : Int) (k : Nat) (c : Config.Params) :
    SameEnd e { e with buf := buf } (writeShiftedUp md v k c e) (writeShiftedUp md v k c { e with buf := buf }) := by
  rw [writeShiftedUp_eq, writeShiftedUp_eq]
  exact of_writeM md _ c

/-- An output writes the same bytes on both sides and leaves the others. -/
theorem of_outputBytes (arg : BufArg) (out : List Byte) (c : Config.Params) :
    SameEnd e { e with buf := buf } (outputBytes arg out c e) (outputBytes arg out c { e with buf := buf }) := by
  unfold outputBytes
  split_ifs
  · exact .error _
  · refine .ok ?_ fun a h => ?_
    · rw [Engine.memWrite_eq, Engine.memWrite_eq e]
      rfl
    · rw [Engine.writeRes_readByte, Engine.writeRes_readByte, Engine.readByte_memWrite, Engine.readByte_memWrite, h]
  · exact .error _

end SameEnd

/-- The pseudocode of a command depends on `BUF` only through the bytes of its input operand. -/
theorem body_sameEnd {i : Instr} {e : Engine} {buf : Memory} (c : Config.Params)
    (h : ∀ arg, inArg i = some arg → ∀ a, arg.addr.toNat ≤ a → a < arg.addr.toNat + arg.len.toNat →
      Engine.readByte { e with buf := buf } a = e.readByte a) :
    SameEnd e { e with buf := buf } (body i c e) (body i c { e with buf := buf }) := by
  cases i with
  | clrerr | cmp | iseven | testbit | bitlen | pinf | pgen | pmov | pisinf | peq | pneg | padd | pdbl =>
    exact .ok rfl fun _ ha => ha
  | curve => exact .ite (.error _) (.ok rfl fun _ ha => ha)
  | ldcp | ldi | mov | add | sub | mul | sqr => exact .of_writeM _ _ c
  | div | mod | fadd | fsub | fmul | fsqr | pgetx | pgety => exact .bind rfl fun _ => .of_writeM _ _ c
  | fdiv => exact .bind rfl fun _ => .ite (.error _) (.of_writeM _ _ c)
  | divrem => exact .bind rfl fun _ => .seq (.of_writeM _ _ c) fun _ _ => .of_writeM _ _ c
  | modinv => exact .ite (.error _) (.ite (.error _) (.of_writeM _ _ c))
  | shl => exact .ite (.of_writeShiftedUp _ _ _ c) (.of_writeM _ _ c)
  | shr => exact .ite (.of_writeM _ _ c) (.of_writeShiftedUp _ _ _ c)
  | frombu | frombs => exact .bind (inputBytes_congr (h _ rfl)) fun _ => .of_writeM _ _ c
  | parse => exact .bind (inputBytes_congr (h _ rfl)) fun _ => .bind rfl fun _ => .of_writeM _ _ c
  | tobu | tobs | tostr => exact .of_outputBytes _ _ c
  | penc => exact .bind rfl fun _ => .of_outputBytes _ _ c
  | feq => exact .bind rfl fun _ => .bind rfl fun _ => .ok rfl fun _ ha => ha
  | pseta | pmul | pvalid => exact .bind rfl fun _ => .ok rfl fun _ ha => ha
  | pmul2 => exact .bind rfl fun _ => .bind rfl fun _ => .ok rfl fun _ ha => ha
  | pdec => exact .bind (inputBytes_congr (h _ rfl)) fun _ => .bind rfl fun _ => .ok rfl fun _ ha => ha
  | pdechex =>
    exact .bind (inputBytes_congr (h _ rfl)) fun _ => .bind rfl fun _ => .bind rfl fun _ => .ok rfl fun _ ha => ha

/-! ## Two runs of one command -/

/-- In fault every command but `CLRERR` is rejected (60_exceptions.md R265). -/
theorem execAt_rejected {c : Config.Params} {i : Instr} {s : State} (h : s.inFault = true ∧ i ≠ .clrerr) :
    execAt c i s = .next s.rejected :=
  if_pos h

/-- A command that is not rejected responds when its pseudocode ends, and takes the error that it raises. -/
theorem execAt_runs {c : Config.Params} {i : Instr} {s : State} (h : ¬ (s.inFault = true ∧ i ≠ .clrerr)) :
    (∀ e, body i c s.countCommand = .ok e → execAt c i s = .next (s.respond e 0)) ∧
    (∀ r, body i c s.countCommand = .error r → execAt c i s = .next (s.failedWith r)) := by
  rw [execAt, if_neg h, runBody]
  exact ⟨fun e he => by rw [he], fun r hr => by rw [hr]⟩

/-- Settles O14: both runs are rejected, or their pseudocode has the same end (`body_sameEnd`), which is all that the frame
of a command passes on. -/
theorem bufferReads : Obligations.BufferReads := by
  refine ofEvery fun c i s t u buf x y h ht hu => ?_
  by_cases hrej : s.inFault = true ∧ i ≠ .clrerr
  · cases (execAt_rejected hrej).symm.trans ht
    cases (execAt_rejected (s := { s with buf := buf, input := x, answer := y }) hrej).symm.trans hu
    exact ⟨rfl, fun _ ha => ha⟩
  · obtain ⟨hok, herror⟩ := execAt_runs (c := c) hrej
    obtain ⟨hok', herror'⟩ := execAt_runs (c := c) (s := { s with buf := buf, input := x, answer := y }) hrej
    have hend := body_sameEnd (e := s.countCommand) (buf := buf) c h
    generalize hp : body i c s.countCommand = p at hend
    generalize hq : body i c { s.countCommand with buf := buf } = q at hend
    cases hend with
    | error r =>
      cases (herror r hp).symm.trans ht
      cases (herror' r hq).symm.trans hu
      exact ⟨rfl, fun _ ha => ha⟩
    | @ok e f hregs hbytes =>
      cases (hok e hp).symm.trans ht
      cases (hok' f hq).symm.trans hu
      refine ⟨?_, hbytes⟩
      rw [hregs]
      rfl

end Sys2Proof.Machine
end

section
/-! PROOFS. Transactions made one after another, and the byte that none of them writes (20_memory.md R71). -/

namespace Sys2Proof.Machine

open Sys2Proof.Safety

/-! ## A byte that a transaction leaves -/

/-- A command writes no byte outside its output operand (20_memory.md R67). -/
theorem Effect.readByte_outside {i : Instr} {e e' : Engine} (h : Effect i e e') {a : Nat}
    (ha : ∀ arg, outArg i = some arg → a < arg.addr.toNat ∨ arg.addr.toNat + arg.len.toNat ≤ a) :
    e'.readByte a = e.readByte a := by
  cases h with
  | @output arg out _ ho hlen =>
    have hout := ha arg ho
    exact Engine.readByte_memWrite_outside e (by omega)
  | mpi | mpiPair | point | answer | curve | clrerr => rfl

/-- A byte that a transaction leaves reads after it as before. -/
theorem transactOn_leaves {c : Config.Params} {x : Transaction} {a : Nat} {s t : State} (hx : Leaves a x)
    (h : transactOn c (execAt c) x s = .next t) : t.readByte a = s.readByte a := by
  cases x with
  | command w =>
    rcases commandOn_cases h with ⟨-, rfl⟩ | ⟨i, e, hw, -, hb, rfl⟩ | ⟨-, r, rfl⟩
    · rfl
    · exact (body_effect hb).readByte_outside fun arg => hx i arg hw
    · rfl
  | bufWrite addr b =>
    obtain ⟨-, rfl⟩ := bufWrite_eq_next h
    exact (Engine.readByte_writeByte ..).trans (if_neg hx)
  | bufRead addr =>
    obtain rfl := bufRead_eq_next h
    rfl
  | csrRead i =>
    obtain ⟨v, rfl⟩ := csrRead_eq_next h
    rfl
  | reset => exact hx.elim

/-! ## Transactions one after another -/

/-- The step of a transaction that the host hands over is the transaction. -/
theorem hand_takeTransaction (c : Config.Params) (run : Instr → State → Outcome) (x : Transaction) (s : State) :
    hand (takeTransaction c run) x s = transactOn c run x { s with input := none } :=
  takeTransaction_some rfl

theorem handAll_cons {step : State → Outcome} {x : Transaction} {s t : State} (h : hand step x s = .next t)
    (xs : List Transaction) : handAll step (x :: xs) s = handAll step xs t := by
  rw [handAll, h]

theorem handAll_singleton (step : State → Outcome) (x : Transaction) (s : State) :
    handAll step [x] s = hand step x s := by
  rw [handAll]
  cases hand step x s <;> rfl

theorem handAll_append {step : State → Outcome} {xs : List Transaction} {s t : State} (h : handAll step xs s = .next t)
    (ys : List Transaction) : handAll step (xs ++ ys) s = handAll step ys t := by
  induction xs generalizing s with
  | nil =>
    cases h
    rfl
  | cons x xs ih =>
    rw [handAll] at h
    split at h
    · rename_i s' hs'
      exact (handAll_cons hs' _).trans (ih h)
    · cases h
    · cases h

/-- Transactions of the interface that write no byte at `a` come to an end and leave it. -/
theorem handAll_leaves {c : Config.Params} {a : Nat} {xs : List Transaction} (h : ∀ x ∈ xs, Legal c x ∧ Leaves a x)
    (s : State) : ∃ t, handAll (takeTransaction c (execAt c)) xs s = .next t ∧ t.readByte a = s.readByte a := by
  induction xs generalizing s with
  | nil => exact ⟨s, rfl, rfl⟩
  | cons x xs ih =>
    obtain ⟨⟨hlegal, hleaves⟩, hxs⟩ := List.forall_mem_cons.1 h
    obtain ⟨t, ht, -⟩ := transactOn_next hlegal { s with input := none }
    obtain ⟨u, hu, hbyte⟩ := ih hxs t
    refine ⟨u, (handAll_cons ((hand_takeTransaction ..).trans ht) xs).trans hu, hbyte.trans ?_⟩
    exact transactOn_leaves (s := { s with input := none }) hleaves ht

/-! ## What a command with output wrote -/

/-- The bytes of an operand stand in the order of their addresses (20_memory.md R63). -/
theorem getElem?_bytesAt (s : State) {arg : BufArg} {k : Nat} (h : k < arg.len.toNat) :
    (bytesAt s arg)[k]? = some (s.readByte (arg.addr.toNat + k)) := by
  simp [bytesAt, h]

/-- A failed command leaves the engine in fault (60_exceptions.md R263). -/
theorem inFault_of_failed {code : Byte} {info : Word} {s t : State} (h : .next t = failed code info s) :
    t.inFault = true := by
  cases h
  simp [Engine.inFault, faultBit]

/-- A command that wrote its output and did not fail wrote it inside `BUF`, and each byte of it is there to read. -/
theorem readByte_of_wrote {c : Config.Params} {arg : BufArg} {out : List Byte} {s t : State}
    (h : Wrote c arg out s (.next t)) (hf : t.inFault = false) {k : Nat} (hk : k < out.length) :
    arg.addr.toNat + k < c.bufsz ∧ t.readByte (arg.addr.toNat + k) = out.getD k 0 := by
  unfold Wrote at h
  split_ifs at h with hroom hin
  · simp [inFault_of_failed h] at hf
  · simp [inFault_of_failed h] at hf
  · obtain ⟨buf, ht, hout, -⟩ := h
    cases ht
    exact ⟨by omega, hout k hk⟩

/-- Settles O22: what was written, by the host or by a command (`readByte_of_wrote`), stands through the transactions in
between (`handAll_leaves`), for the command or the `BufRead` at the end. -/
theorem bufferOrder : Obligations.BufferOrder := by
  refine ofEvery fun c => ⟨fun s a b xs w ha hxs => ?_, fun s t w arg out xs k ht hf hout hk hxs => ?_⟩
  · have hwrite := (hand_takeTransaction c (execAt c) (.bufWrite a b) s).trans (bufWrite_inside ha b _)
    obtain ⟨t, ht, hbyte⟩ := handAll_leaves hxs { s with toEngine := s.writeByte a b, input := none, answer := .done }
    have hb : t.readByte a = b := hbyte.trans ((Engine.readByte_writeByte ..).trans (if_pos rfl))
    refine ⟨t, (handAll_cons hwrite xs).trans ht, ?_, hb, fun arg k hk hak => ?_⟩
    · rw [handAll_cons hwrite, handAll_append ht, handAll_singleton, hand_takeTransaction]
      rfl
    · rw [getElem?_bytesAt t hk, hak, hb]
  · obtain ⟨haddr, hbyte⟩ := readByte_of_wrote hout hf hk
    obtain ⟨u, hu, hleft⟩ := handAll_leaves hxs t
    refine ⟨{ u with input := none, answer := .byte (u.readByte (arg.addr.toNat + k)) }, ?_, ?_⟩
    · rw [handAll_cons ht, handAll_append hu, handAll_singleton, hand_takeTransaction]
      exact bufRead_inside haddr _
    · exact congrArg Answer.byte (hleft.trans hbyte)

end Sys2Proof.Machine
end

section
/-! PROOFS. The decoder and the encoder are inverse to each other (30_encoding.md R80, R81, R86, R88, R91). -/

namespace Sys2Proof

/-! ## A well-formed command is what its word decodes to -/

open Laws.FieldRoundTrip in
/-- The fields of every well-formed command decode to it. -/
theorem decodeFields_encodeFields : ∀ i, Statement i
  | .clrerr => clrerr
  | .curve id => curve id
  | .ldcp md idx => ldcp md idx
  | .ldi md imm => ldi md imm
  | .mov md ma => mov md ma
  | .add md ma mb => add md ma mb
  | .sub md ma mb => sub md ma mb
  | .mul md ma mb => mul md ma mb
  | .sqr md ma => sqr md ma
  | .div md ma mb => div md ma mb
  | .mod md ma mb => mod md ma mb
  | .divrem mq mr ma mb => divrem mq mr ma mb
  | .modinv md ma mm => modinv md ma mm
  | .shl md ma imm => shl md ma imm
  | .shr md ma imm => shr md ma imm
  | .cmp ma mb => cmp ma mb
  | .iseven ma => iseven ma
  | .testbit ma idx => testbit ma idx
  | .bitlen ma => bitlen ma
  | .frombu md arg => frombu md arg
  | .tobu ma arg => tobu ma arg
  | .frombs md arg => frombs md arg
  | .tobs ma arg => tobs ma arg
  | .parse md radix arg => parse md radix arg
  | .tostr ma radix arg => tostr ma radix arg
  | .fadd md ma mb mm => fadd md ma mb mm
  | .fsub md ma mb mm => fsub md ma mb mm
  | .fmul md ma mb mm => fmul md ma mb mm
  | .fsqr md ma mm => fsqr md ma mm
  | .fdiv md ma mb mm => fdiv md ma mb mm
  | .feq ma mma mb mmb => feq ma mma mb mmb
  | .pinf pd => pinf pd
  | .pgen pd => pgen pd
  | .pseta pd mx my => pseta pd mx my
  | .pmov pd pa => pmov pd pa
  | .pisinf pa => pisinf pa
  | .pgetx md pa => pgetx md pa
  | .pgety md pa => pgety md pa
  | .peq pa pb => peq pa pb
  | .pneg pd pa => pneg pd pa
  | .padd pd pa pb => padd pd pa pb
  | .pdbl pd pa => pdbl pd pa
  | .pmul pd pa mk => pmul pd pa mk
  | .pmul2 pd pa mj pb mk => pmul2 pd pa mj pb mk
  | .penc pa compressed arg => penc pa compressed arg
  | .pdec pd arg => pdec pd arg
  | .pdechex pd arg => pdechex pd arg
  | .pvalid pa => pvalid pa

/-- Settles O1: the word gives its fields back (`fieldsOf_word`), and the fields of each command decode to it. -/
theorem decodeOfEncode : Obligations.DecodeOfEncode := by
  intro i hi
  rw [decodeWord, encode, fieldsOf_word]
  exact decodeFields_encodeFields i hi

/-! ## A word that decodes is the word of its command

What `encodeFields` makes of a decoded command are the fields in the normal form of the row (`Row.Inverts`), and fields that
pass the row's checks are in normal form already (`Row.normal_eq`). -/

theorem mfield_mreg (b : BitVec 4) : mfield (mreg b) = b := by revert b; decide

theorem pfield_preg {b : BitVec 4} (h : b.toNat < 8) : pfield (preg b) = b := by revert b; decide

/-- The two halves of the low word are all of it (R83). -/
@[simp] theorem low_bufArg (low : BitVec 32) : (bufArg low).low = low := by
  apply BitVec.eq_of_getLsbD_eq
  intro i hi
  simp only [bufArg, BufArg.low, BitVec.getLsbD_append, BitVec.getLsbD_extractLsb']
  split_ifs with hlow
  · simp [hlow]
  · have hhigh : i - 16 < 16 := by omega
    simp [hhigh, show 16 + (i - 16) = i by omega]

/-- A register field written again from the register it names, or zero where it names none. -/
@[simp] def FieldClass.normal : FieldClass → BitVec 4 → BitVec 4
  | .unused, _ => 0
  | .mpi, b => mfield (mreg b)
  | .point, b => pfield (preg b)

/-- The fields of a row written again from what the row reads of them (R86). -/
def Row.normal (row : Row) (f : Fields) : Fields where
  op  := row.op
  r0  := row.r0.normal f.r0
  r1  := row.r1.normal f.r1
  r2  := row.r2.normal f.r2
  r3  := row.r3.normal f.r3
  aux := f.aux &&& ~~~row.auxZero
  low := if row.lowZero then 0 else f.low

theorem FieldClass.normal_eq {k : FieldClass} {b : BitVec 4} (hz : k.zeroOk b = true) (hp : k.pointOk b = true) :
    k.normal b = b := by
  cases k with
  | unused => exact (beq_iff_eq.1 hz).symm
  | mpi => exact mfield_mreg b
  | point => exact pfield_preg (of_decide_eq_true hp)

/-- `aux` of a row that leaves all its bits free (`Row.normal`), as `simp` writes the mask. -/
@[simp] theorem and_ones (b : BitVec 8) : b &&& 255#8 = b := BitVec.and_allOnes

/-- Bits that are zero under a mask are all outside it. -/
theorem and_not_eq_self {b m : BitVec 8} (h : b &&& m = 0) : b &&& ~~~m = b := by
  calc b &&& ~~~m = (b &&& m) ||| (b &&& ~~~m) := by simp [h]
    _ = b &&& (m ||| ~~~m) := by rw [BitVec.and_or_distrib_left]
    _ = b := by simp

/-- No bit is ignored (R88): fields that pass lines 2 and 3 of a row are in its normal form. -/
theorem Row.normal_eq {row : Row} {f : Fields} (hop : row.op = f.op) (hz : row.zerosOk f = true)
    (hp : row.pointsOk f = true) : row.normal f = f := by
  simp only [Row.zerosOk, Row.pointsOk, Bool.and_eq_true, beq_iff_eq, Bool.or_eq_true, Bool.not_eq_true'] at hz hp
  obtain ⟨⟨⟨⟨⟨hz0, hz1⟩, hz2⟩, hz3⟩, haux⟩, hlow⟩ := hz
  obtain ⟨⟨⟨hp0, hp1⟩, hp2⟩, hp3⟩ := hp
  have hl : (if row.lowZero then 0 else f.low) = f.low := by
    rcases hlow with h | h <;> simp [h]
  rw [Row.normal, hop, FieldClass.normal_eq hz0 hp0, FieldClass.normal_eq hz1 hp1, FieldClass.normal_eq hz2 hp2,
    FieldClass.normal_eq hz3 hp3, and_not_eq_self haux, hl]

/-- What a row builds is a well-formed command whose fields are the given ones in normal form. -/
def Row.Inverts (row : Row) : Prop :=
  ∀ f i, row.build f = .ok i → encodeFields i = row.normal f ∧ i.wf = true

/-- A row without a range check. -/
theorem Row.Inverts.unchecked {row : Row} {mk : Fields → Instr} (hbuild : row.build = fun f => .ok (mk f))
    (henc : ∀ f, encodeFields (mk f) = row.normal f) (hwf : ∀ f, (mk f).wf = true) : row.Inverts := by
  intro f i h
  cases hbuild ▸ h
  exact ⟨henc f, hwf f⟩

/-- A row that reads a radix. -/
theorem Row.Inverts.radix {row : Row} {mk : Fields → Nat → Instr} (hbuild : row.build = fun f => withRadix f.aux (mk f))
    (henc : ∀ f, encodeFields (mk f f.aux.toNat) = row.normal f) (hwf : ∀ f r, radixOk r = true → (mk f r).wf = true) :
    row.Inverts := by
  intro f i h
  simp only [hbuild, withRadix] at h
  split_ifs at h with hr
  cases h
  exact ⟨henc f, hwf f _ hr⟩

/-- A ROM index is the number of its constant (10_state.md R30). -/
theorem num_of_romIndex {b : BitVec 8} {idx : RomIndex} (h : romIndex b.toNat = some idx) : BitVec.ofNat 8 idx.num = b := by
  have hnum : idx.num = b.toNat := by
    unfold romIndex at h
    split at h <;> cases h <;> simp_all [RomIndex.num]
  rw [hnum, BitVec.ofNat_toNat, BitVec.setWidth_eq]

theorem inverts_system : ∀ row ∈ systemRows, row.Inverts := by
  unfold systemRows
  iterate 2 refine List.forall_mem_cons.2 ⟨.unchecked rfl (fun f => by simp [encodeFields, Row.normal]) fun _ => rfl, ?_⟩
  refine List.forall_mem_cons.2 ⟨fun f i h => ?_, ?_⟩
  · simp only [withRomIndex] at h
    split at h <;> cases h
    next idx hidx => exact ⟨by simp [encodeFields, Row.normal, num_of_romIndex hidx], rfl⟩
  iterate 2 refine List.forall_mem_cons.2 ⟨.unchecked rfl (fun f => by simp [encodeFields, Row.normal]) fun _ => rfl, ?_⟩
  exact List.forall_mem_nil _

theorem inverts_arith : ∀ row ∈ arithRows, row.Inverts := by
  unfold arithRows
  iterate 6 refine List.forall_mem_cons.2 ⟨.unchecked rfl (fun f => by simp [encodeFields, Row.normal]) fun _ => rfl, ?_⟩
  refine List.forall_mem_cons.2 ⟨fun f i h => ?_, ?_⟩
  · simp only [withDistinct] at h
    split_ifs at h with hne
    cases h
    exact ⟨by simp [encodeFields, Row.normal], decide_eq_true hne⟩
  iterate 3 refine List.forall_mem_cons.2 ⟨.unchecked rfl (fun f => by simp [encodeFields, Row.normal]) fun _ => rfl, ?_⟩
  exact List.forall_mem_nil _

theorem inverts_query : ∀ row ∈ queryRows, row.Inverts := by
  unfold queryRows
  iterate 4 refine List.forall_mem_cons.2 ⟨.unchecked rfl (fun f => by simp [encodeFields, Row.normal]) fun _ => rfl, ?_⟩
  exact List.forall_mem_nil _

theorem inverts_convert : ∀ row ∈ convertRows, row.Inverts := by
  unfold convertRows
  iterate 4 refine List.forall_mem_cons.2 ⟨.unchecked rfl (fun f => by simp [encodeFields, Row.normal]) fun _ => rfl, ?_⟩
  refine List.forall_mem_cons.2 ⟨.radix (mk := fun f r => .parse (mreg f.r0) r (bufArg f.low)) rfl
    (fun f => by simp [encodeFields, Row.normal]) fun _ _ hr => hr, ?_⟩
  refine List.forall_mem_cons.2 ⟨.radix (mk := fun f r => .tostr (mreg f.r1) r (bufArg f.low)) rfl
    (fun f => by simp [encodeFields, Row.normal]) fun _ _ hr => hr, ?_⟩
  exact List.forall_mem_nil _

theorem inverts_field : ∀ row ∈ fieldRows, row.Inverts := by
  unfold fieldRows
  iterate 6 refine List.forall_mem_cons.2 ⟨.unchecked rfl (fun f => by simp [encodeFields, Row.normal]) fun _ => rfl, ?_⟩
  exact List.forall_mem_nil _

/-- The fifth register of `PMUL2` stands in the low half of `aux` (R86). -/
@[simp] theorem pmul2_aux_mreg (b : BitVec 8) : (mfield (mreg (b.setWidth 4))).setWidth 8 = b &&& 15#8 := by
  revert b
  decide

/-- The compression flag of `PENC` is the lowest bit of `aux` (R86). -/
@[simp] theorem penc_aux_bit (b : BitVec 8) : (BitVec.ofBool b[0]).setWidth 8 = b &&& 1#8 := by revert b; decide

theorem inverts_point : ∀ row ∈ pointRows, row.Inverts := by
  unfold pointRows
  iterate 13 refine List.forall_mem_cons.2 ⟨.unchecked rfl (fun f => by simp [encodeFields, Row.normal]) fun _ => rfl, ?_⟩
  exact List.forall_mem_nil _

theorem inverts_codec : ∀ row ∈ codecRows, row.Inverts := by
  unfold codecRows
  iterate 4 refine List.forall_mem_cons.2 ⟨.unchecked rfl (fun f => by simp [encodeFields, Row.normal]) fun _ => rfl, ?_⟩
  exact List.forall_mem_nil _

theorem inverts_opcodeMap : ∀ row ∈ opcodeMap, row.Inverts := by
  simp only [opcodeMap, List.forall_mem_append]
  exact ⟨⟨⟨⟨⟨⟨inverts_system, inverts_arith⟩, inverts_query⟩, inverts_convert⟩, inverts_field⟩, inverts_point⟩,
    inverts_codec⟩

/-- The fields that decode to a command are its fields, and it is well-formed. -/
theorem encodeFields_of_decodeFields {f : Fields} {i : Instr} (h : decodeFields f = .ok i) :
    encodeFields i = f ∧ i.wf = true := by
  unfold decodeFields at h
  split at h
  case h_1 => cases h
  case h_2 row hrow =>
    split_ifs at h with hz hp
    have hop := List.find?_some hrow
    obtain ⟨henc, hwf⟩ := inverts_opcodeMap row (List.mem_of_find?_eq_some hrow) f i h
    exact ⟨henc.trans (Row.normal_eq (beq_iff_eq.1 hop) (by simpa using hz) (by simpa using hp)), hwf⟩

/-- Settles O2: the command has the word's fields (`encodeFields_of_decodeFields`), which are the word (`word_fieldsOf`). -/
theorem encodeOfDecode : Obligations.EncodeOfDecode := by
  intro w i h
  obtain ⟨henc, hwf⟩ := encodeFields_of_decodeFields h
  exact ⟨by rw [encode, henc, word_fieldsOf], hwf⟩

end Sys2Proof
end

section
/-! PROOFS. The opcode table selects the words of its rows (30_encoding.md R93), every other word is illegal (R88), and the
worked encodings (R94). -/

namespace Sys2Proof

open Sys2Proof.Machine Sys2Proof.Safety

/-! ## The rows of the table -/

/-- A mask is made of the opcode and the two kinds of forbidden bits, and a pattern is an opcode alone (R93). -/
theorem opcodeTable_masks : ∀ row ∈ opcodeTable, row.mask = 0xFF00000000000000 ||| row.zeros ||| row.points ∧
    row.pattern = (row.pattern >>> 56) <<< 56 := by decide +kernel

/-- A pattern has no field but its opcode. -/
theorem fieldsOf_pattern : ∀ row ∈ opcodeTable, fieldsOf row.pattern = { op := row.pattern.extractLsb' 56 8 } := by
  decide +kernel

/-- A mask has all bits of the opcode, and all forbidden bits. -/
theorem mask_and_parts : ∀ row ∈ opcodeTable, row.mask &&& 0xFF00000000000000 = 0xFF00000000000000 ∧
    row.mask &&& row.zeros = row.zeros ∧ row.mask &&& row.points = row.points := by decide +kernel

/-- A pattern is whole under the mask of the opcode, and has no forbidden bit. -/
theorem pattern_and_parts : ∀ row ∈ opcodeTable, row.pattern &&& 0xFF00000000000000 = row.pattern ∧
    row.pattern &&& row.zeros = 0 ∧ row.pattern &&& row.points = 0 := by decide +kernel

theorem opcodeTable_nodup : (opcodeTable.map fun row => row.pattern.extractLsb' 56 8).Nodup := by decide +kernel

/-- The opcode of a row finds that row: no two rows share one. -/
theorem find?_opcode {row : TableRow} {op : BitVec 8} (hrow : row ∈ opcodeTable) (hop : row.pattern.extractLsb' 56 8 = op) :
    opcodeTable.find? (fun r => r.pattern.extractLsb' 56 8 == op) = some row := by
  cases hfind : opcodeTable.find? (fun r => r.pattern.extractLsb' 56 8 == op) with
  | none => exact absurd (beq_iff_eq.2 hop) (List.find?_eq_none.1 hfind row hrow)
  | some r =>
    have hr := List.find?_some hfind
    exact congrArg some
      (List.inj_on_of_nodup_map opcodeTable_nodup (List.mem_of_find?_eq_some hfind) hrow
        ((beq_iff_eq.1 hr).trans hop.symm))

/-- The row that the opcode of a command finds bears its mnemonic (R86). -/
theorem find?_opcode_encodeFields (i : Instr) :
    (opcodeTable.find? fun r => r.pattern.extractLsb' 56 8 == (encodeFields i).op).map (·.mnemonic) = some (mnemonic i) := by
  cases i <;> rfl

/-- The command of a word with the opcode of a row bears the row's mnemonic. -/
theorem mnemonic_of_decodeWord {row : TableRow} {w : CmdWord} {i : Instr} (hrow : row ∈ opcodeTable)
    (hop : row.pattern.extractLsb' 56 8 = w.extractLsb' 56 8) (h : decodeWord w = .ok i) : mnemonic i = row.mnemonic := by
  obtain ⟨henc, -⟩ := encodeFields_of_decodeFields h
  have hfound := find?_opcode_encodeFields i
  rw [henc, find?_opcode (op := (fieldsOf w).op) hrow hop] at hfound
  exact (Option.some.inj hfound).symm

/-! ## Selection by mask and pattern -/

/-- The opcode of a word under the mask of the opcode alone. -/
theorem and_opcode_eq_pattern_iff {row : TableRow} (hrow : row ∈ opcodeTable) (w : CmdWord) :
    w &&& 0xFF00000000000000 = row.pattern ↔ row.pattern.extractLsb' 56 8 = w.extractLsb' 56 8 := by
  have hop : (fieldsOf w).op &&& 0xFF#8 = w.extractLsb' 56 8 := BitVec.and_allOnes
  rw [← fieldsOf_inj, fieldsOf_and, fieldsOf_pattern row hrow,
    show fieldsOf 0xFF00000000000000 = { op := 0xFF } by decide]
  simp [hop, eq_comm]

/-- What a word has under a mask it has under each part of the mask. -/
theorem and_part_of_and {w m g p : CmdWord} (h : w &&& m = p) (hg : m &&& g = g) : w &&& g = p &&& g := by
  rw [← hg, ← BitVec.and_assoc, h, hg]

/-- A row selects the words with its opcode that break neither line 2 nor line 3 of R88. -/
theorem and_mask_eq_pattern_iff {row : TableRow} (hrow : row ∈ opcodeTable) (w : CmdWord) :
    w &&& row.mask = row.pattern ↔
      row.pattern.extractLsb' 56 8 = w.extractLsb' 56 8 ∧ w &&& row.zeros = 0 ∧ w &&& row.points = 0 := by
  obtain ⟨hmask, -⟩ := opcodeTable_masks row hrow
  obtain ⟨hop, hzeros, hpoints⟩ := mask_and_parts row hrow
  obtain ⟨hpop, hpzeros, hppoints⟩ := pattern_and_parts row hrow
  rw [← and_opcode_eq_pattern_iff hrow]
  constructor
  · intro h
    exact ⟨(and_part_of_and h hop).trans hpop, (and_part_of_and h hzeros).trans hpzeros,
      (and_part_of_and h hpoints).trans hppoints⟩
  · rintro ⟨hwop, hwzeros, hwpoints⟩
    rw [hmask, BitVec.and_or_distrib_left, BitVec.and_or_distrib_left, hwop, hwzeros, hwpoints]
    simp

/-- The lines of R88 left for a word that a row selects are the row's own range checks. -/
theorem illegalLine_of_selected {row : TableRow} {w : CmdWord} (hrow : row ∈ opcodeTable)
    (hsel : w &&& row.mask = row.pattern) : illegalLine w = rangeLine row w := by
  obtain ⟨hop, hzeros, hpoints⟩ := (and_mask_eq_pattern_iff hrow w).1 hsel
  simp [illegalLine, find?_opcode hrow hop, hzeros, hpoints]

/-- Some row selects every word that no line of R88 refuses, and its range checks pass. -/
theorem exists_selected {w : CmdWord} (h : illegalLine w = none) :
    ∃ row ∈ opcodeTable, w &&& row.mask = row.pattern ∧ rangeLine row w = none := by
  unfold illegalLine at h
  split at h
  case h_1 => cases h
  case h_2 row hfind =>
    split_ifs at h with hzeros hpoints
    have hrow := List.mem_of_find?_eq_some hfind
    have hop := List.find?_some hfind
    exact ⟨row, hrow, (and_mask_eq_pattern_iff hrow w).2
      ⟨beq_iff_eq.1 hop, not_ne_iff.1 hzeros, not_ne_iff.1 hpoints⟩, h⟩

/-- Settles O3: what a row selects is refused by the row's range checks alone (`illegalLine_of_selected`), what decodes is
selected (`exists_selected`), and the opcode gives the mnemonic (`mnemonic_of_decodeWord`). -/
theorem opcodeTableSelects : Obligations.OpcodeTableSelects := by
  refine ⟨opcodeTable_masks, fun w row hrow hsel hrange => ?_, fun w i h => ?_, rfl⟩
  · obtain ⟨hop, -, -⟩ := (and_mask_eq_pattern_iff hrow w).1 hsel
    obtain ⟨i, h⟩ := illegalLine_eq_none_iff.1 ((illegalLine_of_selected hrow hsel).trans hrange)
    exact ⟨i, h, mnemonic_of_decodeWord hrow hop h⟩
  · obtain ⟨row, hrow, hsel, hrange⟩ := exists_selected (illegalLine_eq_none_iff.2 ⟨i, h⟩)
    obtain ⟨hop, -, -⟩ := (and_mask_eq_pattern_iff hrow w).1 hsel
    exact ⟨row, hrow, mnemonic_of_decodeWord hrow hop h, hsel, hrange⟩

/-! ## Illegal words, and the worked encodings -/

/-- Settles O4: a word that a line of R88 refuses fails by that line (`commandOn_illegal_failed`), any other decodes. -/
theorem illegalWords : Obligations.IllegalWords := by
  refine ofEvery fun c w s hf => ⟨fun n hn => commandOn_illegal_failed hn hf, fun h => ?_, by decide, by decide⟩
  obtain ⟨i, hi⟩ := illegalLine_eq_none_iff.1 h
  exact ⟨i, hi, commandOn_ok hi⟩

/-- Words that decode to commands are the words of these commands. -/
theorem decode_and_encode {xs : List (CmdWord × Instr)} (h : ∀ x ∈ xs, decodeWord x.1 = .ok x.2) :
    ∀ x ∈ xs, decodeWord x.1 = .ok x.2 ∧ encode x.2 = x.1 :=
  fun x hx => ⟨h x hx, (encodeOfDecode x.1 x.2 (h x hx)).1⟩

/-- Settles O5: the decoding of these words is evaluated, and O2 gives the other direction (`decode_and_encode`). -/
theorem workedEncodings : Obligations.WorkedEncodings := decode_and_encode (by decide +kernel)

end Sys2Proof
end

section
/-! PROOFS. The system commands, the loads and the move (40_system.md R101 to R105). -/

namespace Sys2Proof.Machine

open Sys2Proof.Safety

/-! ## `CLRERR` and the other words of its opcode -/

/-- Without a fault the error registers are clear already (10_state.md R34 to R38). -/
theorem Engine.ErrorSound.clearError_eq_self {e : Engine} (he : e.ErrorSound) (hf : e.inFault = false) :
    e.clearError = e := by
  have hstatus : e.status = 0#32 := he.status.resolve_right fun h => by simp [Engine.inFault, faultBit, h] at hf
  obtain ⟨hcode, hinfo, hseq⟩ := he.noError hstatus
  cases e
  subst hstatus hcode hinfo hseq
  simp [Engine.clearError, clearFaultBit]

/-- The row of `CLRERR` leaves no bit free: a word with its opcode is its word, or breaks line 2 of R88. -/
theorem illegalLine_of_clrerr_opcode {w : CmdWord} (hop : w.extractLsb' 56 8 = 0x01) (hw : w ≠ clrerrWord) :
    illegalLine w = some 2 := by
  have hrow : ⟨"CLRERR", clrerrWord, BitVec.allOnes 64, 0x00FFFFFFFFFFFFFF, 0⟩ ∈ opcodeTable := List.mem_cons_self
  have hzeros : w &&& 0x00FFFFFFFFFFFFFF ≠ 0 := fun hz =>
    hw (BitVec.and_allOnes.symm.trans ((and_mask_eq_pattern_iff hrow w).2 ⟨hop.symm, hz, BitVec.and_zero⟩))
  simp only [illegalLine, find?_opcode hrow hop.symm, if_pos hzeros]

/-- Settles O9: `execAt_clrerr` is the first clause, the invariant makes its clears idle (`clearError_eq_self`), and every
other word of the opcode is illegal (`illegalLine_of_clrerr_opcode`). -/
theorem clrerrClears : Obligations.ClrerrClears := by
  refine ofEvery fun c => ⟨execAt_clrerr c, fun s hs hf => ?_, fun w s hop hw => ?_⟩
  · have hclear : s.countCommand.clearError = s.countCommand :=
      ((inv_iff.1 hs).2.countCommand).clearError_eq_self hf
    rw [execAt_clrerr, hclear]
    rfl
  · have hline := illegalLine_of_clrerr_opcode hop hw
    exact ⟨commandOn_illegal_failed hline, commandOn_illegal_turnedAway hline⟩

/-! ## Loads and the move -/

/-- A command whose pseudocode is one `M[md] <- v` with a value that fits stores it. -/
theorem execAt_storedM {c : Config.Params} {i : Instr} {s : State} {md : MReg} {v : Int} (hi : i ≠ .clrerr)
    (hf : s.inFault = false) (hv : Fits c v) (h : body i c s.countCommand = writeM md v c s.countCommand) :
    execAt c i s = storedM md v s := by
  rw [execAt_eq_runCommand c hi, run_writeM hf h, storedOrFull_fits hv]

/-- A value below `2^256` fits a register of any engine (00_scope.md R5: `NLIMB >= 10`). -/
theorem fits_of_lt_two_pow_256 (c : Config.Params) {v : Int} (h : v.natAbs < 2 ^ 256) : Fits c v :=
  (h.trans (Nat.pow_lt_pow_right one_lt_two (by omega))).trans_le (capacity_ge c)

/-- `CURVE #id` selects curve 0, and knows no other (40_system.md R102). -/
theorem execAt_curve (c : Config.Params) (id : Word) {s : State} (hf : s.inFault = false) :
    execAt c (.curve id) s = if id = 0 then ran s { s with curveid := 0 } else failed 8 1 s := by
  rw [execAt_eq_runCommand c (by simp)]
  split_ifs with hid
  · subst hid
    exact runCommand_ok hf rfl
  · exact run_raise (k := .operand) hf (if_pos fun h => hid (BitVec.eq_of_toNat_eq h))

/-- The constants of the curve ROM have at most 256 bits (10_state.md R30). -/
theorem romValue_lt (idx : RomIndex) : romValue idx < 2 ^ 256 := by cases idx <;> decide

/-- `LDCP md, #idx` loads a constant of the curve ROM (40_system.md R103). -/
theorem execAt_ldcp (c : Config.Params) (md : MReg) (idx : RomIndex) {s : State} (hf : s.inFault = false) :
    execAt c (.ldcp md idx) s = storedM md (romValue idx) s :=
  execAt_storedM (by simp) hf (fits_of_lt_two_pow_256 c (romValue_lt idx)) rfl

/-- A 32-bit immediate read as a two's-complement number (30_encoding.md R87). -/
theorem signedImm_eq (imm : Word) :
    signedImm imm = if imm.toNat < 2 ^ 31 then (imm.toNat : Int) else (imm.toNat : Int) - 2 ^ 32 := by
  rw [signedImm, BitVec.toInt_eq_toNat_cond]
  split_ifs <;> omega

theorem natAbs_signedImm_le (imm : Word) : (signedImm imm).natAbs ≤ 2 ^ 31 := by
  have hlow := BitVec.le_toInt imm
  have hhigh := BitVec.toInt_lt (x := imm)
  unfold signedImm
  omega

/-- `LDI md, #imm` loads the signed immediate (40_system.md R104). -/
theorem execAt_ldi (c : Config.Params) (md : MReg) (imm : Word) {s : State} (hf : s.inFault = false) :
    execAt c (.ldi md imm) s = storedM md (signedImm imm) s :=
  execAt_storedM (by simp) hf
    (fits_of_lt_two_pow_256 c ((natAbs_signedImm_le imm).trans_lt (by norm_num))) rfl

/-- Settles O23: each command is one write of a value that fits (`execAt_storedM`), or `CURVE` (`execAt_curve`). -/
theorem systemCommands : Obligations.SystemCommands := by
  refine ofEvery fun c s hf => ⟨fun id => execAt_curve c id hf, fun md => ?_, fun md imm => ?_,
    fun md ma hfits => execAt_storedM (by simp) hf hfits rfl⟩
  · have hp : (2 ^ 256 - 2 ^ 32 - 977 : Int) = romValue .p := by norm_num [romValue, Rom.p]
    rw [hp]
    exact ⟨execAt_ldcp c md .p hf, execAt_ldcp c md .a hf, execAt_ldcp c md .b hf, execAt_ldcp c md .gx hf,
      execAt_ldcp c md .gy hf, execAt_ldcp c md .n hf, execAt_ldcp c md .h hf⟩
  · rw [execAt_ldi c md imm hf, signedImm_eq]

end Sys2Proof.Machine
end

section
/-! PROOFS. The commands of integer arithmetic (41_mpi_arith.md R120 to R140). -/

namespace Sys2Proof.Machine

open Sys2Proof.Safety

/-! ## Sums, differences, products and squares -/

/-- A command whose pseudocode is one `M[md] <- v` stores the value, or raises `CapacityError(0)`. -/
theorem execAt_storedOrFull {c : Config.Params} {i : Instr} {s : State} {md : MReg} {v : Int} (hi : i ≠ .clrerr)
    (hf : s.inFault = false) (h : body i c s.countCommand = writeM md v c s.countCommand) :
    execAt c i s = storedOrFull c md v s := by
  rw [execAt_eq_runCommand c hi, run_writeM hf h]

/-- Settles O24: each of the four commands is one register write (`execAt_storedOrFull`). -/
theorem exactArithmetic : Obligations.ExactArithmetic := by
  refine ofEvery fun c s hf => ⟨fun md ma mb => ?_, fun md ma mb => ?_, fun md ma mb => ?_, fun md ma => ?_⟩
  · exact execAt_storedOrFull (by simp) hf rfl
  · exact execAt_storedOrFull (by simp) hf rfl
  · exact execAt_storedOrFull (by simp) hf rfl
  · rw [pow_two]
    exact execAt_storedOrFull (by simp) hf rfl

/-! ## Division -/

/-- A command whose pseudocode raises an error fails with it. -/
theorem execAt_failed {c : Config.Params} {i : Instr} {s : State} {k : ErrorKind} {n : Nat} (hi : i ≠ .clrerr)
    (hf : s.inFault = false) (h : body i c s.countCommand = raise k n) :
    execAt c i s = failed k.code (BitVec.ofNat 32 n) s := by
  rw [execAt_eq_runCommand c hi, run_raise hf h]

/-- The first line of the three division commands: a zero divisor raises before anything is written (R130 to R132). -/
theorem nonzeroOperand_bind_zero {α : Type} {b : Int} (h : b = 0) (f : Int → Except Raise α) :
    (nonzeroOperand b >>= f) = raise .divideByZero 0 := by
  subst h
  rfl

/-- With another divisor the command goes on. -/
theorem nonzeroOperand_bind_ne {α : Type} {b : Int} (h : b ≠ 0) (f : Int → Except Raise α) :
    (nonzeroOperand b >>= f) = f b := by
  rw [nonzeroOperand_ne h]
  rfl

/-- The pair that `DIVREM` writes, once both values fit (R132). -/
theorem execAt_divrem {c : Config.Params} {s : State} {mq mr ma mb : MReg} (hf : s.inFault = false)
    (hb : s.readM mb ≠ 0) (hq : Fits c (tquo (s.readM ma) (s.readM mb)))
    (hr : Fits c (trem (s.readM ma) (s.readM mb))) :
    execAt c (.divrem mq mr ma mb) s = ran s { s with
      m := (s.m.set mq.val (tquo (s.readM ma) (s.readM mb))).set mr.val (trem (s.readM ma) (s.readM mb)) } := by
  have hbody : body (.divrem mq mr ma mb) c s.countCommand =
      .ok ((s.countCommand.setM mq (tquo (s.readM ma) (s.readM mb))).setM mr (trem (s.readM ma) (s.readM mb))) := by
    refine (nonzeroOperand_bind_ne hb _).trans ?_
    change (writeM mq (tquo (s.readM ma) (s.readM mb)) c s.countCommand >>=
      writeM mr (trem (s.readM ma) (s.readM mb)) c) = _
    rw [writeM_fits hq]
    exact writeM_fits hr mr _
  rw [execAt_eq_runCommand c (by simp), runCommand_ok hf hbody]
  rfl

/-- Settles O25: a quotient or a remainder is no larger than an operand (`tquo_natAbs_le`, `trem_natAbs_le`,
`nmod_natAbs_lt`), so that the register writes succeed. -/
theorem division : Obligations.Division := by
  refine ofEvery fun c s ma mb hf hfa hfb => ⟨fun hb md mr => ⟨?_, ?_, ?_⟩, fun hb => ⟨fun md => ?_, fun md => ?_,
    fun mq mr _ => ⟨tquo (s.readM ma) (s.readM mb), trem (s.readM ma) (s.readM mb), ?_, ?_, ?_, ?_⟩⟩⟩
  · exact execAt_failed (k := .divideByZero) (by simp) hf (nonzeroOperand_bind_zero hb _)
  · exact execAt_failed (k := .divideByZero) (by simp) hf (nonzeroOperand_bind_zero hb _)
  · exact execAt_failed (k := .divideByZero) (by simp) hf (nonzeroOperand_bind_zero hb _)
  · rw [← tquo_eq_tdiv]
    exact execAt_storedM (by simp) hf ((tquo_natAbs_le _ _).trans_lt hfa) (nonzeroOperand_bind_ne hb _)
  · rw [Int.emod_abs, ← nmod_eq_emod]
    exact execAt_storedM (by simp) hf ((nmod_natAbs_lt _ hb).trans hfb) (nonzeroOperand_bind_ne hb _)
  · rw [trem]
    ring
  · rw [trem_eq_tmod, ← Int.natCast_natAbs, Int.natAbs_tmod, Int.abs_eq_natAbs]
    exact_mod_cast Nat.mod_lt _ (Int.natAbs_pos.2 hb)
  · rw [trem_eq_tmod]
    rcases le_total 0 (s.readM ma) with h | h
    · exact mul_nonneg (Int.tmod_nonneg _ h) h
    · rw [← neg_mul_neg, ← Int.neg_tmod]
      exact mul_nonneg (Int.tmod_nonneg _ (neg_nonneg.2 h)) (neg_nonneg.2 h)
  · exact execAt_divrem hf hb ((tquo_natAbs_le _ _).trans_lt hfa) ((trem_natAbs_le _ _).trans_lt hfa)

/-- Settles O26: `tquo`, `trem` and `nmod` are the core library's `tdiv`, `tmod` and `emod`; the truncated and the non-negative
remainder differ by `|b|` exactly when `a` is negative and no multiple of `b` (`Int.tmod_eq_emod`). -/
theorem divisionIdentities : Obligations.DivisionIdentities := by
  intro a b hb
  have hquo : tquo a b * b + trem a b = a := by
    rw [trem]
    ring
  refine ⟨hquo, nmod_nonneg a hb, ?_, ?_, ?_, ?_, ?_⟩
  · rw [Int.abs_eq_natAbs]
    exact nmod_lt a hb
  · rw [nmod_eq_emod, nmod_eq_emod, Int.emod_neg]
  · rw [tquo_eq_tdiv, tquo_eq_tdiv, Int.neg_tdiv]
  · rw [tquo_eq_tdiv, tquo_eq_tdiv, Int.tdiv_neg]
  · have hdiff : trem a b = nmod a b - if 0 ≤ a ∨ b ∣ a then 0 else (b.natAbs : Int) := by
      rw [trem_eq_tmod, nmod_eq_emod, Int.tmod_eq_emod, apply_ite Nat.cast, Nat.cast_zero]
    have hpos : 0 < b.natAbs := Int.natAbs_pos.2 hb
    split_ifs at hdiff with h
    · exact iff_of_true (by omega) h
    · exact iff_of_false (by omega) h

/-! ## The modular inverse -/

/-- The operand of `MODINV` reduced to `0..|m|-1` has the same gcd with the modulus (R136). -/
theorem gcd_toNat_emod (a : Int) {m : Int} (hm : m ≠ 0) : (a % (m.natAbs : Int)).toNat.gcd m.natAbs = Int.gcd a m := by
  have hnonneg : 0 ≤ a % (m.natAbs : Int) := Int.emod_nonneg a (by simpa using hm)
  calc (a % (m.natAbs : Int)).toNat.gcd m.natAbs
      = Int.gcd ((a % (m.natAbs : Int)).toNat : Int) m.natAbs := (Int.gcd_natCast_natCast _ _).symm
    _ = Int.gcd (a % (m.natAbs : Int)) m.natAbs := by rw [Int.toNat_of_nonneg hnonneg]
    _ = Int.gcd a m := by rw [Int.gcd_emod, Int.gcd, Int.natAbs_natCast, Int.gcd]

/-- `x` inverts `a` modulo `m` when it inverts the reduced operand modulo `|m|` (R136). -/
theorem dvd_mul_sub_one_iff (a : Int) {m : Int} (hm : m ≠ 0) (x : Nat) :
    m ∣ a * x - 1 ↔ (a % (m.natAbs : Int)).toNat * x % m.natAbs = 1 % m.natAbs := by
  have hnonneg : 0 ≤ a % (m.natAbs : Int) := Int.emod_nonneg a (by simpa using hm)
  have hmul : ((a % (m.natAbs : Int)).toNat : Int) * x ≡ a * x [ZMOD m.natAbs] := by
    rw [Int.toNat_of_nonneg hnonneg]
    exact (Int.mod_modEq a _).mul_right _
  calc m ∣ a * x - 1
      ↔ (m.natAbs : Int) ∣ a * x - 1 := Int.natAbs_dvd.symm
    _ ↔ a * x ≡ 1 [ZMOD m.natAbs] := by rw [← Int.modEq_iff_dvd]; exact Int.modEq_comm
    _ ↔ ((a % (m.natAbs : Int)).toNat : Int) * x ≡ 1 [ZMOD m.natAbs] := ⟨hmul.trans, hmul.symm.trans⟩
    _ ↔ (a % (m.natAbs : Int)).toNat * x % m.natAbs = 1 % m.natAbs := by
      rw [← Nat.ModEq, ← Int.natCast_modEq_iff]
      push_cast
      rfl

section

variable {e : Engine} {md ma mm : MReg} {c : Config.Params}

theorem bodyModinv_zero (h : e.readM mm = 0) : bodyModinv md ma mm c e = raise .noInverse 1 := by
  simp [bodyModinv, h]

theorem bodyModinv_not_coprime (h : e.readM mm ≠ 0) (hg : Int.gcd (e.readM ma) (e.readM mm) ≠ 1) :
    bodyModinv md ma mm c e = raise .noInverse 2 := by
  rw [← gcd_toNat_emod _ h] at hg
  rw [bodyModinv, if_neg (Int.natAbs_ne_zero.2 h), if_pos hg]

theorem bodyModinv_coprime (h : e.readM mm ≠ 0) (hg : Int.gcd (e.readM ma) (e.readM mm) = 1) :
    bodyModinv md ma mm c e =
      writeM md (invMod (e.readM ma % ((e.readM mm).natAbs : Int)).toNat (e.readM mm).natAbs) c e := by
  rw [← gcd_toNat_emod _ h] at hg
  rw [bodyModinv, if_neg (Int.natAbs_ne_zero.2 h), if_neg (not_not.2 hg)]

end

/-- Settles O27: `inv(a0, n)` is the only canonical inverse of the reduced operand (`invMod_spec`, `invMod_unique`), which
is inverted modulo `|m|` by the same values as the operand (`dvd_mul_sub_one_iff`). -/
theorem modularInverse : Obligations.ModularInverse := by
  refine ofEvery fun c s md ma mm hf hfm => ⟨fun hm => ?_, fun hm hg => ?_, fun hm hg => ?_⟩
  · exact execAt_failed (k := .noInverse) (by simp) hf (bodyModinv_zero hm)
  · exact execAt_failed (k := .noInverse) (by simp) hf (bodyModinv_not_coprime hm hg)
  · have hpos : 0 < (s.readM mm).natAbs := Int.natAbs_pos.2 hm
    have hcop := (gcd_toNat_emod (s.readM ma) hm).trans hg
    have hlt := invMod_lt hpos (s.readM ma % ((s.readM mm).natAbs : Int)).toNat
    refine ⟨invMod (s.readM ma % ((s.readM mm).natAbs : Int)).toNat (s.readM mm).natAbs, Int.natCast_nonneg _, ?_,
      (dvd_mul_sub_one_iff _ hm _).2 (invMod_spec hpos hcop), fun y hy hylt hinv => ?_, ?_⟩
    · rw [Int.abs_eq_natAbs]
      exact_mod_cast hlt
    · lift y to Nat using hy
      rw [Int.abs_eq_natAbs, Nat.cast_lt] at hylt
      rw [invMod_unique hpos hcop hylt ((dvd_mul_sub_one_iff _ hm y).1 hinv)]
    · exact execAt_storedM (by simp) hf (hlt.trans hfm) (bodyModinv_coprime hm hg)

/-! ## Shifts -/

/-- A right shift of the magnitude, as R140 writes it. -/
theorem shiftDown_eq_abs_div (v : Int) (k : Nat) : shiftDown v k = v.sign * (|v| / 2 ^ k) := by
  rw [shiftDown_eq, Int.abs_eq_natAbs]
  push_cast
  rfl

section

variable {c : Config.Params} {i : Instr} {s : State} {md ma : MReg} {k : Nat} (hi : i ≠ .clrerr)
  (hf : s.inFault = false)
include hi hf

/-- A command whose pseudocode shifts up stores the exact value, or raises `CapacityError(0)` (R139). -/
theorem execAt_shiftedUp
    (h : body i c s.countCommand = writeShiftedUp md (s.readM ma) k c s.countCommand) :
    execAt c i s = storedOrFull c md (s.readM ma * 2 ^ k) s :=
  execAt_storedOrFull hi hf (h.trans (writeShiftedUp_eq md _ k c _))

/-- A command whose pseudocode shifts down stores a value no larger than the operand (R140). -/
theorem execAt_shiftedDown (hfits : Fits c (s.readM ma))
    (h : body i c s.countCommand = writeM md (shiftDown (s.readM ma) k) c s.countCommand) :
    execAt c i s = storedM md ((s.readM ma).sign * (|s.readM ma| / 2 ^ k)) s := by
  rw [← shiftDown_eq_abs_div]
  exact execAt_storedM hi hf ((shiftDown_natAbs_le _ _).trans_lt hfits) h

end

/-- Settles O28: the sign of the amount chooses the direction, and each direction is one register write
(`execAt_shiftedUp`, `execAt_shiftedDown`). -/
theorem shifts : Obligations.Shifts := by
  refine ofEvery fun c s md ma imm hf hfits => ⟨fun h => ⟨?_, ?_⟩, fun h => ⟨?_, ?_⟩⟩
  · exact execAt_shiftedUp (by simp) hf (if_pos h)
  · exact execAt_shiftedDown (by simp) hf hfits (if_pos h)
  · exact execAt_shiftedDown (by simp) hf hfits (if_neg h.not_ge)
  · exact execAt_shiftedUp (by simp) hf (if_neg h.not_ge)

end Sys2Proof.Machine
end

section
/-! PROOFS. Lists of limbs and their values (10_state.md R21, R22): what the loops of the reference datapath use, and the
adder and subtractor (41_mpi_arith.md R122, R123). -/

namespace Sys2Proof.Machine.Datapath

/-! ## Lists of limbs -/

/-- The radix as a numeral, for `omega`. -/
theorem radix_eq : radix = 67108864 := by decide

theorem radix_pos : 0 < radix := by decide

@[simp] theorem limbsValue_nil : limbsValue [] = 0 := rfl

theorem limbsValue_cons (x : Nat) (xs : List Nat) : limbsValue (x :: xs) = x + radix * limbsValue xs := rfl

@[simp] theorem limbs_nil : Limbs [] := fun _ hx => absurd hx List.not_mem_nil

@[simp] theorem limbs_cons_iff {x : Nat} {xs : List Nat} : Limbs (x :: xs) ↔ x < radix ∧ Limbs xs := List.forall_mem_cons

@[simp] theorem limbs_append_iff {xs ys : List Nat} : Limbs (xs ++ ys) ↔ Limbs xs ∧ Limbs ys := List.forall_mem_append

theorem limbs_replicate_zero (n : Nat) : Limbs (List.replicate n 0) := fun _ hx =>
  List.eq_of_mem_replicate hx ▸ radix_pos

theorem Limbs.take {xs : List Nat} (h : Limbs xs) (k : Nat) : Limbs (xs.take k) := fun x hx => h x (List.mem_of_mem_take hx)

theorem Limbs.drop {xs : List Nat} (h : Limbs xs) (k : Nat) : Limbs (xs.drop k) := fun x hx => h x (List.mem_of_mem_drop hx)

theorem Limbs.getD_lt {xs : List Nat} (h : Limbs xs) (i : Nat) : xs.getD i 0 < radix := by
  rcases lt_or_ge i xs.length with hi | hi
  · rw [List.getD_eq_getElem _ _ hi]
    exact h _ (List.getElem_mem hi)
  · rw [List.getD_eq_default _ _ hi]
    exact radix_pos

theorem limbsValue_append (xs ys : List Nat) :
    limbsValue (xs ++ ys) = limbsValue xs + radix ^ xs.length * limbsValue ys := by
  simp only [limbsValue_eq_ofDigits, Nat.ofDigits_append]

theorem limbsValue_replicate_zero (n : Nat) : limbsValue (List.replicate n 0) = 0 := by
  induction n with
  | zero => rfl
  | succ n ih => rw [List.replicate_succ, limbsValue_cons, ih, mul_zero, add_zero]

/-- `n` limbs hold a value below `radix^n`. -/
theorem Limbs.value_lt {xs : List Nat} (h : Limbs xs) : limbsValue xs < radix ^ xs.length := by
  rw [limbsValue_eq_ofDigits]
  exact Nat.ofDigits_lt_base_pow_length one_lt_radix fun {x} hx => h x hx

/-! ## Trimmed and normal lists -/

theorem limbsValue_trim (xs : List Nat) : limbsValue (trim xs) = limbsValue xs := by
  induction xs with
  | nil => rfl
  | cons x xs ih =>
    rw [trim]
    split
    case h_1 h0 =>
      rw [h0, limbsValue_nil] at ih
      split_ifs with hx <;> simp [limbsValue_cons, hx, ← ih]
    case h_2 y ys h0 => rw [limbsValue_cons, ← h0, ih, limbsValue_cons]

theorem trim_sublist (xs : List Nat) : (trim xs).Sublist xs := by
  induction xs with
  | nil => exact .slnil
  | cons x xs ih =>
    rw [trim]
    split
    case h_1 h0 =>
      split_ifs
      · exact List.nil_sublist _
      · exact (List.nil_sublist xs).cons_cons x
    case h_2 y ys h0 => exact (h0 ▸ ih).cons_cons x

theorem trim_trim (xs : List Nat) : trim (trim xs) = trim xs := by
  induction xs with
  | nil => rfl
  | cons x xs ih =>
    rw [trim]
    split
    case h_1 h0 => split_ifs with hx <;> simp [trim, hx]
    case h_2 y ys h0 => rw [trim, ← h0, ih, h0]

/-- `trim` gives the normal limbs of the value (10_state.md R21). -/
theorem trim_eq_limbsOf {xs : List Nat} (h : Limbs xs) : trim xs = limbsOf (limbsValue xs) := by
  have hnormal : Normal (trim xs) := ⟨fun x hx => h x ((trim_sublist xs).subset hx), trim_trim xs⟩
  rw [← limbsOf_limbsValue hnormal, limbsValue_trim]

/-- The normal limbs of a value other than 0, from the least significant on. -/
theorem limbsOf_add_radix_mul {x m : Nat} (hx : x < radix) (hne : x ≠ 0 ∨ m ≠ 0) :
    limbsOf (x + radix * m) = x :: limbsOf m := by
  rw [limbsOf_eq_digits, limbsOf_eq_digits, Nat.digits_add radix one_lt_radix x m hx hne]

/-- The same, by the remainder and the quotient. -/
theorem limbsOf_of_ne_zero {m : Nat} (h : m ≠ 0) : limbsOf m = m % radix :: limbsOf (m / radix) := by
  rw [limbsOf_eq_digits, limbsOf_eq_digits, Nat.digits_def' one_lt_radix (Nat.pos_of_ne_zero h)]

/-- Limbs beyond the length of a normal list are those of 0. -/
theorem div_radix_pow_eq_zero_iff {m i : Nat} : m / radix ^ i = 0 ↔ (limbsOf m).length ≤ i := by
  rw [Nat.div_eq_zero_iff_lt (Nat.pow_pos radix_pos), limbsOf_length_le_iff]

/-! ## The adder (41_mpi_arith.md R122) -/

/-- The loop of `mag_add` from limb `i` on adds what the operands hold there. -/
theorem addFrom_limbsOf (p q n i c : Nat) (hc : c ≤ 1) (hn : max (limbsOf p).length (limbsOf q).length ≤ i + n)
    (hlast : n = 0 ∨ i + n ≤ max (limbsOf p).length (limbsOf q).length) :
    addFrom (limbsOf p) (limbsOf q) n i c = limbsOf (p / radix ^ i + q / radix ^ i + c) := by
  induction n generalizing i c with
  | zero =>
    obtain ⟨hp, hq⟩ := max_le_iff.1 hn
    rw [div_radix_pow_eq_zero_iff.2 (by simpa using hp), div_radix_pow_eq_zero_iff.2 (by simpa using hq)]
    interval_cases c <;> rfl
  | succ n ih =>
    replace hlast := hlast.resolve_left n.succ_ne_zero
    have hne : p / radix ^ i ≠ 0 ∨ q / radix ^ i ≠ 0 := by
      rw [Ne, Ne, div_radix_pow_eq_zero_iff, div_radix_pow_eq_zero_iff]
      rcases le_max_iff.1 hlast with h | h <;> omega
    have hcarry : (p / radix ^ i % radix + q / radix ^ i % radix + c) / radix ≤ 1 := by
      simp only [radix_eq]
      omega
    rw [addFrom, getD_limbsOf, getD_limbsOf, ih _ _ hcarry (by omega) (by omega), pow_succ, ← Nat.div_div_eq_div_mul,
      ← Nat.div_div_eq_div_mul]
    generalize p / radix ^ i = P at hne ⊢
    generalize q / radix ^ i = Q at hne ⊢
    rw [limbsOf_of_ne_zero (m := P + Q + c) (by omega)]
    congr 1
    · simp only [radix_eq]
      omega
    · congr 1
      simp only [radix_eq]
      omega

/-- `mag_add` adds magnitudes (R122). -/
theorem magAdd_limbsOf (p q : Nat) : magAdd (limbsOf p) (limbsOf q) = limbsOf (p + q) := by
  rw [magAdd, addFrom_limbsOf p q _ 0 0 zero_le_one (by omega) (by omega), pow_zero, Nat.div_one, Nat.div_one, add_zero]

/-! ## The subtractor (41_mpi_arith.md R122) -/

/-- The loop of `mag_sub` from limb `i` on subtracts what the operands hold there; no borrow is left, because the
difference is not negative. -/
theorem subFrom_limbsOf (p q n i br : Nat) (hbr : br ≤ 1) (hn : (limbsOf p).length ≤ i + n)
    (hle : q / radix ^ i + br ≤ p / radix ^ i) :
    Limbs (subFrom (limbsOf p) (limbsOf q) n i br) ∧
      limbsValue (subFrom (limbsOf p) (limbsOf q) n i br) = p / radix ^ i - q / radix ^ i - br := by
  induction n generalizing i br with
  | zero =>
    rw [div_radix_pow_eq_zero_iff.2 (by simpa using hn)]
    exact ⟨limbs_nil, by simp [subFrom]⟩
  | succ n ih =>
    specialize ih (i + 1)
    rw [pow_succ, ← Nat.div_div_eq_div_mul, ← Nat.div_div_eq_div_mul] at ih
    rw [subFrom, getD_limbsOf, getD_limbsOf]
    generalize p / radix ^ i = P at hle ih ⊢
    generalize q / radix ^ i = Q at hle ih ⊢
    split_ifs with hlt
    all_goals simp only [radix_eq] at hlt ih
    · obtain ⟨hlimbs, hvalue⟩ := ih 1 le_rfl (by omega) (by omega)
      rw [limbs_cons_iff, limbsValue_cons, hvalue, radix_eq]
      exact ⟨⟨by omega, hlimbs⟩, by omega⟩
    · obtain ⟨hlimbs, hvalue⟩ := ih 0 zero_le_one (by omega) (by omega)
      rw [limbs_cons_iff, limbsValue_cons, hvalue, radix_eq]
      exact ⟨⟨by omega, hlimbs⟩, by omega⟩

/-- `mag_sub` subtracts a magnitude from one that is no smaller (R122). -/
theorem magSub_limbsOf {p q : Nat} (h : q ≤ p) : magSub (limbsOf p) (limbsOf q) = limbsOf (p - q) := by
  obtain ⟨hlimbs, hvalue⟩ := subFrom_limbsOf p q (limbsOf p).length 0 0 zero_le_one (by omega) (by simpa using h)
  rw [magSub, trim_eq_limbsOf hlimbs, hvalue, pow_zero, Nat.div_one, Nat.div_one, Nat.sub_zero]

/-! ## Signs (41_mpi_arith.md R123) -/

/-- A sign flag and limbs stand for a value when the limbs are those of its magnitude and the flag that of its sign. -/
theorem SignedLimbs.mk_eq_of {b : Bool} {m : Nat} {v : Int} (hm : v.natAbs = m) (hb : b = decide (v < 0)) :
    (⟨b, limbsOf m⟩ : SignedLimbs) = .of v := by
  rw [SignedLimbs.of, hm, hb]

/-- `signed_add` adds (R123): by the signs, and for different signs by the order of the magnitudes. -/
theorem signedAdd_of (v w : Int) : signedAdd (.of v) (.of w) = .of (v + w) := by
  simp only [signedAdd, SignedLimbs.of, magCmp_limbsOf, decide_eq_decide]
  split_ifs with hsign hzero hpos
  · rw [magAdd_limbsOf]
    exact SignedLimbs.mk_eq_of (by omega) (by rw [decide_eq_decide]; omega)
  · rw [Int.sign_eq_zero_iff_zero] at hzero
    exact SignedLimbs.mk_eq_of (m := 0) (by omega) (by rw [eq_comm, decide_eq_false_iff_not]; omega)
  · rw [Int.sign_pos_iff] at hpos
    rw [magSub_limbsOf (by omega)]
    exact SignedLimbs.mk_eq_of (by omega) (by rw [decide_eq_decide]; omega)
  · rw [Int.sign_eq_zero_iff_zero] at hzero
    rw [Int.sign_pos_iff] at hpos
    rw [magSub_limbsOf (by omega)]
    exact SignedLimbs.mk_eq_of (by omega) (by rw [decide_eq_decide]; omega)

/-- Flipping the sign of the subtrahend negates it, a zero left non-negative (R123). -/
theorem flipSign_of (w : Int) : flipSign (.of w) = .of (-w) := by
  refine SignedLimbs.mk_eq_of w.natAbs_neg ?_
  simp only [SignedLimbs.of, limbsOf_eq_nil_iff, ← decide_not]
  split_ifs with hzero
  · rw [eq_comm, decide_eq_false_iff_not]
    omega
  · rw [decide_eq_decide]
    omega

/-- Settles O54: a normal operand is the sign and limbs of its value (`SignedLimbs.Normal.of_value`). -/
theorem limbAdder : Obligations.LimbAdder := by
  intro x y hx hy
  rw [signedSub, ← hx.of_value, ← hy.of_value, flipSign_of, signedAdd_of, signedAdd_of, SignedLimbs.value_of,
    SignedLimbs.value_of, sub_eq_add_neg]
  exact ⟨rfl, rfl⟩

end Sys2Proof.Machine.Datapath
end

section
/-! PROOFS. The multiplier and the squarer (41_mpi_arith.md R127, R129). -/

namespace Sys2Proof.Machine.Datapath

/-! ## One row of a product -/

theorem limbsValue_set {r : List Nat} {k : Nat} (hk : k < r.length) (v : Nat) :
    limbsValue (r.set k v) + radix ^ k * r.getD k 0 = limbsValue r + radix ^ k * v := by
  induction r generalizing k with
  | nil => simp at hk
  | cons x xs ih =>
    cases k with
    | zero =>
      simp only [List.set_cons_zero, List.getD_cons_zero, limbsValue_cons, pow_zero]
      ring
    | succ k =>
      have := ih (Nat.lt_of_succ_lt_succ hk)
      simp only [List.set_cons_succ, List.getD_cons_succ, limbsValue_cons, pow_succ]
      linear_combination radix * this

theorem Limbs.set {r : List Nat} (h : Limbs r) (k : Nat) {v : Nat} (hv : v < radix) : Limbs (r.set k v) := fun x hx =>
  (List.mem_or_eq_of_mem_set hx).elim (h x) (· ▸ hv)

theorem getD_set_of_ne {j k : Nat} (h : k ≠ j) (r : List Nat) (v : Nat) : (r.set k v).getD j 0 = r.getD j 0 := by
  simp only [List.getD_eq_getElem?_getD, List.getElem?_set_ne h]

@[simp] theorem mulRow_length (x : Nat) (ys r : List Nat) (k c : Nat) : (mulRow x ys r k c).length = r.length := by
  induction ys generalizing r k c with
  | nil => exact List.length_set
  | cons y ys ih => rw [mulRow, ih, List.length_set]

/-- A row writes no limb behind its carry. -/
theorem getD_mulRow_of_lt (x : Nat) (ys r : List Nat) (k c : Nat) {j : Nat} (hj : k + ys.length < j) :
    (mulRow x ys r k c).getD j 0 = r.getD j 0 := by
  induction ys generalizing r k c with
  | nil => exact getD_set_of_ne hj.ne r c
  | cons y ys ih =>
    rw [List.length_cons] at hj
    rw [mulRow, ih _ _ _ (by omega), getD_set_of_ne (by omega)]

/-- A limb of a row is two digits long: the carry is again a limb. -/
theorem mulRow_carry_lt {a x y c : Nat} (ha : a < radix) (hx : x < radix) (hy : y < radix) (hc : c < radix) :
    (a + x * y + c) / radix < radix := by
  refine Nat.div_lt_of_lt_mul ?_
  have hxy : x * y ≤ (radix - 1) * (radix - 1) := Nat.mul_le_mul (by omega) (by omega)
  simp only [radix_eq] at *
  omega

section

variable {x : Nat} {ys r : List Nat} {k c : Nat}

theorem mulRow_limbs (hx : x < radix) (hys : Limbs ys) (hr : Limbs r) (hc : c < radix) : Limbs (mulRow x ys r k c) := by
  induction ys generalizing r k c with
  | nil => exact hr.set k hc
  | cons y ys ih =>
    obtain ⟨hy, hys⟩ := limbs_cons_iff.1 hys
    exact ih hys (hr.set k (Nat.mod_lt _ radix_pos)) (mulRow_carry_lt (hr.getD_lt k) hx hy hc)

/-- A row adds its product, when there is room for its last carry (R127). -/
theorem limbsValue_mulRow (hlen : k + ys.length < r.length) (hroom : r.getD (k + ys.length) 0 = 0) :
    limbsValue (mulRow x ys r k c) = limbsValue r + radix ^ k * (x * limbsValue ys + c) := by
  induction ys generalizing r k c with
  | nil =>
    have hset := limbsValue_set (k := k) hlen c
    rw [List.length_nil, add_zero] at hroom
    rw [mulRow, limbsValue_nil, mul_zero, zero_add, ← hset, hroom, mul_zero, add_zero]
  | cons y ys ih =>
    rw [List.length_cons] at hlen hroom
    rw [mulRow, ih (by rw [List.length_set]; omega) (by rw [getD_set_of_ne (by omega), ← hroom]; congr 1; omega)]
    have hset := limbsValue_set (r := r) (k := k) (by omega) ((r.getD k 0 + x * y + c) % radix)
    have hdigit := Nat.mod_add_div (r.getD k 0 + x * y + c) radix
    rw [limbsValue_cons, pow_succ]
    generalize (r.getD k 0 + x * y + c) / radix = hi at *
    generalize (r.getD k 0 + x * y + c) % radix = lo at *
    zify at *
    linear_combination hset + (radix : Int) ^ k * hdigit

end

/-! ## The multiplier (R127) -/

/-- The limbs of `r` from position `k` on are 0: what a row of a product adds there has room. -/
def ZeroFrom (r : List Nat) (k : Nat) : Prop := ∀ j, k ≤ j → r.getD j 0 = 0

theorem zeroFrom_replicate (n k : Nat) : ZeroFrom (List.replicate n 0) k := fun j _ => by
  rw [List.getD_eq_getElem?_getD, List.getElem?_replicate]
  split_ifs <;> rfl

/-- A row takes the one limb behind it. -/
theorem ZeroFrom.mulRow {r : List Nat} {k i : Nat} {ys : List Nat} (h : ZeroFrom r i) (hi : i = k + ys.length) (x c : Nat) :
    ZeroFrom (mulRow x ys r k c) (i + 1) := fun j hj => by
  rw [getD_mulRow_of_lt x ys r k c (by omega), h j (by omega)]

theorem mulRows_limbs {b xs r : List Nat} {i : Nat} (hb : Limbs b) (hxs : Limbs xs) (hr : Limbs r) :
    Limbs (mulRows b xs i r) := by
  induction xs generalizing i r with
  | nil => exact hr
  | cons x xs ih =>
    obtain ⟨hx, hxs⟩ := limbs_cons_iff.1 hxs
    exact ih hxs (mulRow_limbs hx hb hr radix_pos)

/-- The rows add the product of the limbs left. -/
theorem limbsValue_mulRows {b xs r : List Nat} {i : Nat} (hlen : i + xs.length + b.length ≤ r.length)
    (hroom : ZeroFrom r (i + b.length)) :
    limbsValue (mulRows b xs i r) = limbsValue r + radix ^ i * (limbsValue xs * limbsValue b) := by
  induction xs generalizing i r with
  | nil => simp [mulRows]
  | cons x xs ih =>
    rw [List.length_cons] at hlen
    have hrow := hroom.mulRow rfl x 0
    rw [mulRows, ih (by rw [mulRow_length]; omega) (by rwa [Nat.add_right_comm]),
      limbsValue_mulRow (by omega) (hroom _ le_rfl), limbsValue_cons, pow_succ]
    ring

/-- `mag_mul` multiplies magnitudes (R127). -/
theorem magMul_eq {a b : List Nat} (ha : Limbs a) (hb : Limbs b) : magMul a b = limbsOf (limbsValue a * limbsValue b) := by
  rw [magMul, trim_eq_limbsOf (mulRows_limbs hb ha (limbs_replicate_zero _)),
    limbsValue_mulRows (by simp) (zeroFrom_replicate _ _), limbsValue_replicate_zero, pow_zero, zero_add, one_mul]

/-- The sign flags of two factors differ when their product is negative. -/
theorem xor_neg_eq {v w : Int} (hv : v ≠ 0) (hw : w ≠ 0) :
    xor (decide (v < 0)) (decide (w < 0)) = decide (v * w < 0) := by
  rcases lt_or_gt_of_ne hv with h | h <;> rcases lt_or_gt_of_ne hw with h' | h'
  · simp [h, h', (mul_pos_of_neg_of_neg h h').not_gt]
  · simp [h, h'.not_gt, mul_neg_of_neg_of_pos h h']
  · simp [h.not_gt, h', mul_neg_of_pos_of_neg h h']
  · simp [h.not_gt, h'.not_gt, (mul_pos h h').not_gt]

/-- A product is negative when it is not 0 and the signs differ (R127). -/
theorem signedMul_of (v w : Int) : signedMul (.of v) (.of w) = .of (v * w) := by
  simp only [signedMul, SignedLimbs.of, magMul_eq (normal_limbsOf _).1 (normal_limbsOf _).1, limbsValue_limbsOf,
    limbsOf_eq_nil_iff, ← Int.natAbs_mul]
  refine SignedLimbs.mk_eq_of rfl ?_
  split_ifs with hzero
  · rw [Int.natAbs_eq_zero] at hzero
    rw [hzero]
    rfl
  · rw [Int.natAbs_eq_zero, mul_eq_zero, not_or] at hzero
    exact xor_neg_eq hzero.1 hzero.2

/-! ## The squarer (R129) -/

/-- The cross products of a magnitude, `Σ_(i<j) a[i] * a[j] * B^(i+j-1)` (R129). -/
def crossSum : List Nat → Nat
  | [] => 0
  | x :: xs => x * limbsValue xs + radix ^ 2 * crossSum xs

/-- The squares of its limbs, `Σ_i a[i]^2 * B^(2i)` (R129). -/
def squareSum : List Nat → Nat
  | [] => 0
  | x :: xs => x * x + radix ^ 2 * squareSum xs

/-- A square is the cross products twice, and the squares of the limbs. -/
theorem limbsValue_sq (a : List Nat) : limbsValue a ^ 2 = 2 * (radix * crossSum a) + squareSum a := by
  induction a with
  | nil => rfl
  | cons x xs ih =>
    rw [limbsValue_cons, crossSum, squareSum]
    linear_combination radix ^ 2 * ih

theorem crossRows_limbs {xs r : List Nat} {i : Nat} (hxs : Limbs xs) (hr : Limbs r) : Limbs (crossRows xs i r) := by
  induction xs generalizing i r with
  | nil => exact hr
  | cons x xs ih =>
    obtain ⟨hx, hxs⟩ := limbs_cons_iff.1 hxs
    exact ih hxs (mulRow_limbs hx hxs hr radix_pos)

@[simp] theorem crossRows_length (xs r : List Nat) (i : Nat) : (crossRows xs i r).length = r.length := by
  induction xs generalizing i r with
  | nil => rfl
  | cons x xs ih => rw [crossRows, ih, mulRow_length]

/-- The first pass adds the cross products. -/
theorem limbsValue_crossRows {xs r : List Nat} {i : Nat} (hlen : 2 * i + 2 * xs.length ≤ r.length)
    (hroom : ZeroFrom r (2 * i + xs.length)) :
    limbsValue (crossRows xs i r) = limbsValue r + radix ^ (2 * i + 1) * crossSum xs := by
  induction xs generalizing i r with
  | nil => simp [crossRows, crossSum]
  | cons x xs ih =>
    rw [List.length_cons] at hlen hroom
    have hrow := hroom.mulRow (k := 2 * i + 1) (ys := xs) (by omega) x 0
    rw [crossRows, ih (by rw [mulRow_length]; omega) (by convert hrow using 1; ring),
      limbsValue_mulRow (by omega) (hroom _ (by omega)), crossSum]
    ring

@[simp] theorem doubleAll_length (xs : List Nat) (c : Nat) : (doubleAll xs c).length = xs.length := by
  induction xs generalizing c with
  | nil => rfl
  | cons x xs ih => rw [doubleAll, List.length_cons, ih, List.length_cons]

theorem doubleAll_limbs (xs : List Nat) (c : Nat) : Limbs (doubleAll xs c) := by
  induction xs generalizing c with
  | nil => exact limbs_nil
  | cons x xs ih => exact limbs_cons_iff.2 ⟨Nat.mod_lt _ radix_pos, ih _⟩

/-- The second pass doubles, up to the carry out of the top. -/
theorem limbsValue_doubleAll (xs : List Nat) (c : Nat) :
    limbsValue (doubleAll xs c) = (2 * limbsValue xs + c) % radix ^ xs.length := by
  induction xs generalizing c with
  | nil => exact (Nat.mod_one _).symm
  | cons x xs ih =>
    have hsum : 2 * limbsValue (x :: xs) + c = (2 * x + c) + radix * (2 * limbsValue xs) := by
      rw [limbsValue_cons]
      ring
    rw [doubleAll, limbsValue_cons, ih, hsum, List.length_cons, pow_succ', Nat.mod_mul, Nat.add_mul_mod_self_left,
      Nat.add_mul_div_left _ _ radix_pos, add_comm (2 * limbsValue xs)]

theorem addSquares_limbs (xs : List Nat) (c : Nat) (r : List Nat) (hr : Limbs r) : Limbs (addSquares xs c r) := by
  induction xs, c, r using addSquares.induct with
  | case1 x xs c lo hi rest t u ih =>
    simp only [limbs_cons_iff] at hr
    obtain ⟨-, -, hrest⟩ := hr
    simp only [addSquares, limbs_cons_iff]
    exact ⟨Nat.mod_lt _ radix_pos, Nat.mod_lt _ radix_pos, ih hrest⟩
  | case2 xs c r h =>
    rw [addSquares]
    · exact hr
    · exact h

/-- The last pass adds the squares, up to the carry out of the top. -/
theorem limbsValue_addSquares (xs : List Nat) (c : Nat) (r : List Nat) (hlen : r.length = 2 * xs.length) :
    limbsValue (addSquares xs c r) = (limbsValue r + squareSum xs + c) % radix ^ r.length := by
  induction xs, c, r using addSquares.induct with
  | case1 x xs c lo hi rest t u ih =>
    simp only [List.length_cons] at hlen
    have hsum : limbsValue (lo :: hi :: rest) + squareSum (x :: xs) + c =
        (lo + x * x + c) + radix * (hi + radix * (limbsValue rest + squareSum xs)) := by
      rw [limbsValue_cons, limbsValue_cons, squareSum]
      ring
    have hcarry : hi + radix * (limbsValue rest + squareSum xs) + (lo + x * x + c) / radix =
        u + radix * (limbsValue rest + squareSum xs) := Nat.add_right_comm _ _ _
    have hpow : radix ^ (lo :: hi :: rest).length = radix * (radix * radix ^ rest.length) := by
      rw [List.length_cons, List.length_cons, pow_succ', pow_succ']
    rw [addSquares, limbsValue_cons, limbsValue_cons, ih (by omega), hsum, hpow, Nat.mod_mul, Nat.mod_mul,
      Nat.add_mul_mod_self_left, Nat.add_mul_div_left _ _ radix_pos, Nat.add_comm (_ / radix), hcarry,
      Nat.add_mul_mod_self_left, Nat.add_mul_div_left _ _ radix_pos, Nat.add_comm (_ / radix)]
  | case2 xs c r h =>
    match xs, r, hlen, h with
    | [], [], _, _ => exact (Nat.mod_one _).symm
    | x :: xs, lo :: hi :: rest, _, h => exact absurd rfl (h x xs lo hi rest rfl)

/-- `mag_sqr` squares magnitudes (R129): the carries that the passes drop are 0, since the square has room. -/
theorem magSqr_eq {a : List Nat} (ha : Limbs a) : magSqr a = limbsOf (limbsValue a ^ 2) := by
  have hcross : limbsValue (crossRows a 0 (List.replicate (2 * a.length) 0)) = radix * crossSum a := by
    rw [limbsValue_crossRows (by simp) (zeroFrom_replicate _ _), limbsValue_replicate_zero, zero_add, mul_zero, zero_add,
      pow_one]
  have hlt : limbsValue a ^ 2 < radix ^ (2 * a.length) := by
    rw [mul_comm, pow_mul]
    exact Nat.pow_lt_pow_left ha.value_lt two_ne_zero
  rw [magSqr, trim_eq_limbsOf (addSquares_limbs _ _ _ (doubleAll_limbs _ _)), limbsValue_addSquares _ _ _ (by simp),
    limbsValue_doubleAll, hcross, doubleAll_length, crossRows_length, List.length_replicate, add_zero, add_zero,
    Nat.mod_add_mod, ← limbsValue_sq, Nat.mod_eq_of_lt hlt]

/-- Settles O55: a normal operand is the sign and limbs of its value (`SignedLimbs.Normal.of_value`). -/
theorem limbMultiplier : Obligations.LimbMultiplier := by
  intro x y hx hy
  refine ⟨?_, magSqr_eq hx.1.1⟩
  rw [← hx.of_value, ← hy.of_value, signedMul_of, SignedLimbs.value_of, SignedLimbs.value_of]

end Sys2Proof.Machine.Datapath
end

section
/-! PROOFS. The shifter (41_mpi_arith.md R141). -/

namespace Sys2Proof.Machine.Datapath

/-! ## Shifts to the left -/

/-- The limbs behind the first of a normal list are normal. -/
theorem Normal.tail {x : Nat} {xs : List Nat} (h : Normal (x :: xs)) : Normal xs := by
  obtain ⟨hlimbs, htrim⟩ := h
  refine ⟨(limbs_cons_iff.1 hlimbs).2, (trim_eq_self_iff xs).2 fun hne => ?_⟩
  rw [← List.getLast_cons hne]
  exact (trim_eq_self_iff (x :: xs)).1 htrim (List.cons_ne_nil x xs)

/-- The limb loop of `mag_shl` gives the normal limbs of the shifted value with the carry. -/
theorem shlFrom_eq {bs : Nat} (hbs : bs ≤ Config.limbBits) {xs : List Nat} (h : Normal xs) {c : Nat} (hc : c < radix) :
    shlFrom bs xs c = limbsOf (limbsValue xs * 2 ^ bs + c) := by
  induction xs generalizing c with
  | nil =>
    rw [shlFrom, limbsValue_nil, zero_mul, zero_add]
    split_ifs with h0
    · rw [limbsOf_of_ne_zero h0, Nat.mod_eq_of_lt hc, Nat.div_eq_of_lt hc]
      rfl
    · rw [not_not.1 h0]
      rfl
  | cons x xs ih =>
    obtain ⟨hx, -⟩ := limbs_cons_iff.1 h.1
    have hsum : limbsValue (x :: xs) * 2 ^ bs + c = (x * 2 ^ bs + c) + radix * (limbsValue xs * 2 ^ bs) := by
      rw [limbsValue_cons]
      ring
    have hne : limbsValue (x :: xs) * 2 ^ bs + c ≠ 0 := by
      have := Nat.mul_pos (limbsValue_pos h (List.cons_ne_nil x xs)) (Nat.two_pow_pos bs)
      omega
    have hcarry : (x * 2 ^ bs + c) / radix < radix := by
      refine Nat.div_lt_of_lt_mul ?_
      have hpow : 2 ^ bs ≤ radix := Nat.pow_le_pow_right two_pos hbs
      calc x * 2 ^ bs + c < x * radix + radix := add_lt_add_of_le_of_lt (Nat.mul_le_mul_left x hpow) hc
        _ = (x + 1) * radix := by ring
        _ ≤ radix * radix := Nat.mul_le_mul_right radix hx
    rw [limbsOf_of_ne_zero hne, hsum, shlFrom, ih h.tail hcarry, Nat.add_mul_mod_self_left,
      Nat.add_mul_div_left _ _ radix_pos, add_comm (_ / radix)]

/-- Zero limbs in front multiply by powers of the radix. -/
theorem replicate_append_limbsOf (k : Nat) {m : Nat} (h : m ≠ 0) :
    List.replicate k 0 ++ limbsOf m = limbsOf (m * radix ^ k) := by
  induction k with
  | zero => simp
  | succ k ih =>
    have hne : m * radix ^ k ≠ 0 := Nat.mul_ne_zero h (Nat.pow_pos radix_pos).ne'
    rw [List.replicate_succ, List.cons_append, ih, ← limbsOf_add_radix_mul radix_pos (.inr hne)]
    congr 1
    ring

/-- A shift is one by whole limbs and one by less than a limb (R141). -/
theorem two_pow_eq_limbs_bits (s : Nat) : 2 ^ s = 2 ^ (s % Config.limbBits) * radix ^ (s / Config.limbBits) := by
  rw [radix, ← pow_mul, ← pow_add, Nat.mod_add_div]

/-- `mag_shl` multiplies by a power of two (R141). -/
theorem magShl_eq {a : List Nat} (h : Normal a) (s : Nat) : magShl a s = limbsOf (limbsValue a * 2 ^ s) := by
  rw [magShl]
  split_ifs with hnil
  · rw [hnil, limbsValue_nil, zero_mul]
    rfl
  · have hne : limbsValue a * 2 ^ (s % Config.limbBits) ≠ 0 :=
      (Nat.mul_pos (limbsValue_pos h hnil) (Nat.two_pow_pos _)).ne'
    rw [shlFrom_eq (Nat.mod_lt s (by decide)).le h radix_pos, add_zero, replicate_append_limbsOf _ hne, mul_assoc,
      ← two_pow_eq_limbs_bits]

/-! ## Shifts to the right -/

theorem limbsValue_drop {a : List Nat} (h : Limbs a) (k : Nat) : limbsValue (a.drop k) = limbsValue a / radix ^ k := by
  rw [limbsValue_eq_ofDigits, limbsValue_eq_ofDigits, Nat.ofDigits_div_pow_eq_ofDigits_drop k radix_pos a h]

/-- The low bits of a magnitude are those of its first limb. -/
theorem limbsValue_mod_two_pow {bs : Nat} (hbs : bs ≤ Config.limbBits) (xs : List Nat) :
    limbsValue xs % 2 ^ bs = xs.getD 0 0 % 2 ^ bs := by
  cases xs with
  | nil => rfl
  | cons x xs =>
    obtain ⟨k, hk⟩ : 2 ^ bs ∣ radix := pow_dvd_pow 2 hbs
    rw [limbsValue_cons, hk, mul_assoc, Nat.add_mul_mod_self_left]
    rfl

section

variable {bs : Nat} (hbs : bs ≤ Config.limbBits)
include hbs

/-- A limb shifted down and the low bits of the next make a limb. -/
theorem shrLimbs_limbs {xs : List Nat} (h : Limbs xs) : Limbs (shrLimbs bs xs) := by
  induction xs with
  | nil => exact limbs_nil
  | cons x xs ih =>
    obtain ⟨hx, hxs⟩ := limbs_cons_iff.1 h
    refine limbs_cons_iff.2 ⟨?_, ih hxs⟩
    have hradix : radix = 2 ^ bs * 2 ^ (Config.limbBits - bs) := by
      rw [← pow_add, Nat.add_sub_cancel' hbs, radix]
    have hhigh : x / 2 ^ bs < 2 ^ (Config.limbBits - bs) := Nat.div_lt_of_lt_mul (hradix ▸ hx)
    have hlow : xs.getD 0 0 % 2 ^ bs + 1 ≤ 2 ^ bs := Nat.mod_lt _ (Nat.two_pow_pos bs)
    calc x / 2 ^ bs + xs.getD 0 0 % 2 ^ bs * 2 ^ (Config.limbBits - bs)
        < (xs.getD 0 0 % 2 ^ bs + 1) * 2 ^ (Config.limbBits - bs) := by rw [Nat.succ_mul, add_comm]; gcongr
      _ ≤ radix := by rw [hradix]; gcongr

/-- The limb loop of `mag_shr` divides. -/
theorem limbsValue_shrLimbs (xs : List Nat) : limbsValue (shrLimbs bs xs) = limbsValue xs / 2 ^ bs := by
  induction xs with
  | nil => simp [shrLimbs]
  | cons x xs ih =>
    have hradix : radix = 2 ^ bs * 2 ^ (Config.limbBits - bs) := by
      rw [← pow_add, Nat.add_sub_cancel' hbs, radix]
    rw [shrLimbs, limbsValue_cons, limbsValue_cons, ih, ← limbsValue_mod_two_pow hbs]
    have hsplit := Nat.div_add_mod (limbsValue xs) (2 ^ bs)
    calc _ = x / 2 ^ bs + 2 ^ (Config.limbBits - bs) * (2 ^ bs * (limbsValue xs / 2 ^ bs) + limbsValue xs % 2 ^ bs) := by
          rw [hradix]; ring
      _ = x / 2 ^ bs + 2 ^ (Config.limbBits - bs) * limbsValue xs := by rw [hsplit]
      _ = (x + radix * limbsValue xs) / 2 ^ bs := by
          rw [hradix, mul_assoc, Nat.add_mul_div_left _ _ (Nat.two_pow_pos bs)]

end

/-- `mag_shr` divides by a power of two (R141). -/
theorem magShr_eq {a : List Nat} (h : Limbs a) (s : Nat) : magShr a s = limbsOf (limbsValue a / 2 ^ s) := by
  have hbs : s % Config.limbBits ≤ Config.limbBits := (Nat.mod_lt s (by decide)).le
  have hvalue : limbsValue a / 2 ^ s = limbsValue (a.drop (s / Config.limbBits)) / 2 ^ (s % Config.limbBits) := by
    rw [limbsValue_drop h, Nat.div_div_eq_div_mul, mul_comm, ← two_pow_eq_limbs_bits]
  rw [magShr, hvalue]
  split_ifs with hlen
  · rw [List.drop_eq_nil_of_le hlen, limbsValue_nil, Nat.zero_div]
    rfl
  · rw [trim_eq_limbsOf (shrLimbs_limbs hbs (h.drop _)), limbsValue_shrLimbs hbs]

/-- Settles O56: a left shift leaves the limbs normal (`shlFrom_eq`), a right shift is trimmed. -/
theorem limbShifter : Obligations.LimbShifter := fun _ s h => ⟨magShl_eq h s, magShr_eq h.1 s⟩

end Sys2Proof.Machine.Datapath
end

section
/-! PROOFS. The divider (41_mpi_arith.md R133, R134). -/

namespace Sys2Proof.Machine.Datapath

/-! ## The trial subtraction and the add-back -/

section

variable {q : Nat} {seg vn : List Nat}

theorem subMul_length (q : Nat) (seg vn : List Nat) (br : Nat) : (subMul q seg vn br).1.length = seg.length := by
  induction seg generalizing vn br with
  | nil => rfl
  | cons x xs ih => rw [subMul, List.length_cons, ih, List.length_cons]

theorem addBack_length (seg vn : List Nat) (c : Nat) : (addBack seg vn c).1.length = seg.length := by
  induction seg generalizing vn c with
  | nil => rfl
  | cons x xs ih => rw [addBack, List.length_cons, ih, List.length_cons]

/-- A list is its first limb, or 0, and the limbs behind it. -/
theorem limbsValue_headD_tail (a : List Nat) : limbsValue a = a.headD 0 + radix * limbsValue a.tail := by
  cases a <;> rfl

/-- A list no longer than another is so behind the first limb. -/
theorem tail_length_le {x : Nat} {xs : List Nat} (h : vn.length ≤ (x :: xs).length) : vn.tail.length ≤ xs.length := by
  rw [List.length_tail]
  exact Nat.sub_le_of_le_add h

/-- One limb of the trial subtraction: it stays a limb, and what it borrows is what it lacks. -/
theorem borrow_spec {x need : Nat} (hx : x < radix) :
    need ≤ x + (if x < need then (need - x + radix - 1) / radix else 0) * radix ∧
      x + (if x < need then (need - x + radix - 1) / radix else 0) * radix - need < radix := by
  simp only [radix_eq] at hx ⊢
  split_ifs <;> omega

theorem subMul_limbs (h : Limbs seg) (br : Nat) : Limbs (subMul q seg vn br).1 := by
  induction seg generalizing vn br with
  | nil => exact limbs_nil
  | cons x xs ih =>
    obtain ⟨hx, hxs⟩ := limbs_cons_iff.1 h
    exact limbs_cons_iff.2 ⟨(borrow_spec hx).2, ih hxs _⟩

/-- The trial subtraction subtracts, up to the borrow out of the top (R134). -/
theorem subMul_value (h : Limbs seg) (hlen : vn.length ≤ seg.length) (br : Nat) :
    limbsValue (subMul q seg vn br).1 + q * limbsValue vn + br =
      limbsValue seg + (subMul q seg vn br).2 * radix ^ seg.length := by
  induction seg generalizing vn br with
  | nil =>
    rw [List.eq_nil_of_length_eq_zero (Nat.le_zero.1 hlen)]
    simp [subMul]
  | cons x xs ih =>
    obtain ⟨hx, hxs⟩ := limbs_cons_iff.1 h
    have hbr := (borrow_spec (need := q * vn.headD 0 + br) hx).1
    simp only [subMul]
    generalize (if x < q * vn.headD 0 + br then _ else 0) = up at hbr ⊢
    have hrest := ih (vn := vn.tail) hxs (tail_length_le hlen) up
    have hdigit := Nat.sub_add_cancel hbr
    rw [limbsValue_headD_tail vn, limbsValue_cons, limbsValue_cons, List.length_cons, pow_succ]
    generalize x + up * radix - (q * vn.headD 0 + br) = d at hdigit ⊢
    linear_combination radix * hrest + hdigit

theorem addBack_limbs (seg vn : List Nat) (c : Nat) : Limbs (addBack seg vn c).1 := by
  induction seg generalizing vn c with
  | nil => exact limbs_nil
  | cons x xs ih => exact limbs_cons_iff.2 ⟨Nat.mod_lt _ radix_pos, ih _ _⟩

/-- The add-back adds, up to the carry out of the top (R134). -/
theorem addBack_value (hlen : vn.length ≤ seg.length) (c : Nat) :
    limbsValue (addBack seg vn c).1 + (addBack seg vn c).2 * radix ^ seg.length =
      limbsValue seg + limbsValue vn + c := by
  induction seg generalizing vn c with
  | nil =>
    rw [List.eq_nil_of_length_eq_zero (Nat.le_zero.1 hlen)]
    simp [addBack]
  | cons x xs ih =>
    simp only [addBack]
    have hrest := ih (vn := vn.tail) (tail_length_le hlen) ((x + vn.headD 0 + c) / radix)
    have hdigit := Nat.mod_add_div (x + vn.headD 0 + c) radix
    rw [limbsValue_headD_tail vn, limbsValue_cons, limbsValue_cons, List.length_cons, pow_succ]
    linear_combination radix * hrest + hdigit

/-- The add-back carries at most 1, so it takes at most one borrow away. -/
theorem addBack_carry_le (hseg : Limbs seg) (hvn : Limbs vn) {c : Nat} (hc : c ≤ 1) : (addBack seg vn c).2 ≤ 1 := by
  induction seg generalizing vn c with
  | nil => exact hc
  | cons x xs ih =>
    obtain ⟨hx, hxs⟩ := limbs_cons_iff.1 hseg
    have hhead : vn.headD 0 < radix := by
      cases vn with
      | nil => exact radix_pos
      | cons y ys => exact (limbs_cons_iff.1 hvn).1
    refine ih hxs (fun y hy => hvn y (List.mem_of_mem_tail hy)) ?_
    simp only [radix_eq] at hx hhead ⊢
    omega

end

/-! ## The corrections -/

theorem correct_of_no_borrow (vn : List Nat) (fuel q : Nat) (seg : List Nat) :
    correct vn (fuel + 1) q seg 0 = (q, seg) := rfl

theorem correct_of_borrow {br : Nat} (h : br ≠ 0) (vn : List Nat) (fuel q : Nat) (seg : List Nat) :
    correct vn (fuel + 1) q seg br = correct vn fuel (q - 1) (addBack seg vn 0).1 (br - (addBack seg vn 0).2) :=
  if_neg h

/-- The correction loop ends at the digit and the remainder of the segment `S` that the trial subtraction began with: an
estimate that is not too small is lowered while a borrow stands, which is while it is too large (R134). -/
theorem correct_spec {vn seg : List Nat} {S q br fuel : Nat} (hvn : Limbs vn) (hpos : 0 < limbsValue vn)
    (hseg : Limbs seg) (hlen : vn.length ≤ seg.length)
    (hvalue : limbsValue seg + q * limbsValue vn = S + br * radix ^ seg.length) (hq : S / limbsValue vn ≤ q)
    (hfuel : q < fuel) :
    (correct vn fuel q seg br).1 = S / limbsValue vn ∧ Limbs (correct vn fuel q seg br).2 ∧
      (correct vn fuel q seg br).2.length = seg.length ∧ limbsValue (correct vn fuel q seg br).2 = S % limbsValue vn := by
  induction fuel generalizing q seg br with
  | zero => omega
  | succ fuel ih =>
    by_cases hbr : br = 0
    · subst hbr
      rw [zero_mul, add_zero] at hvalue
      have hdigit : q = S / limbsValue vn :=
        le_antisymm ((Nat.le_div_iff_mul_le hpos).2 (hvalue ▸ Nat.le_add_left _ _)) hq
      have hmod := Nat.mod_add_div S (limbsValue vn)
      rw [← hdigit, mul_comm] at hmod
      rw [correct_of_no_borrow]
      exact ⟨hdigit, hseg, rfl, show limbsValue seg = _ by omega⟩
    · have hadd := addBack_value hlen 0
      have hlt := hseg.value_lt
      have hlower : S / limbsValue vn < q := by
        rw [Nat.div_lt_iff_lt_mul hpos]
        have := Nat.mul_le_mul_right (radix ^ seg.length) (Nat.one_le_iff_ne_zero.2 hbr)
        omega
      rw [correct_of_borrow hbr]
      obtain ⟨q, rfl⟩ : ∃ k, q = k + 1 := Nat.exists_eq_succ_of_ne_zero (Nat.ne_zero_of_lt hlower)
      obtain ⟨br, rfl⟩ := Nat.exists_eq_add_of_le'
        ((addBack_carry_le hseg hvn zero_le_one (c := 0)).trans (Nat.one_le_iff_ne_zero.2 hbr))
      rw [Nat.add_sub_cancel, Nat.add_sub_cancel, ← addBack_length seg vn 0]
      refine ih (addBack_limbs _ _ _) (by rwa [addBack_length]) ?_ (Nat.lt_succ_iff.1 hlower) (Nat.lt_succ_iff.1 hfuel)
      rw [addBack_length]
      zify at *
      linear_combination hvalue + hadd

/-! ## One digit -/

theorem limbsValue_take {a : List Nat} (h : Limbs a) (k : Nat) : limbsValue (a.take k) = limbsValue a % radix ^ k := by
  rw [limbsValue_eq_ofDigits, limbsValue_eq_ofDigits, Nat.ofDigits_mod_pow_eq_ofDigits_take k radix_pos a h]

/-- A limb that is there, and those behind it. -/
theorem limbsValue_drop_eq_getD_add (a : List Nat) (k : Nat) :
    limbsValue (a.drop k) = a.getD k 0 + radix * limbsValue (a.drop (k + 1)) := by
  rw [limbsValue_headD_tail, List.tail_drop, List.headD_eq_head?_getD, List.head?_drop, List.getD_eq_getElem?_getD]

/-- A normal list has no more limbs than its value needs. -/
theorem Normal.pow_length_le {a : List Nat} (h : Normal a) (hne : a ≠ []) : radix ^ (a.length - 1) ≤ limbsValue a := by
  rw [← not_lt, ← limbsOf_length_le_iff, limbsOf_limbsValue h]
  have := List.length_pos_of_ne_nil hne
  omega

/-- The last limb of a list is what its value has above the others. -/
theorem Limbs.getD_last_eq {a : List Nat} (h : Limbs a) :
    a.getD (a.length - 1) 0 = limbsValue a / radix ^ (a.length - 1) := by
  rw [← limbsValue_drop h, limbsValue_drop_eq_getD_add, List.drop_eq_nil_of_le (by omega), limbsValue_nil, mul_zero, add_zero]

section

variable {vn un : List Nat} {j : Nat} (hvn : Normal vn) (hne : vn ≠ []) (hun : Limbs un)
  (htop : limbsValue (un.drop (j + 1)) < limbsValue vn)
include hun htop

/-- The running remainder is less than the divisor times the radix: its digit is a limb. -/
theorem limbsValue_drop_lt : limbsValue (un.drop j) < radix * limbsValue vn := by
  have hlimb := hun.getD_lt j
  have hmul := Nat.mul_le_mul_left radix htop
  rw [Nat.mul_succ] at hmul
  rw [limbsValue_drop_eq_getD_add]
  omega

include hvn

/-- The limbs above the segment of a digit are 0. -/
theorem limbsValue_drop_segment : limbsValue (un.drop (j + vn.length + 1)) = 0 := by
  rw [Nat.add_right_comm, ← List.drop_drop, limbsValue_drop (hun.drop _), Nat.div_eq_zero_iff_lt (Nat.pow_pos radix_pos)]
  exact htop.trans hvn.1.value_lt

/-- The segment of a digit is the whole running remainder from position `j` on. -/
theorem limbsValue_segment : limbsValue ((un.drop j).take (vn.length + 1)) = limbsValue (un.drop j) := by
  rw [limbsValue_take (hun.drop j), Nat.mod_eq_of_lt]
  refine (limbsValue_drop_lt hun htop).trans ?_
  rw [pow_succ']
  exact Nat.mul_lt_mul_of_pos_left hvn.1.value_lt radix_pos

include hne

/-- The estimate from the two high limbs is not too small (R134): the digit is that of the segment by the divisor, and
without their low limbs the divisor has lost more. -/
theorem le_estimate : limbsValue (un.drop j) / limbsValue vn ≤
    min ((un.getD (j + vn.length) 0 * radix + un.getD (j + vn.length - 1) 0) / vn.getD (vn.length - 1) 0) (radix - 1) := by
  have hlen := List.length_pos_of_ne_nil hne
  have hpow := Nat.pow_pos (n := vn.length - 1) radix_pos
  have hnum : un.getD (j + vn.length) 0 * radix + un.getD (j + vn.length - 1) 0 =
      limbsValue (un.drop j) / radix ^ (vn.length - 1) := by
    rw [← limbsValue_drop (hun.drop j), List.drop_drop, ← Nat.add_sub_assoc hlen, limbsValue_drop_eq_getD_add,
      Nat.sub_add_cancel (by omega), limbsValue_drop_eq_getD_add un (j + vn.length),
      limbsValue_drop_segment hvn hun htop]
    ring
  have hlead : 0 < vn.getD (vn.length - 1) 0 := by
    rw [hvn.1.getD_last_eq]
    exact Nat.div_pos (hvn.pow_length_le hne) hpow
  have hdivisor : vn.getD (vn.length - 1) 0 * radix ^ (vn.length - 1) ≤ limbsValue vn := by
    rw [hvn.1.getD_last_eq]
    exact Nat.div_mul_le_self _ _
  refine le_min ?_ (Nat.le_sub_one_of_lt (Nat.div_lt_of_lt_mul ?_))
  · rw [hnum, Nat.div_div_eq_div_mul, mul_comm (radix ^ _)]
    exact Nat.div_le_div_left hdivisor (Nat.mul_pos hlead hpow)
  · rw [mul_comm]
    exact limbsValue_drop_lt hun htop

/-- One digit of the quotient is an estimate that is not too small, corrected (R134). -/
theorem divDigit_eq_corrected : ∃ q sm, limbsValue (un.drop j) / limbsValue vn ≤ q ∧
    sm = subMul q ((un.drop j).take (vn.length + 1)) vn 0 ∧
    divDigit vn j un = ((correct vn (q + 1) q sm.1 sm.2).1,
      un.take j ++ (correct vn (q + 1) q sm.1 sm.2).2 ++ un.drop (j + vn.length + 1)) :=
  ⟨_, _, le_estimate hvn hne hun htop, rfl, rfl⟩

/-- A digit step divides the running remainder from position `j` on by the divisor, and leaves what remains in its place. -/
theorem divDigit_eq (hj : j + vn.length < un.length) : ∃ rem, Limbs rem ∧ rem.length = vn.length + 1 ∧
    limbsValue rem = limbsValue (un.drop j) % limbsValue vn ∧
    divDigit vn j un = (limbsValue (un.drop j) / limbsValue vn, un.take j ++ rem ++ un.drop (j + vn.length + 1)) := by
  obtain ⟨q, sm, hq, hsm, hdigit⟩ := divDigit_eq_corrected hvn hne hun htop
  have hlimbs : Limbs ((un.drop j).take (vn.length + 1)) := (hun.drop j).take _
  have hlength : ((un.drop j).take (vn.length + 1)).length = vn.length + 1 := by
    rw [List.length_take, List.length_drop]
    omega
  have hsub := subMul_value (q := q) (vn := vn) hlimbs (by omega) 0
  have hsmLength := subMul_length q ((un.drop j).take (vn.length + 1)) vn 0
  have hsmLimbs := subMul_limbs (q := q) (vn := vn) hlimbs 0
  rw [← hsm] at hsub hsmLength hsmLimbs
  rw [hlength] at hsmLength
  rw [add_zero, limbsValue_segment hvn hun htop, hlength, ← hsmLength] at hsub
  obtain ⟨hfst, hfixed, hfixedLen, hrem⟩ := correct_spec hvn.1 (limbsValue_pos hvn hne) hsmLimbs
    (by omega) hsub hq (Nat.lt_succ_self q)
  exact ⟨_, hfixed, hfixedLen.trans hsmLength, hrem, hdigit.trans (by rw [hfst])⟩

/-- A digit step takes the digit times the divisor off the remainder, and leaves less than the divisor from position `j`
on. -/
theorem divDigit_spec (hj : j + vn.length < un.length) : ∃ next,
    divDigit vn j un = (limbsValue (un.drop j) / limbsValue vn, next) ∧ Limbs next ∧ next.length = un.length ∧
      limbsValue (next.drop j) < limbsValue vn ∧
      limbsValue next + limbsValue (un.drop j) / limbsValue vn * radix ^ j * limbsValue vn = limbsValue un := by
  obtain ⟨rem, hrem, hlen, hvalue, hdigit⟩ := divDigit_eq hvn hne hun htop hj
  have htake : (un.take j).length = j := List.length_take_of_le (by omega)
  have hsuffix : limbsValue (rem ++ un.drop (j + vn.length + 1)) = limbsValue (un.drop j) % limbsValue vn := by
    rw [limbsValue_append, limbsValue_drop_segment hvn hun htop, mul_zero, add_zero, hvalue]
  rw [List.append_assoc] at hdigit
  refine ⟨_, hdigit, ?_, ?_, ?_, ?_⟩
  · simp only [limbs_append_iff]
    exact ⟨hun.take j, hrem, hun.drop _⟩
  · simp only [List.length_append, htake, hlen, List.length_drop]
    omega
  · rw [List.drop_left' htake, hsuffix]
    exact Nat.mod_lt _ (limbsValue_pos hvn hne)
  · have hsplit := limbsValue_append (un.take j) (un.drop j)
    have hmod := Nat.mod_add_div (limbsValue (un.drop j)) (limbsValue vn)
    rw [List.take_append_drop, htake] at hsplit
    rw [limbsValue_append, hsuffix, htake, hsplit]
    linear_combination radix ^ j * hmod

end

/-! ## All digits -/

/-- The digits from position `k` down divide the running remainder, when they begin with less than the divisor above. -/
theorem divDigits_spec {vn : List Nat} (hvn : Normal vn) (hne : vn ≠ []) {k : Nat} {un q : List Nat} (hun : Limbs un)
    (hlen : k + vn.length ≤ un.length) (htop : limbsValue (un.drop k) < limbsValue vn) (hq : Limbs q) :
    Limbs (divDigits vn k un q).1 ∧
      limbsValue (divDigits vn k un q).1 = limbsValue un / limbsValue vn + radix ^ k * limbsValue q ∧
      Limbs (divDigits vn k un q).2 ∧ limbsValue (divDigits vn k un q).2 = limbsValue un % limbsValue vn := by
  induction k generalizing un q with
  | zero =>
    rw [List.drop_zero] at htop
    rw [divDigits, Nat.div_eq_of_lt htop, Nat.mod_eq_of_lt htop, pow_zero, one_mul, zero_add]
    exact ⟨hq, rfl, hun, rfl⟩
  | succ j ih =>
    obtain ⟨next, hdigit, hnext, hnextLen, hnextTop, hvalue⟩ := divDigit_spec hvn hne hun htop (by omega)
    have hlimb : limbsValue (un.drop j) / limbsValue vn < radix :=
      Nat.div_lt_of_lt_mul (by rw [mul_comm]; exact limbsValue_drop_lt hun htop)
    obtain ⟨hql, hqv, hrl, hrv⟩ := ih hnext (by omega) hnextTop (limbs_cons_iff.2 ⟨hlimb, hq⟩)
    rw [divDigits, hdigit]
    refine ⟨hql, hqv.trans ?_, hrl, hrv.trans ?_⟩
    · rw [← hvalue, Nat.add_mul_div_right _ _ (limbsValue_pos hvn hne), limbsValue_cons, pow_succ]
      ring
    · rw [← hvalue, Nat.add_mul_mod_self_right]

/-! ## The divider on magnitudes -/

/-- The normalizing shift does not lengthen the divisor (R134). -/
theorem limbsOf_normalized_length {a : List Nat} (h : Normal a) (hne : a ≠ []) :
    (limbsOf (limbsValue a * 2 ^ (Config.limbBits - bitlen (a.getD (a.length - 1) 0)))).length = a.length := by
  have hlen := List.length_pos_of_ne_nil hne
  have hlead : bitlen (a.getD (a.length - 1) 0) ≤ Config.limbBits := bitlen_le_iff.2 (h.1.getD_lt _)
  have hbits := limbsBitlen_limbsOf (limbsValue a)
  rw [limbsOf_limbsValue h, limbsBitlen, if_neg hne] at hbits
  rw [limbsOf, lowLimbs_length, bitlen_shift (limbsValue_pos h hne).ne', ← hbits]
  simp only [Config.limbBits] at *
  omega

/-- A magnitude padded with zero limbs to `k` limbs. -/
theorem limbsOf_padded {m k : Nat} (h : m < radix ^ k) :
    Limbs (limbsOf m ++ List.replicate (k - (limbsOf m).length) 0) ∧
      limbsValue (limbsOf m ++ List.replicate (k - (limbsOf m).length) 0) = m ∧
      (limbsOf m ++ List.replicate (k - (limbsOf m).length) 0).length = k := by
  refine ⟨limbs_append_iff.2 ⟨(normal_limbsOf m).1, limbs_replicate_zero _⟩, ?_, ?_⟩
  · rw [limbsValue_append, limbsValue_replicate_zero, limbsValue_limbsOf, mul_zero, add_zero]
  · rw [List.length_append, List.length_replicate, Nat.add_sub_cancel' (limbsOf_length_le_iff.2 h)]

/-- The long division of a dividend that is no smaller than the divisor (R134): both are shifted alike, which keeps the
quotient, and the remainder is shifted back. -/
theorem magDivrem_of_le {u v : List Nat} (hu : Normal u) (hv : Normal v) (hne : v ≠ []) (hlen : v.length ≤ u.length)
    (hcmp : ¬ magCmp u v < 0) :
    magDivrem u v = (limbsOf (limbsValue u / limbsValue v), limbsOf (limbsValue u % limbsValue v)) := by
  have hvnLen := limbsOf_normalized_length hv hne
  have hvlen := List.length_pos_of_ne_nil hne
  rw [magDivrem, if_neg hcmp]
  simp only [magShl_eq hu, magShl_eq hv]
  have hs : Config.limbBits - bitlen (v.getD (v.length - 1) 0) ≤ Config.limbBits := Nat.sub_le _ _
  generalize Config.limbBits - bitlen (v.getD (v.length - 1) 0) = s at hs hvnLen ⊢
  have hpos := Nat.two_pow_pos s
  have hvn : limbsOf (limbsValue v * 2 ^ s) ≠ [] := List.ne_nil_of_length_pos (hvnLen ▸ hvlen)
  have hun : limbsValue u * 2 ^ s < radix ^ (u.length + 1) := by
    rw [pow_succ]
    exact Nat.mul_lt_mul_of_lt_of_le hu.1.value_lt (Nat.pow_le_pow_right two_pos hs) radix_pos
  obtain ⟨hunLimbs, hunValue, hunLen⟩ := limbsOf_padded hun
  generalize limbsOf (limbsValue u * 2 ^ s) ++ _ = un at hunLimbs hunValue hunLen ⊢
  have htop : limbsValue (un.drop (u.length - v.length + 1)) < limbsValue (limbsOf (limbsValue v * 2 ^ s)) := by
    rw [limbsValue_drop hunLimbs, hunValue, limbsValue_limbsOf]
    refine Nat.div_lt_of_lt_mul ?_
    rw [← mul_assoc]
    refine Nat.mul_lt_mul_of_pos_right (hu.1.value_lt.trans_le ?_) hpos
    calc radix ^ u.length = radix ^ (u.length - v.length + 1) * radix ^ (v.length - 1) := by
          rw [← pow_add]; congr 1; omega
      _ ≤ radix ^ (u.length - v.length + 1) * limbsValue v := Nat.mul_le_mul_left _ (hv.pow_length_le hne)
  obtain ⟨hql, hqv, hrl, hrv⟩ := divDigits_spec (normal_limbsOf _) hvn hunLimbs (by omega) htop limbs_nil
  rw [hunValue, limbsValue_limbsOf, Nat.mul_div_mul_right _ _ hpos, limbsValue_nil, mul_zero, add_zero] at hqv
  rw [hunValue, limbsValue_limbsOf, Nat.mul_mod_mul_right] at hrv
  have hfits : limbsValue u % limbsValue v * 2 ^ s < radix ^ v.length := by
    refine (Nat.mul_lt_mul_of_pos_right (Nat.mod_lt _ (limbsValue_pos hv hne)) hpos).trans ?_
    rw [← limbsOf_length_le_iff, hvnLen]
  rw [trim_eq_limbsOf hql, hqv, trim_eq_limbsOf (hrl.take _), limbsValue_take hrl, hrv, Nat.mod_eq_of_lt hfits,
    magShr_eq (normal_limbsOf _).1, limbsValue_limbsOf, Nat.mul_div_cancel _ hpos]

/-- `mag_divrem` divides magnitudes (R134). -/
theorem magDivrem_eq {u v : List Nat} (hu : Normal u) (hv : Normal v) (hne : v ≠ []) :
    magDivrem u v = (limbsOf (limbsValue u / limbsValue v), limbsOf (limbsValue u % limbsValue v)) := by
  have hcmp : magCmp u v < 0 ↔ limbsValue u < limbsValue v := by
    rw [← limbsOf_limbsValue hu, ← limbsOf_limbsValue hv, magCmp_limbsOf, Int.sign_neg_iff, limbsValue_limbsOf,
      limbsValue_limbsOf]
    omega
  rcases lt_or_ge (limbsValue u) (limbsValue v) with hlt | hle
  · rw [magDivrem, if_pos (hcmp.2 hlt), Nat.div_eq_of_lt hlt, Nat.mod_eq_of_lt hlt, limbsOf_limbsValue hu]
    rfl
  · refine magDivrem_of_le hu hv hne ?_ fun h => (hcmp.1 h).not_ge hle
    rw [← limbsOf_limbsValue hv, limbsOf_length_le_iff]
    exact hle.trans_lt hu.1.value_lt

/-! ## Signs (R133) -/

/-- A quotient other than 0 is negative when the signs of the operands differ (R133). -/
theorem decide_tdiv_neg (v w : Int) (h : v.natAbs / w.natAbs ≠ 0) :
    decide (v.tdiv w < 0) = xor (decide (v < 0)) (decide (w < 0)) := by
  obtain ⟨hw, hle⟩ := Nat.div_ne_zero_iff.1 h
  rw [xor_neg_eq (by omega) (by omega), decide_eq_decide, ← Int.sign_neg_iff, Int.sign_tdiv, if_neg hle.not_gt,
    ← Int.sign_mul, Int.sign_neg_iff]

/-- A remainder other than 0 has the sign of the dividend (R133). -/
theorem decide_tmod_neg (v w : Int) (h : v.natAbs % w.natAbs ≠ 0) : decide (v.tmod w < 0) = decide (v < 0) := by
  have hdvd : ¬ w ∣ v := fun hdvd => h (Nat.mod_eq_zero_of_dvd (Int.natAbs_dvd_natAbs.2 hdvd))
  rw [decide_eq_decide, ← Int.sign_neg_iff, Int.sign_tmod, if_neg hdvd, Int.sign_neg_iff]

/-- `tquo` and `trem` on sign flags and limbs (R133). -/
theorem signedDivrem_of (v : Int) {w : Int} (hw : w ≠ 0) :
    signedDivrem (.of v) (.of w) = (.of (v.tdiv w), .of (v.tmod w)) := by
  have hne : limbsOf w.natAbs ≠ [] := fun h => hw (Int.natAbs_eq_zero.1 (limbsOf_eq_nil_iff.1 h))
  simp only [signedDivrem, SignedLimbs.of, magDivrem_eq (normal_limbsOf _) (normal_limbsOf _) hne, limbsValue_limbsOf,
    limbsOf_eq_nil_iff]
  refine Prod.ext (SignedLimbs.mk_eq_of (Int.natAbs_tdiv v w) ?_) (SignedLimbs.mk_eq_of (Int.natAbs_tmod v w) ?_)
  · split_ifs with hzero
    · rw [show v.tdiv w = 0 from Int.natAbs_eq_zero.1 ((Int.natAbs_tdiv v w).trans hzero)]
      rfl
    · exact (decide_tdiv_neg v w hzero).symm
  · split_ifs with hzero
    · rw [show v.tmod w = 0 from Int.natAbs_eq_zero.1 ((Int.natAbs_tmod v w).trans hzero)]
      rfl
    · exact (decide_tmod_neg v w hzero).symm

/-- Settles O57: a normal operand is the sign and limbs of its value (`SignedLimbs.Normal.of_value`). -/
theorem limbDivider : Obligations.LimbDivider := by
  intro x y hx hy hne
  have hvalue : y.value ≠ 0 := by
    rw [← Int.natAbs_ne_zero, SignedLimbs.natAbs_value]
    exact (limbsValue_pos hy.1 hne).ne'
  conv_lhs => rw [← hx.of_value, ← hy.of_value, signedDivrem_of _ hvalue]

end Sys2Proof.Machine.Datapath
end

section
/-! PROOFS. The binary inverter (41_mpi_arith.md R137). -/

namespace Sys2Proof.Machine.Datapath

/-! ## Halving -/

section

variable {n a0 : Int} (hpar : ¬ (2 ∣ a0 ∧ 2 ∣ n))
include hpar

/-- When the combination is even and a cofactor is not, `a0` and `-n` make both even (R137): not both operands are even. -/
theorem cofactors_even {A B : Int} (heven : 2 ∣ A * n + B * a0) (hodd : A % 2 ≠ 0 ∨ B % 2 ≠ 0) :
    2 ∣ A + a0 ∧ 2 ∣ B - n := by
  simp only [← even_iff_two_dvd, ← Int.even_iff, Ne, Int.even_add, Int.even_sub, Int.even_mul] at *
  tauto

/-- One halving keeps the combination (R137). -/
theorem halve_even {u : Nat} {A B : Int} (heven : u % 2 = 0) (hrow : A * n + B * a0 = u) (fuel : Nat) :
    ∃ A' B' : Int, halve n a0 (fuel + 1) u A B = halve n a0 fuel (u / 2) A' B' ∧ A' * n + B' * a0 = (u / 2 : Nat) := by
  have hsum : 2 ∣ A * n + B * a0 := by omega
  rw [halve, if_neg (not_not.2 heven)]
  split_ifs with hcof
  · obtain ⟨⟨x, hx⟩, y, hy⟩ := cofactors_even hpar hsum hcof
    have hdouble : 2 * (x * n + y * a0) = u := by linear_combination hrow - n * hx - a0 * hy
    refine ⟨_, _, rfl, ?_⟩
    rw [hx, hy, Int.mul_ediv_cancel_left _ two_ne_zero, Int.mul_ediv_cancel_left _ two_ne_zero]
    omega
  · obtain ⟨⟨x, rfl⟩, y, rfl⟩ : 2 ∣ A ∧ 2 ∣ B := by omega
    have hdouble : 2 * (x * n + y * a0) = u := by linear_combination hrow
    refine ⟨_, _, rfl, ?_⟩
    rw [Int.mul_ediv_cancel_left _ two_ne_zero, Int.mul_ediv_cancel_left _ two_ne_zero]
    omega

/-- What the halving loop of `u = A*n + B*a0` leaves: the odd part of `u`, with its cofactors (R137). -/
theorem halve_spec {fuel u : Nat} {A B : Int} (hu : u ≠ 0) (hfuel : u < 2 ^ fuel) (hrow : A * n + B * a0 = u) :
    ∃ u' : Nat, ∃ A' B' : Int, halve n a0 fuel u A B = (u', A', B') ∧ A' * n + B' * a0 = u' ∧ u' % 2 = 1 ∧
      ∃ k, u = 2 ^ k * u' := by
  induction fuel generalizing u A B with
  | zero => omega
  | succ fuel ih =>
    rcases Nat.mod_two_eq_zero_or_one u with heven | hodd
    · obtain ⟨A₁, B₁, hstep, hrow₁⟩ := halve_even hpar heven hrow fuel
      obtain ⟨u', A', B', hloop, hrow', hodd', k, hk⟩ := ih (u := u / 2) (by omega) (by omega) hrow₁
      refine ⟨u', A', B', hstep.trans hloop, hrow', hodd', k + 1, ?_⟩
      rw [pow_succ', mul_assoc, ← hk]
      omega
    · exact ⟨u, A, B, if_pos (by omega), hrow, hodd, 0, by simp⟩

end

/-! ## Passes -/

/-- What a pass of the inverter keeps (R137): both rows are combinations of `n` and `a0`, and their gcd is that of `n` and
`a0`. -/
structure Rows (n a0 u : Nat) (A B : Int) (v : Nat) (C D : Int) : Prop where
  rowU : A * n + B * a0 = u
  rowV : C * n + D * a0 = v
  gcd  : Nat.gcd u v = Nat.gcd n a0
  pos  : 0 < v
  odd  : ¬ (2 ∣ u ∧ 2 ∣ v)

/-- Powers of two do not count in a gcd with an odd number. -/
theorem gcd_two_pow_mul {v : Nat} (h : v % 2 = 1) (k u : Nat) : Nat.gcd (2 ^ k * u) v = Nat.gcd u v :=
  Nat.Coprime.gcd_mul_left_cancel u (Nat.Coprime.pow_left k (Nat.coprime_two_left.2 (Nat.odd_iff.2 h)))

/-- The gcd of two numbers that are not both even is that of their odd parts. -/
theorem gcd_odd_parts {i j u v : Nat} (hu : u % 2 = 1) (hv : v % 2 = 1) (h : ¬ (2 ∣ 2 ^ i * u ∧ 2 ∣ 2 ^ j * v)) :
    Nat.gcd (2 ^ i * u) (2 ^ j * v) = Nat.gcd u v := by
  cases i with
  | zero => rw [pow_zero, one_mul, Nat.gcd_comm, gcd_two_pow_mul hu, Nat.gcd_comm]
  | succ i =>
    cases j with
    | zero => rw [pow_zero, one_mul, gcd_two_pow_mul hv]
    | succ j => exact absurd ⟨(dvd_pow_self 2 i.succ_ne_zero).mul_right u, (dvd_pow_self 2 j.succ_ne_zero).mul_right v⟩ h

section

variable {n a0 u v : Nat} {A B C D : Int} (hpar : ¬ (2 ∣ a0 ∧ 2 ∣ n)) (h : Rows n a0 u A B v C D)
include h

/-- The larger row less the smaller: the difference of odd numbers is even. -/
theorem Rows.sub (hv : v % 2 = 1) (hle : v ≤ u) : Rows n a0 (u - v) (A - C) (B - D) v C D where
  rowU := by
    rw [Nat.cast_sub hle, ← h.rowU, ← h.rowV]
    ring
  rowV := h.rowV
  gcd := (Nat.gcd_sub_self_left hle).trans h.gcd
  pos := h.pos
  odd := by omega

/-- The two rows enter alike. -/
theorem Rows.swap (hu : 0 < u) : Rows n a0 v C D u A B where
  rowU := h.rowV
  rowV := h.rowU
  gcd := by rw [Nat.gcd_comm, h.gcd]
  pos := hu
  odd := fun ⟨hv, hu⟩ => h.odd ⟨hu, hv⟩

include hpar

/-- Halving keeps the rows, and leaves both odd. -/
theorem Rows.halve (hu : u ≠ 0) : ∃ u' : Nat, ∃ A' B' : Int, ∃ v' : Nat, ∃ C' D' : Int,
    halve n a0 (bitlen u) u A B = (u', A', B') ∧ halve n a0 (bitlen v) v C D = (v', C', D') ∧
      Rows n a0 u' A' B' v' C' D' ∧ u' % 2 = 1 ∧ v' % 2 = 1 ∧ ∃ k, u * v = 2 ^ k * (u' * v') := by
  have hpar' : ¬ ((2 : Int) ∣ a0 ∧ (2 : Int) ∣ n) := by exact_mod_cast hpar
  obtain ⟨u', A', B', hloopU, hrowU, hoddU, i, rfl⟩ := halve_spec hpar' hu (lt_two_pow_bitlen u) h.rowU
  obtain ⟨v', C', D', hloopV, hrowV, hoddV, j, rfl⟩ := halve_spec hpar' h.pos.ne' (lt_two_pow_bitlen v) h.rowV
  refine ⟨u', A', B', v', C', D', hloopU, hloopV, ⟨hrowU, hrowV, ?_, by omega, by omega⟩, hoddU, hoddV, i + j, by ring⟩
  rw [← h.gcd, gcd_odd_parts hoddU hoddV h.odd]

end

/-! ## The loop -/

/-- The loop ends as soon as `u` is 0. -/
theorem inverterLoop_zero (n a0 fuel : Nat) (A B : Int) (v : Nat) (C D : Int) :
    inverterLoop n a0 fuel 0 A B v C D = (v, D) := by
  cases fuel <;> rfl

/-- The passes end before the fuel does: from the second on each halves `u * v`, since one of `u` and `v` is even. -/
def FuelFor (fuel u v : Nat) : Prop := 2 * (u * v) < 2 ^ fuel ∨ 2 ∣ u * v ∧ u * v < 2 ^ fuel

/-- Two numbers that are not both odd have odd parts of half their product at most. -/
theorem FuelFor.odd_parts {fuel u v u' v' k : Nat} (h : FuelFor (fuel + 1) u v) (hu : u' % 2 = 1) (hv : v' % 2 = 1)
    (hk : u * v = 2 ^ k * (u' * v')) : u' * v' < 2 ^ fuel := by
  have hodd : u' * v' % 2 = 1 := by rw [Nat.mul_mod, hu, hv]
  rw [FuelFor, hk, pow_succ'] at h
  cases k with
  | zero => omega
  | succ k =>
    have := Nat.le_mul_of_pos_left (u' * v') (Nat.two_pow_pos k)
    rw [pow_succ', mul_assoc] at h
    omega

/-- After a subtraction of odd numbers the fuel is enough: their difference is even. -/
theorem FuelFor.of_sub {fuel u v : Nat} (hu : u % 2 = 1) (hv : v % 2 = 1) (hlt : u * v < 2 ^ fuel) :
    FuelFor fuel (u - v) v :=
  .inr ⟨Dvd.dvd.mul_right (by omega) v, (Nat.mul_le_mul_right v (Nat.sub_le u v)).trans_lt hlt⟩

/-- The two numbers enter alike. -/
theorem FuelFor.swap {fuel u v : Nat} (h : FuelFor fuel u v) : FuelFor fuel v u := by
  rwa [FuelFor, mul_comm v]

/-- With `u = 0` the other row is that of the gcd (R137). -/
theorem Rows.ended {n a0 v : Nat} {A B C D : Int} (h : Rows n a0 0 A B v C D) (fuel : Nat) :
    ∃ C' D' : Int, inverterLoop n a0 fuel 0 A B v C D = (Nat.gcd n a0, D') ∧ C' * n + D' * a0 = Nat.gcd n a0 := by
  have hgcd := h.gcd
  rw [Nat.gcd_zero_left] at hgcd
  rw [inverterLoop_zero, ← hgcd]
  exact ⟨C, D, rfl, h.rowV⟩

/-- The loop ends at the gcd, and leaves a cofactor of `a0` for it (R137). -/
theorem inverterLoop_spec {n a0 : Nat} (hpar : ¬ (2 ∣ a0 ∧ 2 ∣ n)) {fuel u v : Nat} {A B C D : Int}
    (h : Rows n a0 u A B v C D) (hfuel : FuelFor fuel u v) :
    ∃ C' D' : Int, inverterLoop n a0 fuel u A B v C D = (Nat.gcd n a0, D') ∧ C' * n + D' * a0 = Nat.gcd n a0 := by
  induction fuel generalizing u v A B C D with
  | zero =>
    obtain rfl : u = 0 := by
      have hprod : u * v = 0 := by rcases hfuel with hf | ⟨-, hf⟩ <;> omega
      exact (Nat.mul_eq_zero.1 hprod).resolve_right h.pos.ne'
    exact h.ended 0
  | succ fuel ih =>
    by_cases hu : u = 0
    · subst hu
      exact h.ended (fuel + 1)
    · obtain ⟨u', A', B', v', C', D', hloopU, hloopV, hrows, hoddU, hoddV, k, hk⟩ := h.halve hpar hu
      have hlt := hfuel.odd_parts hoddU hoddV hk
      rw [inverterLoop, if_neg hu]
      simp only [hloopU, hloopV]
      split_ifs with hle
      · exact ih (hrows.sub hoddV hle) (.of_sub hoddU hoddV hlt)
      · have hle : u' ≤ v' := (not_le.1 hle).le
        exact ih (((hrows.swap (by omega)).sub hoddU hle).swap (by omega))
          ((FuelFor.of_sub hoddV hoddU (by rwa [mul_comm])).swap)

/-- The rows that the inverter begins with. -/
theorem Rows.initial {n a0 : Nat} (hlow : 1 ≤ a0) (hpar : ¬ (2 ∣ a0 ∧ 2 ∣ n)) : Rows n a0 n 1 0 a0 0 1 where
  rowU := by ring
  rowV := by ring
  gcd := rfl
  pos := hlow
  odd := fun ⟨hn, ha⟩ => hpar ⟨ha, hn⟩

/-- The fuel of the inverter is enough. -/
theorem FuelFor.initial (n a0 : Nat) : FuelFor (bitlen n + bitlen a0 + 2) n a0 := by
  have hlt := Nat.mul_lt_mul'' (lt_two_pow_bitlen n) (lt_two_pow_bitlen a0)
  rw [← pow_add] at hlt
  rw [FuelFor, pow_add 2 _ 2]
  omega

/-- A cofactor of `a0` for the gcd 1, reduced modulo `n`, is an inverse (R137). -/
theorem mul_toNat_emod_eq_one {n a0 : Nat} {C D : Int} (hn : 1 < n) (h : C * n + D * a0 = 1) :
    a0 * (D % n).toNat % n = 1 := by
  have hnonneg : 0 ≤ D % n := Int.emod_nonneg D (by omega)
  have hmod : (a0 * (D % n).toNat : Int) ≡ 1 [ZMOD n] := by
    rw [Int.toNat_of_nonneg hnonneg]
    calc (a0 : Int) * (D % n) ≡ a0 * D [ZMOD n] := (Int.mod_modEq D n).mul_left _
      _ ≡ a0 * D + n * C [ZMOD n] := Int.modEq_add_fac_self.symm
      _ = 1 := by rw [← h]; ring
  have hnat : a0 * (D % n).toNat ≡ 1 [MOD n] := by
    rw [← Int.natCast_modEq_iff]
    exact_mod_cast hmod
  rw [hnat, Nat.mod_eq_of_lt hn]

/-- Settles O58: the loop ends at the gcd with a cofactor of `a0` (`inverterLoop_spec`), within its fuel
(`FuelFor.initial`). -/
theorem binaryInverter : Obligations.BinaryInverter := by
  intro a0 n hlow hhigh hpar
  obtain ⟨C, D, hloop, hrow⟩ := inverterLoop_spec hpar (Rows.initial hlow hpar) (FuelFor.initial n a0)
  rw [Nat.gcd_comm] at hloop hrow
  refine ⟨fun hcop => ⟨(D % n).toNat, ?_, ?_, ?_⟩, fun hcop => ?_⟩
  · have := Int.emod_lt_of_pos D (b := n) (by omega)
    omega
  · rw [hcop.gcd_eq_one] at hrow
    exact mul_toNat_emod_eq_one (by omega) hrow
  · simp only [binaryInverse, hloop]
    rw [if_neg (not_not.2 hcop)]
  · simp only [binaryInverse, hloop]
    rw [if_pos hcop]

end Sys2Proof.Machine.Datapath
end

section
/-! PROOFS. The integer queries (42_mpi_query.md R160 to R163). -/

namespace Sys2Proof.Machine

open Sys2Proof.Safety

/-- A command whose pseudocode is one `RES <- v` answers the value. -/
theorem execAt_answered {c : Config.Params} {i : Instr} {s : State} {v : Word} (hi : i ≠ .clrerr)
    (hf : s.inFault = false) (h : body i c s.countCommand = .ok (s.countCommand.writeRes v)) :
    execAt c i s = answered v s := by
  rw [execAt_eq_runCommand c hi, run_writeRes hf h]

/-- A boolean answer, as the rules write it. -/
theorem boolRes_decide (q : Prop) [Decidable q] : boolRes (decide q) = if q then 1 else 0 := by
  simp only [boolRes, decide_eq_true_eq]

/-- The answer of `TESTBIT` is the binary digit (R162). -/
theorem boolRes_testBit (m n : Nat) : boolRes (m.testBit n) = BitVec.ofNat 32 (m / 2 ^ n % 2) := by
  rw [Nat.testBit_eq_decide_div_mod_eq, boolRes_decide]
  rcases Nat.mod_two_eq_zero_or_one (m / 2 ^ n) with h | h <;> rw [h] <;> rfl

/-- Settles O29: each query is one write of `RES` (`execAt_answered`); the bit length is the least exponent
(`bitlen_le_iff`). -/
theorem integerQueries : Obligations.IntegerQueries := by
  refine ofEvery fun c s hf => ⟨fun ma mb => ?_, fun ma => ?_, fun ma n => ?_,
    fun ma => ⟨bitlen (s.readM ma).natAbs, lt_two_pow_bitlen _, fun j hj => bitlen_le_iff.2 hj, ?_⟩⟩
  · exact execAt_answered (by simp) hf rfl
  · simp only [Int.dvd_iff_emod_eq_zero]
    rw [← boolRes_decide]
    exact execAt_answered (by simp) hf rfl
  · rw [← boolRes_testBit]
    exact execAt_answered (by simp) hf rfl
  · exact execAt_answered (by simp) hf rfl

end Sys2Proof.Machine
end

section
/-! PROOFS. Integers and byte lists (43_mpi_convert.md R170 to R174). -/

namespace Sys2Proof.Machine

open Sys2Proof.Safety

/-! ## Commands with a buffer operand -/

/-- A command that reads an operand inside `BUF` first goes on with its bytes (20_memory.md R66). -/
theorem inputBytes_bind_inBuf {α : Type} {c : Config.Params} {arg : BufArg} (h : InBuf c arg) (s : State)
    (f : List Byte → Except Raise α) : (inputBytes arg c s.countCommand >>= f) = f (bytesAt s arg) := by
  rw [inputBytes_inBuf h]
  rfl

/-- A command that reads an operand outside `BUF` first fails with `BufferRangeError(1)` (20_memory.md R66). -/
theorem inputBytes_bind_outside {α : Type} {c : Config.Params} {arg : BufArg} (h : ¬ InBuf c arg) (e : Engine)
    (f : List Byte → Except Raise α) : (inputBytes arg c e >>= f) = raise .bufferRange 1 := by
  rw [inputBytes_outside h]
  rfl

/-- A command whose pseudocode is one output writes it, or is one of the two range errors. -/
theorem execAt_wrote {c : Config.Params} {i : Instr} {s : State} {arg : BufArg} {out : List Byte} (hi : i ≠ .clrerr)
    (hf : s.inFault = false) (h : body i c s.countCommand = outputBytes arg out c s.countCommand) :
    Wrote c arg out s (execAt c i s) := by
  rw [execAt_eq_runCommand c hi]
  exact run_output hf h

/-- A command with output that did not fail left the length of the output in `RES`, and that many bytes from the operand's
address on are inside `BUF` and are the output (20_memory.md R67). -/
theorem bytesAt_of_wrote {c : Config.Params} {arg : BufArg} {out : List Byte} {s t : State}
    (h : Wrote c arg out s (.next t)) (hf : t.inFault = false) :
    InBuf c ⟨arg.addr, BitVec.ofNat 16 t.res.toNat⟩ ∧ bytesAt t ⟨arg.addr, BitVec.ofNat 16 t.res.toNat⟩ = out := by
  have hread := fun k (hk : k < out.length) => (readByte_of_wrote h hf hk).2
  unfold Wrote at h
  split_ifs at h with hroom hin
  · simp [inFault_of_failed h] at hf
  · simp [inFault_of_failed h] at hf
  · obtain ⟨buf, ht, -⟩ := h
    have hlen : (BitVec.ofNat 16 t.res.toNat).toNat = out.length := by
      have := arg.len.isLt
      cases ht
      simp only [BitVec.toNat_ofNat]
      omega
    refine ⟨by simp only [InBuf, hlen]; omega, ?_⟩
    rw [bytesAt, hlen]
    refine List.ext_getElem (by simp) fun k hk hk' => ?_
    rw [List.getElem_map, List.getElem_range, hread k hk', List.getD_eq_getElem _ _ hk']

/-- A register write that did not fail left the value in the register. -/
theorem readM_of_storedOrFull {c : Config.Params} {md : MReg} {v : Int} {s t : State}
    (h : storedOrFull c md v s = .next t) (hf : t.inFault = false) : t.readM md = v := by
  unfold storedOrFull at h
  split_ifs at h
  · cases h
    exact Engine.readM_setM_same s.toEngine md v
  · simp [inFault_of_failed h.symm] at hf

/-! ## The four commands -/

section
variable {s : State} (hf : s.inFault = false) (c : Config.Params)
include hf

theorem execAt_frombu {arg : BufArg} (h : InBuf c arg) (md : MReg) :
    execAt c (.frombu md arg) s = storedOrFull c md (beValue (bytesAt s arg)) s :=
  execAt_storedOrFull (by simp) hf (inputBytes_bind_inBuf h s _)

theorem execAt_frombs {arg : BufArg} (h : InBuf c arg) (md : MReg) :
    execAt c (.frombs md arg) s = storedOrFull c md (signedValue (bytesAt s arg)) s :=
  execAt_storedOrFull (by simp) hf (inputBytes_bind_inBuf h s _)

theorem execAt_frombu_outside {arg : BufArg} (h : ¬ InBuf c arg) (md : MReg) :
    execAt c (.frombu md arg) s = failed 7 1 s :=
  execAt_failed (k := .bufferRange) (by simp) hf (inputBytes_bind_outside h _ _)

theorem execAt_frombs_outside {arg : BufArg} (h : ¬ InBuf c arg) (md : MReg) :
    execAt c (.frombs md arg) s = failed 7 1 s :=
  execAt_failed (k := .bufferRange) (by simp) hf (inputBytes_bind_outside h _ _)

theorem execAt_tobu (ma : MReg) (arg : BufArg) :
    Wrote c arg (unsignedBytes (s.readM ma).natAbs) s (execAt c (.tobu ma arg) s) :=
  execAt_wrote (by simp) hf rfl

theorem execAt_tobs (ma : MReg) (arg : BufArg) : Wrote c arg (signedBytes (s.readM ma)) s (execAt c (.tobs ma arg) s) :=
  execAt_wrote (by simp) hf rfl

end

/-! ## Reading -/

theorem beSum_eq_beValue (bs : List Byte) : beSum bs = beValue bs := (beValue_eq_sum bs).symm

/-- The low seven bits of a byte. -/
theorem ofNat_mod_128 (b : Byte) : BitVec.ofNat 8 (b.toNat % 128) = b &&& 0x7F := by revert b; decide

/-- Bit 7 of the first byte is the sign, and a byte without it is its own low seven bits (R173). -/
theorem signedValue_cons (b : Byte) (bs : List Byte) : signedValue (b :: bs) =
    if b.toNat < 0x80 then (beSum (b :: bs) : Int) else -((beSum ((b &&& 0x7F) :: bs) : Nat) : Int) := by
  rw [beSum_eq_beValue, beSum_eq_beValue, ← ofNat_mod_128, signedValue]
  split_ifs with hneg hlow hlow
  · omega
  · rfl
  · rw [Nat.mod_eq_of_lt hlow, BitVec.ofNat_toNat, BitVec.setWidth_eq]
  · omega

/-- Settles O30: the two commands write the value of the bytes (`execAt_frombu`, `execAt_frombs`), or the operand is outside
`BUF`. -/
theorem readIntegers : Obligations.ReadIntegers := by
  refine ofEvery fun c s md arg hf => ⟨fun h => ⟨execAt_frombu_outside hf c h md, execAt_frombs_outside hf c h md⟩,
    fun h => ⟨?_, fun hlen => ?_, fun b bs hbytes => ?_⟩⟩
  · rw [beSum_eq_beValue]
    exact execAt_frombu hf c h md
  · have hnil : bytesAt s arg = [] := by rw [bytesAt, hlen]; rfl
    rw [execAt_frombs hf c h, hnil]
    exact storedOrFull_fits (fits_of_lt_two_pow_256 c (by norm_num [signedValue]))
  · rw [execAt_frombs hf c h, hbytes, signedValue_cons]

/-! ## Writing -/

theorem unsignedBytes_head?_ne_zero (m : Nat) : (unsignedBytes m).head? ≠ some 0 := by
  intro h
  obtain ⟨bs, hbs⟩ := List.head?_eq_some_iff.1 h
  exact unsignedBytes_head hbs rfl

theorem signedBytes_zero : signedBytes 0 = [] := rfl

/-- The bytes of the magnitude under a sign, where there are any (R172). -/
theorem signedBytes_of_cons {v : Int} {b : Byte} {bs : List Byte} (h : unsignedBytes v.natAbs = b :: bs) :
    signedBytes v = if 0 ≤ v then (if b.toNat < 0x80 then b :: bs else 0x00 :: b :: bs)
      else (if b.toNat < 0x80 then (b + 0x80) :: bs else 0x80 :: b :: bs) := by
  rw [signedBytes, h]

/-- Settles O31: the bytes of the magnitude are `unsignedBytes`, and the sign and the top bit choose among the four forms of
`signedBytes_of_cons`. -/
theorem writeIntegers : Obligations.WriteIntegers := by
  refine ofEvery fun c s ma arg hf => ⟨unsignedBytes (s.readM ma).natAbs, ?_, unsignedBytes_head?_ne_zero _,
    execAt_tobu hf c ma arg, fun h0 => ?_, fun b bs hu => ?_⟩
  · rw [beSum_eq_beValue, beValue_unsignedBytes]
  · have hout := execAt_tobs hf c ma arg
    rwa [h0, signedBytes_zero] at hout
  · have hout := execAt_tobs hf c ma arg
    rw [signedBytes_of_cons hu] at hout
    refine ⟨fun hv hb => ?_, fun hv hb => ?_, fun hv hb => ?_, fun hv hb => ?_⟩
    · rwa [if_pos hv.le, if_pos hb] at hout
    · rwa [if_pos hv.le, if_neg hb.not_gt] at hout
    · rwa [if_neg hv.not_ge, if_pos hb] at hout
    · rwa [if_neg hv.not_ge, if_neg hb.not_gt] at hout

/-! ## Round trips -/

/-- Leading zero bytes do not change the value. -/
theorem beValue_dropWhile_zero (bs : List Byte) : beValue (bs.dropWhile (fun b => b == 0)) = beValue bs := by
  induction bs with
  | nil => rfl
  | cons b bs ih =>
    by_cases hb : b = 0
    · subst hb
      rw [List.dropWhile_cons_of_pos (by rfl), ih, beValue_cons]
      simp
    · rw [List.dropWhile_cons_of_neg (by simpa using hb)]

/-- The bytes of the value of a byte list are that list without its leading zero bytes (R174). -/
theorem unsignedBytes_beValue (bs : List Byte) : unsignedBytes (beValue bs) = bs.dropWhile (fun b => b == 0) := by
  refine unsignedBytes_unique (beValue_dropWhile_zero bs) fun b hb => ?_
  have hhead := List.head?_dropWhile_not (fun b : Byte => b == 0) bs
  rw [Option.mem_def.1 hb] at hhead
  simpa using hhead

/-- Settles O35: what a command wrote is what the other reads (`bytesAt_of_wrote`), and a register holds what was stored
(`readM_of_storedOrFull`). -/
theorem integerRoundTrips : Obligations.IntegerRoundTrips := by
  refine ofEvery fun c s hf => ⟨fun ma md arg t hfits ht hft => ?_, fun ma md arg t hfits ht hft => ?_,
    fun md arg out t ht hft => ?_⟩
  · obtain ⟨hin, hbytes⟩ := bytesAt_of_wrote (ht ▸ execAt_tobu hf c ma arg) hft
    rw [execAt_frombu hft c hin, hbytes, beValue_unsignedBytes]
    exact storedOrFull_fits hfits
  · obtain ⟨hin, hbytes⟩ := bytesAt_of_wrote (ht ▸ execAt_tobs hf c ma arg) hft
    rw [execAt_frombs hft c hin, hbytes, signedValue_signedBytes]
    exact storedOrFull_fits hfits
  · by_cases hin : InBuf c arg
    · rw [execAt_frombu hf c hin] at ht
      have hout := execAt_tobu hft c md out
      rwa [readM_of_storedOrFull ht hft, Int.natAbs_natCast, unsignedBytes_beValue] at hout
    · rw [execAt_frombu_outside hf c hin] at ht
      simp [inFault_of_failed ht.symm] at hft

end Sys2Proof.Machine
end

section
/-! PROOFS. Integers and digit strings (43_mpi_convert.md R175 to R177, R179). -/

namespace Sys2Proof.Machine

open Sys2Proof.Safety

/-- Settles O32: the three ranges of `digitVal` in turn. -/
theorem digitValues : Obligations.DigitValues := by
  refine ⟨fun c => ⟨fun h1 h2 => ?_, fun h1 h2 => ?_, fun h1 h2 => ?_, fun h => ?_⟩, fun x hx => ?_, fun x hx _ => ?_⟩
  · exact if_pos ⟨h1, h2⟩
  · rw [digitVal, if_neg (by omega), if_pos ⟨h1, h2⟩]
  · rw [digitVal, if_neg (by omega), if_neg (by omega), if_pos ⟨h1, h2⟩]
  · rw [digitVal, if_neg (by omega), if_neg (by omega), if_neg (by omega)]
  · exact if_pos hx
  · exact if_neg (by omega)

/-! ## Digits, most significant first -/

/-- `xs` are digits of base `r` that stand for `m`, most significant first; leading zeros may be among them. -/
def Positional (r m : Nat) (xs : List Nat) : Prop := (∀ x ∈ xs, x < r) ∧ Nat.ofDigits r xs.reverse = m

namespace Positional

theorem nil (r : Nat) : Positional r 0 [] := ⟨by simp, rfl⟩

theorem singleton {r x : Nat} (h : x < r) : Positional r x [x] := ⟨by simpa using h, by simp⟩

/-- Digits put in front count with the power of the base for the digits behind them. -/
theorem append {r a b : Nat} {xs ys : List Nat} (hx : Positional r a xs) (hy : Positional r b ys) :
    Positional r (a * r ^ ys.length + b) (xs ++ ys) := by
  refine ⟨fun x hmem => (List.mem_append.1 hmem).elim (hx.1 x) (hy.1 x), ?_⟩
  rw [List.reverse_append, Nat.ofDigits_append, hx.2, hy.2, List.length_reverse]
  ring

theorem digits {r : Nat} (hr : 2 ≤ r) (m : Nat) : Positional r m (Nat.digits r m).reverse := by
  refine ⟨fun x hx => Nat.digits_lt_base (by omega) (List.mem_reverse.1 hx), ?_⟩
  rw [List.reverse_reverse, Nat.ofDigits_digits]

/-- Without their leading zeros the digits are the digits of the value. -/
theorem dropWhile_zero {r m : Nat} {xs : List Nat} (hr : 2 ≤ r) (h : Positional r m xs) :
    xs.dropWhile (fun x => x == 0) = (Nat.digits r m).reverse := by
  obtain ⟨hlt, hval⟩ := h
  induction xs with
  | nil =>
    rw [← hval]
    simp
  | cons x xs ih =>
    by_cases hx : x = 0
    · subst hx
      rw [List.dropWhile_cons_of_pos (by rfl)]
      refine ih (fun y hy => hlt y (List.mem_cons_of_mem 0 hy)) ?_
      rw [← hval, Nat.ofDigits_reverse_zero_cons]
    · rw [List.dropWhile_cons_of_neg (by simpa using hx), ← hval, Nat.digits_ofDigits r (by omega), List.reverse_reverse]
      · exact fun y hy => hlt y (List.mem_reverse.1 hy)
      · simpa using hx

end Positional

/-- Horner's scheme, which every loop over digits runs, gives the positional value. -/
theorem foldl_digits (r : Nat) (xs : List Nat) (acc : Nat) :
    xs.foldl (fun acc x => acc * r + x) acc = acc * r ^ xs.length + Nat.ofDigits r xs.reverse := by
  induction xs generalizing acc with
  | nil => simp
  | cons x xs ih =>
    rw [List.foldl_cons, ih, Nat.ofDigits_reverse_cons, List.length_cons]
    ring

/-! ## Reading digits -/

theorem digitOf_of_digitVal {r x : Nat} {b : Byte} (h : digitVal b = some x) (hx : x < r) : digitOf r b = some x := by
  simp [digitOf, h, hx]

theorem digitOf_eq_none {r : Nat} {b : Byte} (h : ∀ x, digitVal b = some x → r ≤ x) : digitOf r b = none := by
  unfold digitOf
  split
  · rename_i x hx
    exact if_neg (h x hx).not_gt
  · rfl

/-- A byte that is no digit of the base ends the loop without a value (R175). -/
theorem digitsValue_eq_none {r : Nat} {ds : List Byte} (h : ∃ b ∈ ds, ∀ x, digitVal b = some x → r ≤ x) (acc : Nat) :
    digitsValue r ds acc = none := by
  obtain ⟨b, hmem, hbad⟩ := h
  obtain ⟨as, bs, rfl⟩ := List.append_of_mem hmem
  have hstop : ∀ v, digitsValue r (b :: bs) v = none := fun v => by rw [digitsValue, digitOf_eq_none hbad]
  rw [digitsValue_append]
  cases digitsValue r as acc with
  | none => rfl
  | some v => exact hstop v

/-- On digits of the base alone the loop is Horner's scheme (R175). -/
theorem digitsValue_eq_foldl {r : Nat} {ds : List Byte} {xs : List Nat} (h : ds.map digitVal = xs.map some)
    (hlt : ∀ x ∈ xs, x < r) (acc : Nat) : digitsValue r ds acc = some (xs.foldl (fun acc x => acc * r + x) acc) := by
  induction xs generalizing ds acc with
  | nil =>
    rw [List.map_eq_nil_iff.1 h]
    rfl
  | cons x xs ih =>
    obtain ⟨b, bs, rfl, hb, hbs⟩ := List.map_eq_cons_iff.1 h
    rw [digitsValue, digitOf_of_digitVal hb (hlt x List.mem_cons_self)]
    exact ih hbs (fun y hy => hlt y (List.mem_cons_of_mem x hy)) _

theorem digitsValue_of_positional {r m : Nat} {ds : List Byte} {xs : List Nat} (h : ds.map digitVal = xs.map some)
    (hxs : Positional r m xs) : digitsValue r ds 0 = some m := by
  rw [digitsValue_eq_foldl h hxs.1, foldl_digits, zero_mul, zero_add, hxs.2]

/-- The characters of digits have the digits' values (R176). -/
theorem map_digitVal_map_digitChar {xs : List Nat} (h : ∀ x ∈ xs, x < 36) :
    (xs.map digitChar).map digitVal = xs.map some := by
  rw [List.map_map]
  exact List.map_congr_left fun x hx => digitVal_digitChar (h x hx)

/-! ## Reading a string -/

/-- A minus sign is no digit (R176). -/
theorem head?_ne_minus_of_map_digitVal {ds : List Byte} {xs : List Nat} (h : ds.map digitVal = xs.map some) :
    ds.head? ≠ some minusSign := by
  intro hhead
  obtain ⟨bs, rfl⟩ := List.head?_eq_some_iff.1 hhead
  cases xs <;> simp [minusSign, digitVal] at h

section
variable {r : Nat} {bs ds : List Byte} {neg : Bool} (hbs : bs = if neg then minusSign :: ds else ds)
  (hsign : neg = false → ds.head? ≠ some minusSign)
include hbs hsign

/-- The first line of R175 takes a string apart into its sign and the rest. -/
theorem parseInt_sign_and_rest : (bs.head? == some minusSign) = neg ∧ (if neg then bs.tail else bs) = ds := by
  subst hbs
  cases neg with
  | true => simp
  | false => simpa using hsign rfl

/-- No digit is `ParseError(1)` (R175). -/
theorem parseInt_empty (hds : ds = []) : parseInt r bs = raise .parse 1 := by
  obtain ⟨hneg, htail⟩ := parseInt_sign_and_rest hbs hsign
  simp only [parseInt, hneg, htail, hds, List.isEmpty_nil, if_true]

/-- A byte that is no digit of the base is `ParseError(2)` (R175). -/
theorem parseInt_bad_digit (hds : ds ≠ []) (h : ∃ b ∈ ds, ∀ x, digitVal b = some x → r ≤ x) :
    parseInt r bs = raise .parse 2 := by
  obtain ⟨hneg, htail⟩ := parseInt_sign_and_rest hbs hsign
  simp only [parseInt, hneg, htail, List.isEmpty_iff, hds, if_false, digitsValue_eq_none h]

end

/-- A sign and digits of the base are the signed value (R175). -/
theorem parseInt_of_positional {r m : Nat} {bs ds : List Byte} {neg : Bool} {xs : List Nat}
    (hbs : bs = if neg then minusSign :: ds else ds) (hds : ds ≠ []) (h : ds.map digitVal = xs.map some)
    (hxs : Positional r m xs) : parseInt r bs = .ok (if neg then -(m : Int) else (m : Int)) := by
  obtain ⟨hneg, htail⟩ := parseInt_sign_and_rest hbs fun _ => head?_ne_minus_of_map_digitVal h
  simp only [parseInt, hneg, htail, List.isEmpty_iff, hds, if_false, digitsValue_of_positional h hxs]

/-! ## The two commands -/

section
variable {s : State} (hf : s.inFault = false) (c : Config.Params) {r : Nat} {arg : BufArg}
include hf

theorem execAt_parse_outside (h : ¬ InBuf c arg) (md : MReg) : execAt c (.parse md r arg) s = failed 7 1 s :=
  execAt_failed (k := .bufferRange) (by simp) hf (inputBytes_bind_outside h _ _)

theorem execAt_parse_raise {n : Nat} (h : InBuf c arg) (hp : parseInt r (bytesAt s arg) = raise .parse n) (md : MReg) :
    execAt c (.parse md r arg) s = failed 1 (BitVec.ofNat 32 n) s := by
  refine execAt_failed (k := .parse) (by simp) hf ((inputBytes_bind_inBuf h s _).trans ?_)
  rw [hp]
  rfl

theorem execAt_parse_ok {v : Int} (h : InBuf c arg) (hp : parseInt r (bytesAt s arg) = .ok v) (md : MReg) :
    execAt c (.parse md r arg) s = storedOrFull c md v s := by
  refine execAt_storedOrFull (by simp) hf ((inputBytes_bind_inBuf h s _).trans ?_)
  rw [hp]
  rfl

theorem execAt_tostr (ma : MReg) (r : Nat) (arg : BufArg) :
    Wrote c arg (toDigits r (s.readM ma)) s (execAt c (.tostr ma r arg) s) :=
  execAt_wrote (by simp) hf rfl

end

/-- Settles O33: the string is taken apart into its sign and its digits (`parseInt_sign_and_rest`), and the digits are read by
Horner's scheme (`digitsValue_eq_foldl`) up to the first bad one (`digitsValue_eq_none`). -/
theorem parseStrings : Obligations.ParseStrings := by
  refine ofEvery fun c s md r arg hf _ _ => ⟨fun h => execAt_parse_outside hf c h md, fun h neg ds hbs hsign =>
    ⟨fun hds => ?_, fun hds hbad => ?_, fun hds xs hxs hlt => ?_⟩⟩
  · exact execAt_parse_raise hf c h (parseInt_empty hbs hsign hds) md
  · exact execAt_parse_raise hf c h (parseInt_bad_digit hbs hsign hds hbad) md
  · rw [← Nat.coe_ofDigits]
    exact execAt_parse_ok hf c h (parseInt_of_positional hbs hds hxs ⟨hlt, rfl⟩) md

/-! ## Writing a string -/

theorem toDigits_zero (r : Nat) : toDigits r 0 = [0x30] := rfl

/-- The string of a value other than zero is its sign and the digits of its magnitude (R177). -/
theorem toDigits_of_ne_zero {r : Nat} (hr : 2 ≤ r) {v : Int} (h : v ≠ 0) : toDigits r v =
    (if v < 0 then [0x2D] else []) ++ (Nat.digits r v.natAbs).reverse.map digitChar := by
  rw [toDigits, if_neg h, digitsOnto_bitlen hr, List.map_reverse]
  rfl

theorem digits_reverse_head?_ne_zero (r : Nat) {m : Nat} (h : m ≠ 0) : (Nat.digits r m).reverse.head? ≠ some 0 := by
  rw [List.head?_reverse, List.getLast?_eq_getLast_of_ne_nil (Nat.digits_ne_nil_iff_ne_zero.2 h)]
  simpa using Nat.getLast_digit_ne_zero r h

/-- Settles O34: the digits are those of the magnitude in the base (`toDigits_of_ne_zero`). -/
theorem renderStrings : Obligations.RenderStrings := by
  refine ofEvery fun c s ma r arg hf hr _ => ⟨fun h => ?_, fun h => ?_⟩
  · have hout := execAt_tostr hf c ma r arg
    rwa [h, toDigits_zero] at hout
  · have hm : (s.readM ma).natAbs ≠ 0 := Int.natAbs_ne_zero.2 h
    obtain ⟨hlt, hval⟩ := Positional.digits hr (s.readM ma).natAbs
    refine ⟨(Nat.digits r (s.readM ma).natAbs).reverse, by simpa [Nat.digits_ne_nil_iff_ne_zero] using h, hlt,
      digits_reverse_head?_ne_zero r hm, hval, ?_⟩
    rw [← toDigits_of_ne_zero hr h]
    exact execAt_tostr hf c ma r arg

/-! ## Round trips -/

/-- `PARSE` reads the string that `TOSTR` writes as the value (R179). -/
theorem parseInt_toDigits {r : Nat} (hr : 2 ≤ r) (hr36 : r ≤ 36) (v : Int) : parseInt r (toDigits r v) = .ok v := by
  by_cases hv : v = 0
  · subst hv
    exact parseInt_of_positional (neg := false) rfl (by simp) (xs := [0]) rfl
      (Positional.singleton (x := 0) (by omega))
  · have hdigits := Positional.digits hr v.natAbs
    have hds : (Nat.digits r v.natAbs).reverse.map digitChar ≠ [] := by simpa [Nat.digits_ne_nil_iff_ne_zero] using hv
    have hstring : toDigits r v = if decide (v < 0) then minusSign :: (Nat.digits r v.natAbs).reverse.map digitChar
        else (Nat.digits r v.natAbs).reverse.map digitChar := by
      rw [toDigits_of_ne_zero hr hv]
      by_cases hneg : v < 0 <;> simp [hneg, minusSign]
    rw [parseInt_of_positional hstring hds
      (map_digitVal_map_digitChar fun x hx => (hdigits.1 x hx).trans_le hr36) hdigits]
    congr 1
    simp only [decide_eq_true_eq]
    split_ifs <;> omega

/-- `TOSTR` writes the value of a sign and digits without the leading zeros of the digits, and zero without a sign (R179). -/
theorem toDigits_of_positional {r m : Nat} {xs : List Nat} (hr : 2 ≤ r) (h : Positional r m xs) (neg : Bool) :
    toDigits r (if neg then -(m : Int) else (m : Int)) = if xs.dropWhile (fun x => x == 0) = [] then [0x30]
      else (if neg then [0x2D] else []) ++ (xs.dropWhile (fun x => x == 0)).map digitChar := by
  rw [h.dropWhile_zero hr]
  by_cases hm : m = 0
  · subst hm
    cases neg <;> simp [toDigits_zero]
  · have hdigits : (Nat.digits r m).reverse ≠ [] := by simpa [Nat.digits_ne_nil_iff_ne_zero] using hm
    rw [if_neg hdigits]
    cases neg with
    | true => simp [toDigits_of_ne_zero hr, hm, Nat.pos_of_ne_zero hm]
    | false => simp [toDigits_of_ne_zero hr, hm]

/-- `PARSE` that did not fail read at least one digit, and digits of the base only, and left their value (R175). -/
theorem parse_of_not_fault {c : Config.Params} {s t : State} {md : MReg} {r : Nat} {arg : BufArg} {neg : Bool}
    {ds : List Byte} {xs : List Nat} (hf : s.inFault = false) (hbs : bytesAt s arg = if neg then minusSign :: ds else ds)
    (hxs : ds.map digitVal = xs.map some) (ht : execAt c (.parse md r arg) s = .next t) (hft : t.inFault = false) :
    ∃ m, Positional r m xs ∧ t.readM md = if neg then -(m : Int) else (m : Int) := by
  have hsign : neg = false → ds.head? ≠ some minusSign := fun _ => head?_ne_minus_of_map_digitVal hxs
  have hran : ∀ {code info}, execAt c (.parse md r arg) s ≠ failed code info s := fun h => by
    simp [inFault_of_failed (ht.symm.trans h)] at hft
  have hin : InBuf c arg := by_contra fun h => hran (execAt_parse_outside hf c h md)
  have hds : ds ≠ [] := fun h => hran (execAt_parse_raise hf c hin (parseInt_empty hbs hsign h) md)
  have hlt : ∀ x ∈ xs, x < r := by
    by_contra! hbad
    obtain ⟨x, hx, hrx⟩ := hbad
    obtain ⟨b, hb, hbx⟩ : ∃ b ∈ ds, digitVal b = some x := List.mem_map.1 (hxs ▸ List.mem_map_of_mem hx)
    refine hran (execAt_parse_raise hf c hin (parseInt_bad_digit hbs hsign hds ⟨b, hb, fun y hy => ?_⟩) md)
    rwa [← Option.some.inj (hbx.symm.trans hy)]
  have hparse := parseInt_of_positional hbs hds hxs ⟨hlt, rfl⟩
  exact ⟨_, ⟨hlt, rfl⟩, readM_of_storedOrFull ((execAt_parse_ok hf c hin hparse md).symm.trans ht) hft⟩

/-- Settles O36: what `TOSTR` wrote `PARSE` reads (`parseInt_toDigits`), and what `PARSE` read `TOSTR` writes again
(`toDigits_of_positional`). -/
theorem stringRoundTrip : Obligations.StringRoundTrip := by
  refine ofEvery fun c s t md r arg hf hr hr36 hft => ⟨fun ma hfits ht => ?_, fun neg ds xs out hbs hxs ht => ?_⟩
  · obtain ⟨hin, hbytes⟩ := bytesAt_of_wrote (ht ▸ execAt_tostr hf c ma r arg) hft
    rw [execAt_parse_ok hft c hin (hbytes ▸ parseInt_toDigits hr hr36 _)]
    exact storedOrFull_fits hfits
  · obtain ⟨m, hm, hval⟩ := parse_of_not_fault hf hbs hxs ht hft
    rw [← toDigits_of_positional hr hm neg, ← hval]
    exact execAt_tostr hft c md r out

end Sys2Proof.Machine
end

section
/-! PROOFS. The radix converters of the reference datapath (43_mpi_convert.md R178). -/

namespace Sys2Proof.Machine.Datapath

/-! ## Bases that are powers of two -/

theorem eq_two_pow_of_powerOfTwo? {r k : Nat} (h : powerOfTwo? r = some k) : r = 2 ^ k := by
  unfold powerOfTwo? at h
  split_ifs at h with hr
  rw [← Option.some.inj h, hr]

/-- Bit slicing gives the low digits, as many as there are slices. -/
theorem sliceDigits_positional (k m i : Nat) :
    ∃ xs, Positional (2 ^ k) (m % (2 ^ k) ^ i) xs ∧ xs.length = i ∧ sliceDigits k m i = xs.map digitChar := by
  induction i with
  | zero => exact ⟨[], by rw [pow_zero, Nat.mod_one]; exact .nil _, rfl, rfl⟩
  | succ i ih =>
    obtain ⟨xs, hxs, hlen, hslice⟩ := ih
    have hdigit : m >>> (k * i) = m / (2 ^ k) ^ i := by rw [Nat.shiftRight_eq_div_pow, pow_mul]
    refine ⟨(m / (2 ^ k) ^ i % 2 ^ k) :: xs, ?_, by rw [List.length_cons, hlen],
      by rw [sliceDigits, hslice, hdigit, List.map_cons]⟩
    have hpos := (Positional.singleton (Nat.mod_lt (m / (2 ^ k) ^ i) (Nat.two_pow_pos k))).append hxs
    rwa [hlen, mul_comm, add_comm, ← Nat.mod_mul, ← pow_succ] at hpos

/-- There are as many slices as digits (R178). -/
theorem digits_two_pow_length {k : Nat} (hk : 0 < k) (m : Nat) :
    (Nat.digits (2 ^ k) m).length = (bitlen m + (k - 1)) / k := by
  refine eq_of_forall_ge_iff fun n => ?_
  rw [Nat.digits_length_le_iff (Nat.one_lt_two_pow hk.ne'), ← pow_mul, ← bitlen_le_iff]
  have hdiv : (bitlen m + (k - 1)) / k < n + 1 ↔ bitlen m + (k - 1) < (n + 1) * k := Nat.div_lt_iff_lt_mul hk
  rw [Nat.succ_mul, mul_comm n] at hdiv
  omega

/-- As many slices as there are digits are the digits (R178). -/
theorem sliceDigits_eq_digits {k : Nat} (hk : 0 < k) (m : Nat) :
    sliceDigits k m ((bitlen m + (k - 1)) / k) = (Nat.digits (2 ^ k) m).reverse.map digitChar := by
  have hbase : 1 < 2 ^ k := Nat.one_lt_two_pow hk.ne'
  obtain ⟨xs, hxs, hlen, hslice⟩ := sliceDigits_positional k m ((bitlen m + (k - 1)) / k)
  rw [← digits_two_pow_length hk] at hxs hlen
  rw [Nat.mod_eq_of_lt (Nat.lt_base_pow_length_digits hbase)] at hxs
  have htrim := hxs.dropWhile_zero hbase
  have hall : xs.dropWhile (fun x => x == 0) = xs :=
    (List.dropWhile_suffix _).eq_of_length (by rw [htrim, List.length_reverse, hlen])
  rw [hslice, ← htrim, hall]

/-! ## The chunk of a base -/

/-- The search stops at the last power of the base below the radix. -/
theorem chunkFrom_spec {r fuel e : Nat} (hlow : r ^ e < radix) (hhigh : radix ≤ r ^ (e + fuel + 1)) :
    r ^ chunkFrom r fuel e < radix ∧ radix ≤ r ^ (chunkFrom r fuel e + 1) := by
  induction fuel generalizing e with
  | zero => exact ⟨hlow, hhigh⟩
  | succ fuel ih =>
    unfold chunkFrom
    split_ifs with hnext
    · exact ih hnext (by rwa [Nat.add_right_comm e 1 fuel])
    · exact ⟨hlow, not_lt.1 hnext⟩

section
variable {r : Nat} (hr : 2 ≤ r)
include hr

/-- A chunk is the largest power of the base below the radix (R178). -/
theorem chunkValue_bounds : chunkValue r < radix ∧ radix ≤ chunkValue r * r := by
  rw [chunkValue, ← pow_succ]
  refine chunkFrom_spec (by rw [pow_zero]; exact one_lt_radix) ?_
  calc radix ≤ 2 ^ (0 + Config.limbBits + 1) := Nat.pow_le_pow_right two_pos (by omega)
    _ ≤ r ^ (0 + Config.limbBits + 1) := Nat.pow_le_pow_left hr _

variable (hr36 : r ≤ 36)
include hr36

/-- A chunk has at least one digit. -/
theorem chunkSize_pos : 0 < chunkSize r := by
  obtain ⟨-, hhigh⟩ := chunkValue_bounds hr
  rw [radix_eq] at hhigh
  by_contra h0
  rw [chunkValue, Nat.eq_zero_of_not_pos h0, pow_zero] at hhigh
  omega

theorem two_le_chunkValue : 2 ≤ chunkValue r :=
  hr.trans (Nat.le_self_pow (chunkSize_pos hr hr36).ne' r)

end

/-! ## Output in chunks -/

/-- A chunk is rendered as its low digits, leading zeros and all (R178). -/
theorem chunkDigits_positional {r : Nat} (hr : 0 < r) (j c : Nat) :
    ∃ xs, Positional r (c % r ^ j) xs ∧ xs.length = j ∧ chunkDigits r j c = xs.map digitChar := by
  induction j generalizing c with
  | zero => exact ⟨[], by rw [pow_zero, Nat.mod_one]; exact .nil r, rfl, rfl⟩
  | succ j ih =>
    obtain ⟨xs, hxs, hlen, hchunk⟩ := ih (c / r)
    refine ⟨xs ++ [c % r], ?_, by rw [List.length_append, hlen, List.length_singleton], ?_⟩
    · have hpos := hxs.append (.singleton (Nat.mod_lt c hr))
      rwa [List.length_singleton, pow_one, mul_comm, add_comm, ← Nat.mod_mul, ← pow_succ'] at hpos
    · rw [chunkDigits, hchunk, List.map_append, List.map_singleton]

/-- The chunks in front of what was rendered before are digits of the magnitude (R178). -/
theorem chunksOnto_positional {r : Nat} (hr : 2 ≤ r) (hr36 : r ≤ 36) {fuel m : Nat} (hm : m < 2 ^ fuel) (ds : List Byte) :
    ∃ xs, Positional r m xs ∧ chunksOnto r fuel m ds = xs.map digitChar ++ ds := by
  induction fuel generalizing m ds with
  | zero =>
    obtain rfl : m = 0 := by simpa using hm
    exact ⟨[], .nil r, rfl⟩
  | succ fuel ih =>
    unfold chunksOnto
    split_ifs with h0
    · subst h0
      exact ⟨[], .nil r, rfl⟩
    · have hdiv : m / chunkValue r < 2 ^ fuel := by
        have := Nat.div_le_div_left (a := m) (two_le_chunkValue hr hr36) two_pos
        rw [pow_succ] at hm
        omega
      have hpos : 0 < chunkValue r := two_pos.trans_le (two_le_chunkValue hr hr36)
      obtain ⟨ys, hys, hlen, hchunk⟩ := chunkDigits_positional (two_pos.trans_le hr) (chunkSize r) (m % chunkValue r)
      obtain ⟨xs, hxs, hrest⟩ := ih hdiv (chunkDigits r (chunkSize r) (m % chunkValue r) ++ ds)
      refine ⟨xs ++ ys, ?_, by rw [hrest, hchunk, List.map_append, List.append_assoc]⟩
      have happ := hxs.append hys
      rwa [hlen, ← chunkValue, Nat.mod_mod, Nat.div_add_mod'] at happ

/-- The character '0' is that of the digit 0 alone (R176). -/
theorem digitChar_eq_zero_iff {x : Nat} (h : x < 36) : digitChar x = 0x30 ↔ x = 0 := by
  have hall : ∀ y : Fin 36, digitChar y.val = 0x30 ↔ y.val = 0 := by decide
  exact hall ⟨x, h⟩

/-- To remove the leading '0' characters is to remove the leading zeros. -/
theorem dropWhile_map_digitChar {xs : List Nat} (h : ∀ x ∈ xs, x < 36) :
    (xs.map digitChar).dropWhile (fun c => c == 0x30) = (xs.dropWhile (fun x => x == 0)).map digitChar := by
  induction xs with
  | nil => rfl
  | cons x xs ih =>
    have hx := digitChar_eq_zero_iff (h x List.mem_cons_self)
    rw [List.map_cons]
    by_cases h0 : x = 0
    · rw [List.dropWhile_cons_of_pos (by simpa using hx.2 h0), List.dropWhile_cons_of_pos (by simpa using h0)]
      exact ih fun y hy => h y (List.mem_cons_of_mem x hy)
    · rw [List.dropWhile_cons_of_neg (by simpa using mt hx.1 h0), List.dropWhile_cons_of_neg (by simpa using h0),
        List.map_cons]

/-- The output converter renders the digits of the magnitude (R178). -/
theorem renderDigits_eq_digits {r : Nat} (hr : 2 ≤ r) (hr36 : r ≤ 36) (m : Nat) :
    renderDigits r m = (Nat.digits r m).reverse.map digitChar := by
  unfold renderDigits
  split
  · rename_i k hk
    obtain rfl := eq_two_pow_of_powerOfTwo? hk
    exact sliceDigits_eq_digits (Nat.pos_of_ne_zero fun h0 => by simp [h0] at hr) m
  · obtain ⟨xs, hxs, hchunks⟩ := chunksOnto_positional hr hr36 (lt_two_pow_bitlen m) []
    rw [hchunks, List.append_nil, dropWhile_map_digitChar fun x hx => (hxs.1 x hx).trans_le hr36, hxs.dropWhile_zero hr]

/-! ## Input in chunks -/

/-- Chunk after chunk the accumulator runs through Horner's scheme (R178). -/
theorem readChunks_eq_foldl {r : Nat} (hr : 2 ≤ r) (hr36 : r ≤ 36) {fuel : Nat} {xs : List Nat} (h : xs.length ≤ fuel)
    (acc : Nat) : readChunks r fuel xs acc = xs.foldl (fun acc x => acc * r + x) acc := by
  induction fuel generalizing xs acc with
  | zero =>
    rw [List.length_eq_zero_iff.1 (Nat.le_zero.1 h)]
    rfl
  | succ fuel ih =>
    unfold readChunks
    split_ifs with h0
    · subst h0
      rfl
    · have hshort : (xs.drop (chunkSize r)).length ≤ fuel := by
        have := chunkSize_pos hr hr36
        rw [List.length_drop]
        omega
      have hchunk : acc * r ^ (xs.take (chunkSize r)).length + gather r (xs.take (chunkSize r)) =
          (xs.take (chunkSize r)).foldl (fun acc x => acc * r + x) acc := by
        rw [gather, foldl_digits, foldl_digits, zero_mul, zero_add]
      simp only [hchunk]
      rw [ih hshort, ← List.foldl_append, List.take_append_drop]

/-- The input converter gives the positional value of the digits (R178). -/
theorem readDigits_eq_ofDigits {r : Nat} (hr : 2 ≤ r) (hr36 : r ≤ 36) (xs : List Nat) :
    readDigits r xs = Nat.ofDigits r xs.reverse := by
  have hhorner := foldl_digits r xs 0
  rw [zero_mul, zero_add] at hhorner
  rw [← hhorner]
  unfold readDigits
  split
  · rename_i k hk
    rw [eq_two_pow_of_powerOfTwo? hk]
    simp only [Nat.shiftLeft_eq]
  · exact readChunks_eq_foldl hr hr36 le_rfl 0

/-- Settles O59: both converters run through digits of the magnitude (`Positional`), by slices or by chunks. -/
theorem radixConverters : Obligations.RadixConverters := by
  intro r hr hr36
  exact ⟨fun m _ => renderDigits_eq_digits hr hr36 m, fun xs _ => readDigits_eq_ofDigits hr hr36 xs, chunkValue_bounds hr⟩

end Sys2Proof.Machine.Datapath
end

section
/-! PROOFS. The field commands (44_field.md R190 to R197). -/

namespace Sys2Proof.Machine

open Sys2Proof.Safety

/-! ## Reductions -/

section

variable {c : Config.Params} {i : Instr} {s : State} {md ma mb mm : MReg} (hf : s.inFault = false)
include hf

/-- A command whose pseudocode is one `M[md] <- nmod(v, m)` stores the reduction, which fits where the modulus does,
however large `v` is. -/
theorem execAt_reduced {v : Int} (hi : i ≠ .clrerr) (hfm : Fits c (s.readM mm)) (hm : s.readM mm ≠ 0)
    (h : body i c s.countCommand = writeM md (nmod v (s.readM mm)) c s.countCommand) :
    execAt c i s = storedM md (v % |s.readM mm|) s := by
  rw [Int.emod_abs, ← nmod_eq_emod]
  exact execAt_storedM hi hf ((nmod_natAbs_lt v hm).trans hfm) h

/-- A zero modulus is the error of every field command whose pseudocode reads it first (R190). -/
theorem execAt_zeroModulus {f : Int → Except Raise Engine} (hi : i ≠ .clrerr) (hm : s.readM mm = 0)
    (h : body i c s.countCommand = (nonzeroOperand (s.readM mm) >>= f)) : execAt c i s = failed 5 0 s :=
  execAt_failed (k := .divideByZero) hi hf (h.trans (nonzeroOperand_bind_zero hm f))

section

variable (hfm : Fits c (s.readM mm)) (hm : s.readM mm ≠ 0)
include hfm hm

theorem execAt_fadd :
    execAt c (.fadd md ma mb mm) s = storedM md ((s.readM ma + s.readM mb) % |s.readM mm|) s :=
  execAt_reduced hf (by simp) hfm hm (nonzeroOperand_bind_ne hm _)

theorem execAt_fsub :
    execAt c (.fsub md ma mb mm) s = storedM md ((s.readM ma - s.readM mb) % |s.readM mm|) s :=
  execAt_reduced hf (by simp) hfm hm (nonzeroOperand_bind_ne hm _)

theorem execAt_fmul :
    execAt c (.fmul md ma mb mm) s = storedM md (s.readM ma * s.readM mb % |s.readM mm|) s :=
  execAt_reduced hf (by simp) hfm hm (nonzeroOperand_bind_ne hm _)

theorem execAt_fsqr : execAt c (.fsqr md ma mm) s = storedM md (s.readM ma ^ 2 % |s.readM mm|) s := by
  rw [pow_two]
  exact execAt_reduced hf (by simp) hfm hm (nonzeroOperand_bind_ne hm _)

end

end

/-- Settles O37: each of the four commands tests its modulus (`execAt_zeroModulus`), then writes one reduction
(`execAt_reduced`). -/
theorem fieldArithmetic : Obligations.FieldArithmetic := by
  refine ofEvery fun c s md ma mb mm hf hfm => ⟨fun hm => ⟨?_, ?_, ?_, ?_⟩, fun hm =>
    ⟨execAt_fadd hf hfm hm, execAt_fsub hf hfm hm, execAt_fmul hf hfm hm, execAt_fsqr hf hfm hm⟩⟩
  · exact execAt_zeroModulus hf (by simp) hm rfl
  · exact execAt_zeroModulus hf (by simp) hm rfl
  · exact execAt_zeroModulus hf (by simp) hm rfl
  · exact execAt_zeroModulus hf (by simp) hm rfl

/-! ## Division -/

/-- An operand has an inverse modulo `m` exactly when it is coprime to `m` (R195). -/
theorem gcd_eq_one_iff_exists_inverse {b m : Int} : Int.gcd b m = 1 ↔ ∃ x : Int, m ∣ b * x - 1 := by
  rw [← Int.isCoprime_iff_gcd_eq_one]
  constructor
  · rintro ⟨x, y, h⟩
    exact ⟨x, -y, by linear_combination h⟩
  · rintro ⟨x, y, h⟩
    exact ⟨x, -y, by linear_combination h⟩

/-- Two inverses of `b` modulo `m` are congruent. -/
theorem inverse_modEq {b m x y : Int} (hx : m ∣ b * x - 1) (hy : m ∣ b * y - 1) : x ≡ y [ZMOD m] := by
  refine Int.modEq_iff_dvd.2 ?_
  rw [show y - x = y * -(b * x - 1) + x * (b * y - 1) by ring]
  exact (hx.neg_right.mul_left y).add (hy.mul_left x)

section

variable {e : Engine} {md ma mb mm : MReg} {c : Config.Params} (hm : e.readM mm ≠ 0)
include hm

theorem bodyFdiv_not_coprime (hg : Int.gcd (e.readM mb) (e.readM mm) ≠ 1) :
    bodyFdiv md ma mb mm c e = raise .noInverse 2 := by
  rw [← gcd_toNat_emod _ hm] at hg
  exact (nonzeroOperand_bind_ne hm _).trans (if_pos hg)

/-- The pseudocode multiplies by the inverse that `inv(b0, |m|)` gives. -/
theorem bodyFdiv_coprime (hg : Int.gcd (e.readM mb) (e.readM mm) = 1) :
    ∃ y : Int, e.readM mm ∣ e.readM mb * y - 1 ∧
      bodyFdiv md ma mb mm c e = writeM md (nmod (e.readM ma * y) (e.readM mm)) c e := by
  rw [← gcd_toNat_emod _ hm] at hg
  exact ⟨_, (dvd_mul_sub_one_iff _ hm _).2 (invMod_spec (Int.natAbs_pos.2 hm) hg),
    (nonzeroOperand_bind_ne hm _).trans (if_neg (not_not.2 hg))⟩

end

/-- `FDIV` multiplies by any inverse of the divisor: the reduced products agree (`inverse_modEq`). -/
theorem execAt_fdiv {c : Config.Params} {s : State} {md ma mb mm : MReg} {x : Int} (hf : s.inFault = false)
    (hfm : Fits c (s.readM mm)) (hm : s.readM mm ≠ 0) (hx : s.readM mm ∣ s.readM mb * x - 1) :
    execAt c (.fdiv md ma mb mm) s = storedM md (s.readM ma * x % |s.readM mm|) s := by
  obtain ⟨y, hy, hbody⟩ := bodyFdiv_coprime (e := s.countCommand) hm (gcd_eq_one_iff_exists_inverse.2 ⟨x, hx⟩)
  have hxy : s.readM ma * x ≡ s.readM ma * y [ZMOD s.readM mm] := (inverse_modEq hx hy).mul_left _
  rw [Int.emod_abs, hxy.eq, ← Int.emod_abs]
  exact execAt_reduced hf (by simp) hfm hm hbody

/-! ## Equality -/

/-- The test of `FEQ` on the reduced values is a congruence (R196). -/
theorem nmod_eq_nmod_iff_dvd_sub (a b m : Int) : nmod a m = nmod b m ↔ m ∣ a - b := by
  rw [nmod_eq_emod, nmod_eq_emod, Int.emod_eq_emod_iff_emod_sub_eq_zero, Int.dvd_iff_emod_eq_zero]

section

variable {s : State} {ma mma mb mmb : MReg} (c : Config.Params) (hf : s.inFault = false)
include hf

theorem execAt_feq_zeroModulus (h : s.readM mma = 0 ∨ s.readM mmb = 0) :
    execAt c (.feq ma mma mb mmb) s = failed 5 0 s := by
  by_cases ha : s.readM mma = 0
  · exact execAt_zeroModulus hf (by simp) ha rfl
  · exact execAt_zeroModulus hf (by simp) (h.resolve_left ha) (nonzeroOperand_bind_ne ha _)

theorem execAt_feq (ha : s.readM mma ≠ 0) (hb : s.readM mmb ≠ 0) :
    execAt c (.feq ma mma mb mmb) s = answered
      (if s.readM mma = s.readM mmb ∧ s.readM mma ∣ s.readM ma - s.readM mb then 1 else 0) s := by
  have htest : (s.readM mma = s.readM mmb ∧ nmod (s.readM ma) (s.readM mma) = nmod (s.readM mb) (s.readM mmb)) ↔
      s.readM mma = s.readM mmb ∧ s.readM mma ∣ s.readM ma - s.readM mb :=
    and_congr_right fun h => by rw [← h, nmod_eq_nmod_iff_dvd_sub]
  simp only [← htest]
  rw [← boolRes_decide]
  exact execAt_answered (by simp) hf ((nonzeroOperand_bind_ne ha _).trans (nonzeroOperand_bind_ne hb _))

end

/-- Settles O38: the divisor is coprime to the modulus exactly when it has an inverse (`gcd_eq_one_iff_exists_inverse`), and
any inverse gives the same quotient (`execAt_fdiv`); `FEQ` is one write of `RES` (`execAt_feq`). -/
theorem fieldDivideAndEquality : Obligations.FieldDivideAndEquality := by
  refine ofEvery fun c => ⟨fun s md ma mb mm hf hfm => ⟨fun hm => ?_, fun hm hg => ?_, fun hm x hx => ?_⟩,
    fun s ma mma mb mmb hf => ⟨execAt_feq_zeroModulus c hf, execAt_feq c hf⟩⟩
  · exact execAt_zeroModulus hf (by simp) hm rfl
  · exact execAt_failed (k := .noInverse) (by simp) hf (bodyFdiv_not_coprime hm hg)
  · exact execAt_fdiv hf hfm hm hx

/-! ## Two field laws (R197) -/

/-- A stored value leads to a state without a new fault, in which the one register holds the value and the others what they
held. -/
theorem storedM_next (md : MReg) (v : Int) (s : State) :
    ∃ t, storedM md v s = .next t ∧ t.inFault = s.inFault ∧ t.readM md = v ∧ ∀ r, md ≠ r → t.readM r = s.readM r :=
  ⟨_, rfl, rfl, Engine.readM_setM_same s.toEngine md v, fun _ hr => Engine.readM_setM_ne s.toEngine hr v⟩

/-- Multiplying a reduced quotient by the divisor gives the dividend, reduced. -/
theorem emod_mul_emod_of_inverse {b m x : Int} (a : Int) (h : m ∣ b * x - 1) : a * x % |m| * b % |m| = a % |m| := by
  rw [Int.emod_abs, Int.emod_abs, Int.emod_abs]
  refine ((Int.mod_modEq (a * x) m).mul_right b).trans (Int.ModEq.symm (Int.modEq_iff_dvd.2 ?_))
  rw [show a * x * b - a = a * (b * x - 1) by ring]
  exact h.mul_left a

/-- Settles O39: the second command runs on the state that the first one left (`storedM_next`), where the operand and the
modulus still stand. -/
theorem fieldLaws : Obligations.FieldLaws := by
  refine ofEvery fun c s md ma mb mm hf hfm hm hmb hmm => ⟨fun hg => ?_, ?_⟩
  · obtain ⟨x, hx⟩ := gcd_eq_one_iff_exists_inverse.1 hg
    obtain ⟨t, ht, htf, hread, hframe⟩ := storedM_next md (s.readM ma * x % |s.readM mm|) s
    refine ⟨t, (execAt_fdiv hf hfm hm hx).trans ht, ?_⟩
    rw [← hframe mm hmm] at hfm hm
    rw [execAt_fmul (htf.trans hf) hfm hm, hread, hframe mb hmb, hframe mm hmm, emod_mul_emod_of_inverse _ hx]
  · obtain ⟨t, ht, htf, hread, hframe⟩ := storedM_next md ((s.readM ma + s.readM mb) % |s.readM mm|) s
    refine ⟨t, (execAt_fadd hf hfm hm).trans ht, ?_⟩
    rw [← hframe mm hmm] at hfm hm
    rw [execAt_fsub (htf.trans hf) hfm hm, hread, hframe mb hmb, hframe mm hmm, Int.emod_sub_emod, add_sub_cancel_right]

end Sys2Proof.Machine
end

section
/-! PROOFS. The point commands that build, move and read points (45_point_arith.md R201 to R208). -/

namespace Sys2Proof.Machine

open Sys2Proof.Safety

/-- A command whose pseudocode is one `P[pd] <- A` stores the point. -/
theorem execAt_storedP {c : Config.Params} {i : Instr} {s : State} {pd : PReg} {A : Point} (hi : i ≠ .clrerr)
    (hf : s.inFault = false) (h : body i c s.countCommand = .ok (s.countCommand.writeP pd A)) :
    execAt c i s = storedP pd A s := by
  rw [execAt_eq_runCommand c hi, run_writeP hf h]

/-! ## Building and moving -/

/-- Two integers of which one is outside `0..p-1` are no point (R203). -/
theorem pointOf_outside {x y : Int} (h : x < 0 ∨ Rom.p ≤ x ∨ y < 0 ∨ Rom.p ≤ y) : pointOf x y = raise .domain 2 :=
  if_pos h

theorem pointOf_natCast {x y : Nat} (hx : x < Rom.p) (hy : y < Rom.p) : pointOf x y = .ok (.aff x y) :=
  if_neg (by omega)

theorem bodyPseta_outside {e : Engine} {mx my : MReg}
    (h : e.readM mx < 0 ∨ Rom.p ≤ e.readM mx ∨ e.readM my < 0 ∨ Rom.p ≤ e.readM my) (pd : PReg) (c : Config.Params) :
    bodyPseta pd mx my c e = raise .domain 2 := by
  rw [bodyPseta, pointOf_outside h]
  rfl

theorem bodyPseta_natCast {e : Engine} {mx my : MReg} {x y : Nat} (hx : e.readM mx = x) (hy : e.readM my = y)
    (hxp : x < Rom.p) (hyp : y < Rom.p) (pd : PReg) (c : Config.Params) :
    bodyPseta pd mx my c e = .ok (e.writeP pd (.aff x y)) := by
  rw [bodyPseta, hx, hy, pointOf_natCast hxp hyp]
  rfl

theorem execAt_pinf {c : Config.Params} {s : State} (hf : s.inFault = false) (pd : PReg) :
    execAt c (.pinf pd) s = storedP pd .inf s :=
  execAt_storedP (by simp) hf rfl

/-- Settles O40: each of the four commands is one write of a point register (`execAt_storedP`), but for the error of
`PSETA` (`bodyPseta_outside`). -/
theorem pointMoves : Obligations.PointMoves := by
  refine ofEvery fun c s hf => ⟨execAt_pinf hf, fun pd => execAt_storedP (by simp) hf rfl, fun pd mx my =>
    ⟨fun h => ?_, fun x y hx hy hxp hyp => ?_⟩, fun pd pa => execAt_storedP (by simp) hf rfl⟩
  · exact execAt_failed (k := .domain) (n := 2) (by simp) hf (bodyPseta_outside (e := s.countCommand) h pd c)
  · exact execAt_storedP (by simp) hf (bodyPseta_natCast (e := s.countCommand) hx hy hxp hyp pd c)

/-! ## Reading -/

/-- A coordinate fits a register of any engine (00_scope.md R5). -/
theorem fits_of_lt_p (c : Config.Params) {x : Nat} (h : x < Rom.p) : Fits c x :=
  fits_of_lt_two_pow_256 c (by rw [Int.natAbs_natCast]; exact h.trans (romValue_lt .p))

/-- The two commands that read a coordinate fail on the infinity before anything is written (R206, R207). -/
theorem affineOperand_bind_inf {α : Type} (f : Nat × Nat → Except Raise α) :
    (affineOperand .inf >>= f) = raise .operand 2 := rfl

theorem affineOperand_bind_aff {α : Type} (x y : Nat) (f : Nat × Nat → Except Raise α) :
    (affineOperand (.aff x y) >>= f) = f (x, y) := rfl

section

variable {c : Config.Params} {s : State} {pa : PReg} (hf : s.inFault = false)
include hf

theorem execAt_pgetx_inf (h : s.readP pa = .inf) (md : MReg) : execAt c (.pgetx md pa) s = failed 8 2 s :=
  execAt_failed (k := .operand) (n := 2) (by simp) hf
    (by simp only [body, bodyPgetx, Engine.countCommand_readP, h, affineOperand_bind_inf])

theorem execAt_pgety_inf (h : s.readP pa = .inf) (md : MReg) : execAt c (.pgety md pa) s = failed 8 2 s :=
  execAt_failed (k := .operand) (n := 2) (by simp) hf
    (by simp only [body, bodyPgety, Engine.countCommand_readP, h, affineOperand_bind_inf])

variable {x y : Nat} (h : s.readP pa = .aff x y)
include h

theorem execAt_pgetx (hx : x < Rom.p) (md : MReg) : execAt c (.pgetx md pa) s = storedM md x s :=
  execAt_storedM (by simp) hf (fits_of_lt_p c hx)
    (by simp only [body, bodyPgetx, Engine.countCommand_readP, h, affineOperand_bind_aff])

theorem execAt_pgety (hy : y < Rom.p) (md : MReg) : execAt c (.pgety md pa) s = storedM md y s :=
  execAt_storedM (by simp) hf (fits_of_lt_p c hy)
    (by simp only [body, bodyPgety, Engine.countCommand_readP, h, affineOperand_bind_aff])

end

/-- Settles O41: `PISINF` and `PEQ` are one write of `RES` (`execAt_answered`), `PGETX` and `PGETY` one write of a register
unless the point is the infinity. -/
theorem pointReads : Obligations.PointReads := by
  refine ofEvery fun c s hf => ⟨fun pa => ?_, fun md pa h => ⟨execAt_pgetx_inf hf h md, execAt_pgety_inf hf h md⟩,
    fun md pa x y h hx hy => ⟨execAt_pgetx hf h hx md, execAt_pgety hf h hy md⟩, fun pa pb => ?_⟩
  · rw [← boolRes_decide]
    exact execAt_answered (by simp) hf rfl
  · rw [← boolRes_decide]
    exact execAt_answered (by simp) hf rfl

end Sys2Proof.Machine
end

section
/-! PROOFS. The point functions case by case, and addition, doubling and negation of points
(45_point_arith.md R209 to R213). -/

namespace Sys2Proof.Machine

open Sys2Proof.Safety

/-! ## Arithmetic modulo `p` -/

theorem modP_modEq (v : Int) : (modP v : Int) ≡ v [ZMOD Rom.p] := by
  rw [natCast_modP]
  exact Int.mod_modEq v _

theorem modP_natCast (n : Nat) : modP (n : Int) = n % Rom.p := by
  rw [modP, ← Int.natCast_mod, Int.toNat_natCast]

/-- A canonical value is 0 when it is 0 in the field. -/
theorem cast_eq_zero_iff {x : Nat} (h : x < Rom.p) : (x : ZMod Rom.p) = 0 ↔ x = 0 :=
  ⟨fun h0 => eq_of_cast_eq h p_pos (by rw [h0, Nat.cast_zero]), fun h0 => by rw [h0, Nat.cast_zero]⟩

theorem two_ne_zero_p : (2 : ZMod Rom.p) ≠ 0 := by
  rw [show (2 : ZMod Rom.p) = (2 : Nat) from rfl, Ne, cast_eq_zero_iff (by decide +kernel)]
  decide

/-- A slope times its denominator is its numerator (R210: every `inv` is of a non-zero residue). -/
theorem slope_mul_modEq (num : Int) {den : Int} (h : (den : ZMod Rom.p) ≠ 0) :
    (modP (num * invP den) : Int) * den ≡ num [ZMOD Rom.p] := by
  have := fact_p
  rw [← ZMod.intCast_eq_intCast_iff]
  push_cast [cast_modP, cast_invP]
  exact inv_mul_cancel_right₀ h _

/-! ## The cases of the point functions (R209, R210) -/

@[simp] theorem padd_inf_left (B : Point) : padd .inf B = B := rfl

@[simp] theorem padd_inf_right (A : Point) : padd A .inf = A := by cases A <;> rfl

@[simp] theorem pdbl_inf : pdbl .inf = .inf := rfl

theorem padd_self (x y : Nat) : padd (.aff x y) (.aff x y) = pdbl (.aff x y) := if_pos ⟨rfl, rfl⟩

/-- A vertical tangent meets the curve at the infinity. -/
theorem pdbl_y_zero (x : Nat) : pdbl (.aff x 0) = .inf := rfl

/-- So does a vertical chord. -/
theorem padd_vertical (x : Nat) {y1 y2 : Nat} (h : y1 ≠ y2) : padd (.aff x y1) (.aff x y2) = .inf := by
  rw [padd, if_neg fun he => h he.2, if_pos rfl]

theorem pdbl_tangent (x : Nat) {y : Nat} (h : y ≠ 0) : pdbl (.aff x y) =
    chordPoint (modP ((3 * (x : Int) * x + Rom.a) * invP (2 * (y : Int)))) x y x :=
  if_neg h

theorem padd_chord {x1 x2 : Nat} (h : x1 ≠ x2) (y1 y2 : Nat) : padd (.aff x1 y1) (.aff x2 y2) =
    chordPoint (modP (((y2 : Int) - y1) * invP ((x2 : Int) - x1))) x1 y1 x2 := by
  rw [padd, if_neg fun he => h he.1, if_neg h]

theorem negPoint_aff (x : Nat) {y : Nat} (h : y < Rom.p) :
    negPoint (.aff x y) = .aff x ((Rom.p - y) % Rom.p) := by
  rw [negPoint, ← Nat.cast_sub h.le, modP_natCast]

/-- The third point of a line, by its two congruences. -/
theorem chordPoint_spec (lam x1 y1 x2 : Nat) : ∃ x3 y3 : Nat, x3 < Rom.p ∧ y3 < Rom.p ∧
    x3 ≡ lam * lam - x1 - x2 [ZMOD Rom.p] ∧ y3 ≡ lam * (x1 - x3) - y1 [ZMOD Rom.p] ∧
    chordPoint lam x1 y1 x2 = .aff x3 y3 :=
  ⟨_, _, modP_lt _, modP_lt _, modP_modEq _, modP_modEq _, rfl⟩

/-- The sum of points with different abscissas, by the slope of the chord. -/
theorem padd_chord_spec {x1 x2 : Nat} (h : x1 ≠ x2) (h1 : x1 < Rom.p) (h2 : x2 < Rom.p) (y1 y2 : Nat) :
    ∃ lam x3 y3 : Nat, x3 < Rom.p ∧ y3 < Rom.p ∧ lam * (x2 - x1) ≡ y2 - y1 [ZMOD Rom.p] ∧
      x3 ≡ lam * lam - x1 - x2 [ZMOD Rom.p] ∧ y3 ≡ lam * (x1 - x3) - y1 [ZMOD Rom.p] ∧
      padd (.aff x1 y1) (.aff x2 y2) = .aff x3 y3 := by
  have hden : (((x2 : Int) - x1 : Int) : ZMod Rom.p) ≠ 0 := by
    push_cast
    exact sub_ne_zero.2 fun he => h (eq_of_cast_eq h2 h1 he).symm
  obtain ⟨x3, y3, hx3, hy3, hX, hY, heq⟩ := chordPoint_spec (modP (((y2 : Int) - y1) * invP ((x2 : Int) - x1))) x1 y1 x2
  exact ⟨_, x3, y3, hx3, hy3, slope_mul_modEq _ hden, hX, hY, (padd_chord h y1 y2).trans heq⟩

/-- The double of a point with an ordinate, by the slope of the tangent. -/
theorem pdbl_tangent_spec (x : Nat) {y : Nat} (h : y ≠ 0) (hy : y < Rom.p) :
    ∃ lam x3 y3 : Nat, x3 < Rom.p ∧ y3 < Rom.p ∧ lam * (2 * y) ≡ 3 * x * x + 0 [ZMOD Rom.p] ∧
      x3 ≡ lam * lam - 2 * x [ZMOD Rom.p] ∧ y3 ≡ lam * (x - x3) - y [ZMOD Rom.p] ∧
      pdbl (.aff x y) = .aff x3 y3 := by
  have := fact_p
  have hden : ((2 * (y : Int) : Int) : ZMod Rom.p) ≠ 0 := by
    push_cast
    exact mul_ne_zero two_ne_zero_p fun he => h ((cast_eq_zero_iff hy).1 he)
  obtain ⟨x3, y3, hx3, hy3, hX, hY, heq⟩ :=
    chordPoint_spec (modP ((3 * (x : Int) * x + Rom.a) * invP (2 * (y : Int)))) x y x
  rw [sub_sub, ← two_mul] at hX
  exact ⟨_, x3, y3, hx3, hy3, slope_mul_modEq _ hden, hX, hY, (pdbl_tangent x h).trans heq⟩

/-! ## The three commands -/

section

variable {c : Config.Params} {s : State} (hf : s.inFault = false)
include hf

theorem execAt_pneg (pd pa : PReg) : execAt c (.pneg pd pa) s = storedP pd (negPoint (s.readP pa)) s :=
  execAt_storedP (by simp) hf rfl

theorem execAt_padd (pd pa pb : PReg) :
    execAt c (.padd pd pa pb) s = storedP pd (padd (s.readP pa) (s.readP pb)) s :=
  execAt_storedP (by simp) hf rfl

theorem execAt_pdbl (pd pa : PReg) : execAt c (.pdbl pd pa) s = storedP pd (pdbl (s.readP pa)) s :=
  execAt_storedP (by simp) hf rfl

end

/-- Settles O42: each command stores what its point function gives, and that is one equation per case, with the slope of
the chord or the tangent where the line is not vertical (`padd_chord_spec`, `pdbl_tangent_spec`). -/
theorem chordAndTangent : Obligations.ChordAndTangent := by
  refine ofEvery fun c s pd pa pb hf => ?_
  simp only [execAt_pneg hf, execAt_padd hf, execAt_pdbl hf]
  refine ⟨fun ha => ?_, fun hb => ?_, fun x y ha _ hy => ⟨?_, fun hb => ?_, fun hy0 => ?_, fun hy0 => ?_⟩,
    fun x1 y1 x2 y2 ha hb hx1 _ hx2 _ => ⟨fun hx hy => ?_, fun hx => ?_⟩⟩
  · rw [ha]
    exact ⟨rfl, rfl, rfl⟩
  · rw [hb, padd_inf_right]
  · rw [ha, negPoint_aff x hy]
  · rw [ha, hb, padd_self]
  · rw [ha, hy0, pdbl_y_zero]
  · obtain ⟨lam, x3, y3, hx3, hy3, hlam, hX, hY, heq⟩ := pdbl_tangent_spec x hy0 hy
    exact ⟨lam, x3, y3, hx3, hy3, hlam, hX, hY, by rw [ha, heq]⟩
  · rw [ha, hb, hx, padd_vertical x2 hy]
  · obtain ⟨lam, x3, y3, hx3, hy3, hlam, hX, hY, heq⟩ := padd_chord_spec hx hx1 hx2 y1 y2
    exact ⟨lam, x3, y3, hx3, hy3, hlam, hX, hY, by rw [ha, hb, heq]⟩

end Sys2Proof.Machine
end

section
/-! PROOFS. The scalar multiplications as folds over the bit positions, and as multiples in the curve's group
(45_point_arith.md R215, R218), and the identities of R220. -/

namespace Sys2Proof.Machine

open Sys2Proof.Safety

/-! ## The scans -/

/-- The scan of R215 goes down the positions `n, …, 1`. -/
theorem pmulScan_eq_foldl (A N : Point) (h k n : Nat) (R : Point) : pmulScan A N h k n R =
    (List.range n).reverse.foldl (fun R i =>
      if h.testBit (i + 1) ≠ k.testBit (i + 1) then padd (pdbl R) (if h.testBit (i + 1) then A else N)
      else pdbl R) R := by
  induction n generalizing R with
  | zero => rfl
  | succ n ih => rw [pmulScan, ih, List.range_succ, List.reverse_append, List.reverse_singleton, List.singleton_append,
      List.foldl_cons, ite_not]

/-- The scan of R218 goes down the positions `n - 1, …, 0`. -/
theorem pmul2Scan_eq_foldl (A Q B : Point) (j k n : Nat) (R : Point) : pmul2Scan A Q B j k n R =
    (List.range n).reverse.foldl (fun R i =>
      if j.testBit i ∧ k.testBit i then padd (pdbl R) B
      else if j.testBit i then padd (pdbl R) A
      else if k.testBit i then padd (pdbl R) Q
      else pdbl R) R := by
  induction n generalizing R with
  | zero => rfl
  | succ n ih => simp only [pmul2Scan, ih, List.range_succ, List.reverse_append, List.reverse_singleton,
      List.singleton_append, List.foldl_cons, Bool.and_eq_true]

/-- A number with its highest bit at `k` has `k + 1` bits. -/
theorem bitlen_eq_succ {m k : Nat} (hlow : 2 ^ k ≤ m) (hhigh : m < 2 ^ (k + 1)) : bitlen m = k + 1 :=
  le_antisymm (bitlen_le_iff.2 hhigh) (lt_bitlen_iff.2 hlow)

/-- The higher of two bit lengths is the least common bound. -/
theorem max_bitlen_eq {j k len : Nat} (hj : j < 2 ^ len) (hk : k < 2 ^ len)
    (h : len = 0 ∨ 2 ^ (len - 1) ≤ j ∨ 2 ^ (len - 1) ≤ k) : max (bitlen j) (bitlen k) = len := by
  have hjlen := bitlen_le_iff.2 hj
  have hklen := bitlen_le_iff.2 hk
  rw [← lt_bitlen_iff, ← lt_bitlen_iff] at h
  omega

/-! ## The two commands -/

theorem pmul_of_zero_or_inf {A : Point} {k : Nat} (h : k = 0 ∨ A = .inf) : pmul A k = .inf := if_pos h

theorem pmul_of_ne {A : Point} {k : Nat} (hk : k ≠ 0) (hA : A ≠ .inf) :
    pmul A k = pmulScan A (negPoint A) (3 * k) k (bitlen (3 * k) - 2) A :=
  if_neg (not_or.2 ⟨hk, hA⟩)

/-- A negative scalar is the error of either command (R215, R218). -/
theorem scalarOperand_bind_neg {α : Type} {v : Int} (h : v < 0) (f : Nat → Except Raise α) :
    (scalarOperand v >>= f) = raise .operand 3 := by
  rw [scalarOperand_neg h]
  rfl

theorem scalarOperand_bind_natCast {α : Type} {v : Int} {k : Nat} (h : v = k) (f : Nat → Except Raise α) :
    (scalarOperand v >>= f) = f k := by
  rw [h, scalarOperand_nonneg (Int.natCast_nonneg k)]
  rfl

section

variable {c : Config.Params} {s : State} {mj mk : MReg} (hf : s.inFault = false)
include hf

theorem execAt_pmul_neg (h : s.readM mk < 0) (pd pa : PReg) : execAt c (.pmul pd pa mk) s = failed 8 3 s :=
  execAt_failed (k := .operand) (n := 3) (by simp) hf (scalarOperand_bind_neg h _)

theorem execAt_pmul {k : Nat} (h : s.readM mk = k) (pd pa : PReg) :
    execAt c (.pmul pd pa mk) s = storedP pd (pmul (s.readP pa) k) s :=
  execAt_storedP (by simp) hf (scalarOperand_bind_natCast h _)

theorem execAt_pmul2_neg (h : s.readM mj < 0 ∨ s.readM mk < 0) (pd pa pb : PReg) :
    execAt c (.pmul2 pd pa mj pb mk) s = failed 8 3 s := by
  refine execAt_failed (k := .operand) (n := 3) (by simp) hf ?_
  by_cases hj : s.readM mj < 0
  · exact scalarOperand_bind_neg hj _
  · exact (scalarOperand_bind_natCast (Int.toNat_of_nonneg (not_lt.1 hj)).symm _).trans
      (scalarOperand_bind_neg (h.resolve_left hj) _)

theorem execAt_pmul2 {j k : Nat} (hj : s.readM mj = j) (hk : s.readM mk = k) (pd pa pb : PReg) :
    execAt c (.pmul2 pd pa mj pb mk) s = storedP pd (pmul2 (s.readP pa) j (s.readP pb) k) s :=
  execAt_storedP (by simp) hf ((scalarOperand_bind_natCast hj _).trans (scalarOperand_bind_natCast hk _))

end

/-- Settles O43: the recursion of the scan is the fold (`pmulScan_eq_foldl`), from the bit length that the two bounds on
`3k` fix (`bitlen_eq_succ`). -/
theorem scalarMultiplyScan : Obligations.ScalarMultiplyScan := by
  refine ofEvery fun c s pd pa mk hf => ⟨fun h => execAt_pmul_neg hf h pd pa, fun k hk h => ?_,
    fun k len hk hk0 hA hlow hhigh => ?_⟩
  · rw [execAt_pmul hf hk, pmul_of_zero_or_inf h]
  · rw [execAt_pmul hf hk, pmul_of_ne hk0 hA, bitlen_eq_succ hlow hhigh, pmulScan_eq_foldl]
    rfl

/-- Settles O44: the recursion of the joint scan is the fold (`pmul2Scan_eq_foldl`), from the higher bit length
(`max_bitlen_eq`). -/
theorem doubleScalarScan : Obligations.DoubleScalarScan := by
  refine ofEvery fun c s pd pa pb mj mk hf => ⟨fun h => execAt_pmul2_neg hf h pd pa pb,
    fun j k len hj hk hjlen hklen htop => ?_⟩
  rw [execAt_pmul2 hf hj hk, pmul2, max_bitlen_eq hjlen hklen htop, pmul2Scan_eq_foldl]

/-! ## Multiples in the curve's group -/

/-- Horner's rule on the bits: dropping one bit less doubles the number and adds that bit. -/
theorem div_two_pow_eq_bit (n i : Nat) : n / 2 ^ i = 2 * (n / 2 ^ (i + 1)) + (n.testBit i).toNat := by
  rw [Nat.toNat_testBit, pow_succ, ← Nat.div_div_eq_div_mul]
  exact (Nat.div_add_mod _ 2).symm

section

variable [Fact (Nat.Prime Rom.p)] {A N Q B R : Point} {U V X : curveE.Point} (hA : Represents A U)
include hA

/-- One turn of the scan of R215 adds the digit `hb - kb` to the double. -/
theorem represents_signedDigit (hN : Represents N (-U)) (hR : Represents R X) (hb kb : Bool) :
    Represents (if hb = kb then pdbl R else padd (pdbl R) (if hb then A else N))
      (X + X + ((hb.toNat : ℤ) - kb.toNat) • U) := by
  have hD := represents_pdbl hR
  cases hb <;> cases kb
  · simpa using hD
  · simpa using represents_padd hD hN
  · simpa using represents_padd hD hA
  · simpa using hD

/-- The accumulator of R215 over the positions from `i + 1` on stands for `h / 2^(i+1) - k / 2^(i+1)`. -/
theorem represents_pmulScan (hN : Represents N (-U)) {h k i : Nat}
    (hR : Represents R (((h / 2 ^ (i + 1) : Nat) - (k / 2 ^ (i + 1) : Nat) : ℤ) • U)) :
    Represents (pmulScan A N h k i R) (((h / 2 : Nat) - (k / 2 : Nat) : ℤ) • U) := by
  induction i generalizing R with
  | zero => simpa [pmulScan] using hR
  | succ i ih =>
    rw [pmulScan]
    apply ih
    have hstep := represents_signedDigit hA hN hR (h.testBit (i + 1)) (k.testBit (i + 1))
    rw [div_two_pow_eq_bit h (i + 1), div_two_pow_eq_bit k (i + 1)]
    convert hstep using 1
    push_cast
    module

/-- `multiply` gives the group multiple: `(3k - k) / 2 = k`. -/
theorem represents_pmul (k : Nat) : Represents (pmul A k) (k • U) := by
  by_cases h : k = 0 ∨ A = .inf
  · rw [pmul_of_zero_or_inf h]
    rcases h with rfl | rfl
    · exact zero_nsmul U
    · obtain rfl : U = .zero := hA
      exact nsmul_zero k
  · obtain ⟨hk, hinf⟩ := not_or.1 h
    have hlen : 2 ≤ bitlen (3 * k) := lt_bitlen_iff.2 (by omega)
    obtain ⟨len, hlen⟩ := Nat.exists_eq_add_of_le' hlen
    have hlow : 2 ^ (len + 1) ≤ 3 * k := lt_bitlen_iff.1 (by omega)
    have hhigh : 3 * k < 2 * 2 ^ (len + 1) := by
      rw [← pow_succ', ← hlen]
      exact lt_two_pow_bitlen _
    have htop : 3 * k / 2 ^ (len + 1) = 1 := Nat.div_eq_of_lt_le (by omega) (by omega)
    have hnone : k / 2 ^ (len + 1) = 0 := Nat.div_eq_of_lt (by omega)
    rw [pmul_of_ne hk hinf, hlen, Nat.add_sub_cancel]
    have hscan := represents_pmulScan (h := 3 * k) (k := k) (i := len) (R := A) hA (represents_negPoint hA)
      (by rw [htop, hnone]; simpa using hA)
    rwa [show ((3 * k / 2 : Nat) - (k / 2 : Nat) : ℤ) = k by omega, natCast_zsmul] at hscan

variable (hQ : Represents Q V) (hB : Represents B (U + V))
include hQ hB

/-- One turn of the scan of R218 adds the two bits' multiples to the double. -/
theorem represents_jointBits (hR : Represents R X) (jb kb : Bool) :
    Represents (if jb && kb then padd (pdbl R) B else if jb then padd (pdbl R) A else if kb then padd (pdbl R) Q
      else pdbl R) (X + X + (jb.toNat • U + kb.toNat • V)) := by
  have hD := represents_pdbl hR
  cases jb <;> cases kb
  · simpa using hD
  · simpa using represents_padd hD hQ
  · simpa using represents_padd hD hA
  · simpa using represents_padd hD hB

/-- The accumulator of R218 over the positions from `i` on stands for `[j / 2^i]P + [k / 2^i]Q`. -/
theorem represents_pmul2Scan {j k i : Nat} (hR : Represents R ((j / 2 ^ i) • U + (k / 2 ^ i) • V)) :
    Represents (pmul2Scan A Q B j k i R) (j • U + k • V) := by
  induction i generalizing R with
  | zero => simpa [pmul2Scan] using hR
  | succ i ih =>
    rw [pmul2Scan]
    apply ih
    have hstep := represents_jointBits hA hQ hB hR (j.testBit i) (k.testBit i)
    rw [div_two_pow_eq_bit j i, div_two_pow_eq_bit k i]
    convert hstep using 1
    module

omit hB in
/-- `multiplyTwo` gives the sum of the group multiples. -/
theorem represents_pmul2 (j k : Nat) : Represents (pmul2 A j Q k) (j • U + k • V) := by
  refine represents_pmul2Scan hA hQ (represents_padd hA hQ) ?_
  have hj : j < 2 ^ max (bitlen j) (bitlen k) := bitlen_le_iff.1 (le_max_left _ _)
  have hk : k < 2 ^ max (bitlen j) (bitlen k) := bitlen_le_iff.1 (le_max_right _ _)
  rw [Nat.div_eq_of_lt hj, Nat.div_eq_of_lt hk, zero_nsmul, zero_nsmul, add_zero]
  rfl

end

/-- Settles O46: the commands store what the two functions give, and that represents the multiples (`represents_pmul`,
`represents_pmul2`). -/
theorem scalarMultiples : Obligations.ScalarMultiples := by
  refine ofEvery fun c => ?_
  intro _
  exact ⟨fun s pd pa mk U k hf hU hk => ⟨_, execAt_pmul hf hk pd pa, represents_pmul hU k⟩,
    fun s pd pa pb mj mk U V j k hf hU hV hj hk => ⟨_, execAt_pmul2 hf hj hk pd pa pb, represents_pmul2 hU hV j k⟩⟩

/-! ## The identities of R220 -/

/-- `P + (-P) = Inf` for every canonical pair: the chord is vertical, or `y = 0` and the tangent is. -/
theorem padd_negPoint {A : Point} (h : CanonicalPoint A) : padd A (negPoint A) = .inf := by
  cases A with
  | inf => rfl
  | aff x y =>
    obtain ⟨-, hy⟩ := h
    rw [negPoint_aff x hy]
    by_cases hsame : y = (Rom.p - y) % Rom.p
    · have hy0 : y = 0 := by
        by_contra hy0
        rw [Nat.mod_eq_of_lt (by omega)] at hsame
        obtain ⟨m, hm⟩ := odd_p
        omega
      subst hy0
      rw [← hsame, padd_self, pdbl_y_zero]
    · exact padd_vertical x hsame

/-- A stored point leads to a state without a new fault, in which the one register holds the point and the others what they
held. -/
theorem storedP_next (pd : PReg) (A : Point) (s : State) :
    ∃ t, storedP pd A s = .next t ∧ t.inFault = s.inFault ∧ t.readP pd = A ∧ ∀ r, pd ≠ r → t.readP r = s.readP r :=
  ⟨_, rfl, rfl, Engine.readP_writeP_same s.toEngine pd A, fun _ hr => Engine.readP_writeP_ne s.toEngine hr A⟩

/-- Settles O47: the second command runs on the state that the first one left (`storedP_next`, `storedM_next`). -/
theorem pointIdentities : Obligations.PointIdentities := by
  refine ofEvery fun c s pd pa pb hf hcan hne => ⟨?_, ?_, fun mk => ?_⟩
  · obtain ⟨t, ht, htf, hread, hframe⟩ := storedP_next pb .inf s
    refine ⟨t, (execAt_pinf hf pb).trans ht, ?_⟩
    rw [execAt_padd (htf.trans hf), hread, hframe pa hne.symm, padd_inf_right]
  · obtain ⟨t, ht, htf, hread, hframe⟩ := storedP_next pb (negPoint (s.readP pa)) s
    refine ⟨t, (execAt_pneg hf pb pa).trans ht, ?_⟩
    rw [execAt_padd (htf.trans hf), hread, hframe pa hne.symm, padd_negPoint hcan]
  · obtain ⟨t, ht, htf, hread, -⟩ := storedM_next mk (signedImm 0) s
    refine ⟨t, (execAt_ldi c mk 0 hf).trans ht, ?_⟩
    rw [execAt_pmul (htf.trans hf) (k := 0) hread, pmul_of_zero_or_inf (.inl rfl)]

end Sys2Proof.Machine
end

section
/-! PROOFS. Projective triples and the values they stand for: equality, scaling, addition and doubling
(45_point_arith.md R208, R212, R214, R222, R223). -/

namespace Sys2Proof.Machine.Datapath

open Sys2Proof.Safety

/-! ## The affine coordinates of a triple -/

/-- `X * inv(Z)` (10_state.md R27). -/
def Triple.affineX (t : Triple) : Nat := modP ((t.x : Int) * invP t.z)

/-- `Y * inv(Z)` (10_state.md R27). -/
def Triple.affineY (t : Triple) : Nat := modP ((t.y : Int) * invP t.z)

theorem Triple.point_eq (t : Triple) : t.point = .aff t.affineX t.affineY := rfl

theorem Triple.affineX_lt (t : Triple) : t.affineX < Rom.p := modP_lt _

theorem Triple.affineY_lt (t : Triple) : t.affineY < Rom.p := modP_lt _

theorem Triple.Stored.cast_z_ne_zero {t : Triple} (h : t.Stored) : (t.z : ZMod Rom.p) ≠ 0 := by
  obtain ⟨-, -, hlt, hne⟩ := h
  rwa [Ne, cast_eq_zero_iff hlt]

section

variable [Fact (Nat.Prime Rom.p)]

@[simp] theorem Triple.cast_affineX (t : Triple) : (t.affineX : ZMod Rom.p) = t.x / t.z := by
  simp [affineX, cast_invP, div_eq_mul_inv]

@[simp] theorem Triple.cast_affineY (t : Triple) : (t.affineY : ZMod Rom.p) = t.y / t.z := by
  simp [affineY, cast_invP, div_eq_mul_inv]

/-- The value of a triple is the canonical pair that its quotients are in the field. -/
theorem Triple.point_eq_aff_iff (t : Triple) {x y : Nat} (hx : x < Rom.p) (hy : y < Rom.p) :
    t.point = .aff x y ↔ (t.x / t.z : ZMod Rom.p) = x ∧ (t.y / t.z : ZMod Rom.p) = y := by
  rw [point_eq, Point.aff.injEq, ← cast_affineX, ← cast_affineY]
  exact and_congr ⟨congrArg _, eq_of_cast_eq t.affineX_lt hx⟩ ⟨congrArg _, eq_of_cast_eq t.affineY_lt hy⟩

end

/-! ## Equality and scaling (R208, R222) -/

@[simp] theorem cast_crossX (P Q : Triple) : (crossX P Q : ZMod Rom.p) = Q.x * P.z - P.x * Q.z := by simp [crossX]

@[simp] theorem cast_crossY (P Q : Triple) : (crossY P Q : ZMod Rom.p) = Q.y * P.z - P.y * Q.z := by simp [crossY]

theorem cast_crossX_eq_zero_iff (P Q : Triple) : (crossX P Q : ZMod Rom.p) = 0 ↔ crossX P Q = 0 :=
  cast_eq_zero_iff (modP_lt _)

theorem cast_crossY_eq_zero_iff (P Q : Triple) : (crossY P Q : ZMod Rom.p) = 0 ↔ crossY P Q = 0 :=
  cast_eq_zero_iff (modP_lt _)

/-- Cross-multiplication decides whether two triples stand for one value. -/
theorem point_eq_iff_cross {P Q : Triple} (hP : P.Stored) (hQ : Q.Stored) :
    P.point = Q.point ↔ crossX P Q = 0 ∧ crossY P Q = 0 := by
  have := fact_p
  have hPz := hP.cast_z_ne_zero
  have hQz := hQ.cast_z_ne_zero
  rw [Q.point_eq, P.point_eq_aff_iff Q.affineX_lt Q.affineY_lt, Q.cast_affineX, Q.cast_affineY,
    div_eq_div_iff hPz hQz, div_eq_div_iff hPz hQz, ← cast_crossX_eq_zero_iff, ← cast_crossY_eq_zero_iff, cast_crossX,
    cast_crossY, sub_eq_zero, sub_eq_zero]
  exact and_congr eq_comm eq_comm

/-- A triple of reduced coordinates may be stored when its `Z` is not 0 in the field. -/
theorem stored_modP {x y z : Int} (h : (z : ZMod Rom.p) ≠ 0) : Triple.Stored ⟨modP x, modP y, modP z⟩ := by
  refine ⟨modP_lt _, modP_lt _, modP_lt _, fun h0 => h ?_⟩
  rw [← cast_modP, show modP z = 0 from h0, Nat.cast_zero]

section

variable {P : Triple} (hP : P.Stored) {c : Nat} (hc : ¬ Rom.p ∣ c)
include hP hc

theorem scale_stored : (P.scale c).Stored := by
  have := fact_p
  refine stored_modP ?_
  push_cast
  exact mul_ne_zero (by rwa [Ne, ZMod.natCast_eq_zero_iff]) hP.cast_z_ne_zero

theorem scale_point : (P.scale c).point = P.point := by
  refine (point_eq_iff_cross (scale_stored hP hc) hP).2 ⟨?_, ?_⟩
  · rw [← cast_crossX_eq_zero_iff, cast_crossX]
    simp only [Triple.scale, cast_modP]
    push_cast
    ring
  · rw [← cast_crossY_eq_zero_iff, cast_crossY]
    simp only [Triple.scale, cast_modP]
    push_cast
    ring

end

/-! ## Addition and doubling (R212, R214, R223) -/

/-- A triple stands for the third point of a line when its quotients satisfy the line's two equations. -/
theorem point_eq_chordPoint [Fact (Nat.Prime Rom.p)] {t : Triple} {lam x1 y1 x2 : Nat}
    (hx : (t.x / t.z : ZMod Rom.p) = lam * lam - x1 - x2) (hy : (t.y / t.z : ZMod Rom.p) = lam * (x1 - t.x / t.z) - y1) :
    t.point = chordPoint lam x1 y1 x2 := by
  refine (t.point_eq_aff_iff (modP_lt _) (modP_lt _)).2 ⟨?_, ?_⟩
  · rw [hx, cast_modP]
    push_cast
    rfl
  · rw [hy, hx, cast_modP]
    push_cast [cast_modP]
    rfl

section

variable {P Q : Triple} (hP : P.Stored) (hQ : Q.Stored)
include hP hQ

/-- The difference of the abscissas, over the common denominator. -/
theorem affineX_sub [Fact (Nat.Prime Rom.p)] :
    (Q.affineX - P.affineX : ZMod Rom.p) = crossX P Q / (P.z * Q.z) := by
  have hPz := hP.cast_z_ne_zero
  have hQz := hQ.cast_z_ne_zero
  rw [Q.cast_affineX, P.cast_affineX, cast_crossX]
  field_simp

theorem affineY_sub [Fact (Nat.Prime Rom.p)] :
    (Q.affineY - P.affineY : ZMod Rom.p) = crossY P Q / (P.z * Q.z) := by
  have hPz := hP.cast_z_ne_zero
  have hQz := hQ.cast_z_ne_zero
  rw [Q.cast_affineY, P.cast_affineY, cast_crossY]
  field_simp

/-- The slope of the chord is `u / v`. -/
theorem cast_chordSlope [Fact (Nat.Prime Rom.p)] :
    (modP (((Q.affineY : Int) - P.affineY) * invP ((Q.affineX : Int) - P.affineX)) : ZMod Rom.p) =
      crossY P Q / crossX P Q := by
  push_cast [cast_modP, cast_invP]
  rw [affineX_sub hP hQ, affineY_sub hP hQ, ← div_eq_mul_inv,
    div_div_div_cancel_right₀ (mul_ne_zero hP.cast_z_ne_zero hQ.cast_z_ne_zero)]

variable (hv : crossX P Q ≠ 0)
include hv

theorem projAdd_stored : (projAdd P Q).Stored := by
  have := fact_p
  have hvF : (crossX P Q : ZMod Rom.p) ≠ 0 := mt (cast_crossX_eq_zero_iff P Q).1 hv
  refine stored_modP ?_
  push_cast
  exact mul_ne_zero (mul_ne_zero (mul_ne_zero (mul_ne_zero hvF hvF) hvF) hP.cast_z_ne_zero) hQ.cast_z_ne_zero

theorem projAdd_point : (projAdd P Q).point = padd P.point Q.point := by
  have := fact_p
  have hPz := hP.cast_z_ne_zero
  have hQz := hQ.cast_z_ne_zero
  have hvF : (crossX P Q : ZMod Rom.p) ≠ 0 := mt (cast_crossX_eq_zero_iff P Q).1 hv
  have hsub := affineX_sub hP hQ
  have hne : P.affineX ≠ Q.affineX := by
    intro h
    rw [h, sub_self] at hsub
    exact div_ne_zero hvF (mul_ne_zero hPz hQz) hsub.symm
  rw [P.point_eq, Q.point_eq, padd_chord hne]
  apply point_eq_chordPoint
  · rw [cast_chordSlope hP hQ, sub_eq_iff_eq_add.1 hsub, P.cast_affineX]
    simp only [projAdd, cast_modP]
    push_cast
    field_simp
    ring
  · rw [cast_chordSlope hP hQ, P.cast_affineX, P.cast_affineY]
    simp only [projAdd, cast_modP]
    push_cast
    field_simp
    ring

end

theorem eight_ne_zero_p : (8 : ZMod Rom.p) ≠ 0 := by
  have := fact_p
  rw [show (8 : ZMod Rom.p) = 2 ^ 3 by norm_num]
  exact pow_ne_zero 3 two_ne_zero_p

section

variable {P : Triple} (hP : P.Stored) (hy : P.y ≠ 0)
include hP hy

theorem cast_y_ne_zero : (P.y : ZMod Rom.p) ≠ 0 := by
  obtain ⟨-, hlt, -, -⟩ := hP
  exact mt (cast_eq_zero_iff hlt).1 hy

theorem projDbl_stored : (projDbl P).Stored := by
  have := fact_p
  have hyz := mul_ne_zero (cast_y_ne_zero hP hy) hP.cast_z_ne_zero
  refine stored_modP ?_
  push_cast
  exact mul_ne_zero (mul_ne_zero (mul_ne_zero eight_ne_zero_p hyz) hyz) hyz

theorem projDbl_point : (projDbl P).point = pdbl P.point := by
  have := fact_p
  have hPz := hP.cast_z_ne_zero
  have hyF := cast_y_ne_zero hP hy
  have h2 := two_ne_zero_p
  have h8 := eight_ne_zero_p
  have hne : P.affineY ≠ 0 := by
    intro h
    have hcast := congrArg (Nat.cast : Nat → ZMod Rom.p) h
    rw [P.cast_affineY, Nat.cast_zero] at hcast
    exact div_ne_zero hyF hPz hcast
  have hslope : (modP ((3 * (P.affineX : Int) * P.affineX + Rom.a) * invP (2 * (P.affineY : Int))) : ZMod Rom.p) =
      3 * P.x * P.x / (2 * (P.y * P.z)) := by
    push_cast [cast_modP, cast_invP, P.cast_affineX, P.cast_affineY, Rom.a]
    field_simp
    ring
  rw [P.point_eq, pdbl_tangent _ hne]
  apply point_eq_chordPoint
  · rw [hslope, P.cast_affineX]
    simp only [projDbl, cast_modP]
    push_cast [Rom.a]
    field_simp
    ring
  · rw [hslope, P.cast_affineX, P.cast_affineY]
    simp only [projDbl, cast_modP]
    push_cast [Rom.a]
    field_simp
    ring

end

/-- Settles O60: in the field the coordinates of a value are quotients (`point_eq_aff_iff`), and the projective formulas are
the affine ones over a common denominator (`projAdd_point`, `projDbl_point`). -/
theorem projectiveFormulas : Obligations.ProjectiveFormulas := fun _ _ hP hQ =>
  ⟨fun hv => ⟨projAdd_stored hP hQ hv, projAdd_point hP hQ hv⟩, fun hy => ⟨projDbl_stored hP hy, projDbl_point hP hy⟩,
    point_eq_iff_cross hP hQ, fun _ hc => ⟨scale_stored hP hc, scale_point hP hc⟩⟩

end Sys2Proof.Machine.Datapath
end

section
/-! PROOFS. Point encodings (46_point_codec.md R240 to R246). -/

namespace Sys2Proof.Machine

open Sys2Proof.Safety

/-! ## Encoding (R240) -/

/-- The bytes of a canonical coordinate stand for it: `p < 2^256`. -/
theorem beValue_coordBytes {v : Nat} (h : v < Rom.p) : beValue (beBytes coordBytes v) = v := by
  have hlt : v < 256 ^ coordBytes := h.trans ((romValue_lt .p).trans_eq (by norm_num [coordBytes]))
  rw [beValue_beBytes, Nat.mod_eq_of_lt hlt]

theorem beSum_coordBytes {v : Nat} (h : v < Rom.p) : beSum (beBytes coordBytes v) = v :=
  (beSum_eq_beValue _).trans (beValue_coordBytes h)

section
variable {c : Config.Params} {s : State} {pa : PReg} (hf : s.inFault = false)
include hf

theorem execAt_penc_inf (h : s.readP pa = .inf) (z : Bool) (arg : BufArg) :
    execAt c (.penc pa z arg) s = failed 8 2 s :=
  execAt_failed (k := .operand) (n := 2) (by simp) hf
    (by simp only [body, bodyPenc, Engine.countCommand_readP, h, affineOperand_bind_inf])

theorem execAt_penc {x y : Nat} (h : s.readP pa = .aff x y) (z : Bool) (arg : BufArg) :
    Wrote c arg (sec1Bytes z x y) s (execAt c (.penc pa z arg) s) :=
  execAt_wrote (by simp) hf
    (by simp only [body, bodyPenc, Engine.countCommand_readP, h, affineOperand_bind_aff])

end

/-- Settles O48: the output is `sec1Bytes` (`execAt_penc`), which spells each coordinate in `coordBytes` bytes. -/
theorem encodePoints : Obligations.EncodePoints := by
  refine ofEvery fun c s pa arg hf => ⟨fun h z => execAt_penc_inf hf h z arg, fun x y h hx hy =>
    ⟨beBytes coordBytes x, beBytes coordBytes y, beBytes_length .., beBytes_length .., beSum_coordBytes hx,
      beSum_coordBytes hy, ?_, ?_⟩⟩
  · exact execAt_penc hf h false arg
  · exact execAt_penc hf h true arg

/-! ## The decoder (R242) -/

/-- How a decoding command ends: the point stored, or the error of the decoder taken. -/
def decoderOutcome (pd : PReg) (r : Except Raise Point) (s : State) : Outcome :=
  match r with
  | .ok A => storedP pd A s
  | .error e => failed e.kind.code e.info s

/-- A command whose pseudocode ends with the decoder and one `P[pd] <- A` ends as the decoder does. -/
theorem execAt_decoderOutcome {c : Config.Params} {i : Instr} {s : State} {pd : PReg} {r : Except Raise Point}
    (hi : i ≠ .clrerr) (hf : s.inFault = false)
    (h : body i c s.countCommand = r >>= fun A => .ok (s.countCommand.writeP pd A)) :
    execAt c i s = decoderOutcome pd r s := by
  cases r with
  | ok A => exact execAt_storedP hi hf h
  | error e =>
    rw [execAt_eq_runCommand c hi, runCommand_error hf h]
    rfl

/-- A decoding command that did not fail left the decoded point in its register. -/
theorem readP_of_decoderOutcome {pd : PReg} {r : Except Raise Point} {s t : State}
    (h : decoderOutcome pd r s = .next t) (hf : t.inFault = false) : r = .ok (t.readP pd) := by
  cases r with
  | ok A =>
    cases h
    exact congrArg Except.ok (Engine.readP_writeP_same s.toEngine pd A).symm
  | error e => simp [inFault_of_failed h.symm] at hf

/-- The decoder makes the tests that R242 writes down. -/
theorem decoderOutcome_decodePoint (pd : PReg) (e : List Byte) (s : State) :
    decoderOutcome pd (decodePoint e) s = decodedPoint pd e s := by
  cases e with
  | nil => rfl
  | cons lead ds =>
    simp only [decodePoint, decodeCoords, apply_ite (fun r => decoderOutcome pd r s), decodedPoint, beSum_eq_beValue,
      List.getD_cons_zero, List.length_cons, Nat.add_sub_cancel, List.drop_succ_cons, List.drop_zero, Nat.add_comm 1,
      Nat.succ_ne_zero, if_false, Nat.add_eq_right, ne_eq, ← BitVec.toNat_inj]
    rfl

section
variable {c : Config.Params} {s : State} {arg : BufArg} (hf : s.inFault = false)
include hf

theorem execAt_pdec_outside (h : ¬ InBuf c arg) (pd : PReg) : execAt c (.pdec pd arg) s = failed 7 1 s :=
  execAt_failed (k := .bufferRange) (by simp) hf (inputBytes_bind_outside h _ _)

theorem execAt_pdec (h : InBuf c arg) (pd : PReg) :
    execAt c (.pdec pd arg) s = decoderOutcome pd (decodePoint (bytesAt s arg)) s :=
  execAt_decoderOutcome (by simp) hf (inputBytes_bind_inBuf h s _)

end

/-- Settles O49: `PDEC` ends as the decoder does on its bytes (`execAt_pdec`), and the decoder is R242's
(`decoderOutcome_decodePoint`). -/
theorem decodePoints : Obligations.DecodePoints := by
  refine ofEvery fun c s pd arg hf => ⟨fun h => execAt_pdec_outside hf h pd, fun h => ?_⟩
  rw [execAt_pdec hf h, decoderOutcome_decodePoint]

theorem length_bytesAt (s : State) (arg : BufArg) : (bytesAt s arg).length = arg.len.toNat := by simp [bytesAt]

/-! ## Hex digits (R245) -/

/-- An odd number of digits is `ParseError(3)`, whatever they are. -/
theorem hexBytes_odd {cs : List Byte} (h : cs.length % 2 = 1) : hexBytes cs = raise .parse 3 := if_pos h

/-- A pair counts only where both its bytes are digits and the pairs behind it count. -/
theorem hexPairs_cons_cons_eq_none {hi lo : Byte} {rest : List Byte}
    (h : digitOf 16 hi = none ∨ digitOf 16 lo = none ∨ hexPairs rest = none) : hexPairs (hi :: lo :: rest) = none := by
  rw [hexPairs]
  split
  · rename_i hhi hlo hrest
    simp [hhi, hlo, hrest] at h
  · rfl

/-- A byte that is no hex digit is `ParseError(2)`. -/
theorem hexPairs_eq_none : ∀ {cs : List Byte}, cs.length % 2 = 0 → (∃ b ∈ cs, digitOf 16 b = none) → hexPairs cs = none
  | [], _, h => by simp at h
  | [_], heven, _ => by simp at heven
  | hi :: lo :: rest, heven, ⟨b, hb, hbad⟩ => by
    refine hexPairs_cons_cons_eq_none ?_
    simp only [List.mem_cons] at hb
    rcases hb with rfl | rfl | hb
    · exact .inl hbad
    · exact .inr (.inl hbad)
    · exact .inr (.inr (hexPairs_eq_none (by simpa [Nat.add_assoc] using heven) ⟨b, hb, hbad⟩))

theorem hexBytes_bad_digit {cs : List Byte} (heven : cs.length % 2 = 0)
    (h : ∃ b ∈ cs, ∀ x, digitVal b = some x → 15 < x) : hexBytes cs = raise .parse 2 := by
  obtain ⟨b, hb, hbad⟩ := h
  rw [hexBytes, if_neg (by omega), hexPairs_eq_none heven ⟨b, hb, digitOf_eq_none hbad⟩]

/-- Two digits make a byte. -/
theorem hexPairs_of_digits {xs : List (Nat × Nat)} {cs : List Byte} (hlt : ∀ x ∈ xs, x.1 ≤ 15 ∧ x.2 ≤ 15)
    (h : cs.map digitVal = xs.flatMap fun x => [some x.1, some x.2]) :
    hexPairs cs = some (xs.map fun x => BitVec.ofNat 8 (16 * x.1 + x.2)) := by
  induction xs generalizing cs with
  | nil =>
    rw [List.map_eq_nil_iff.1 h]
    rfl
  | cons x xs ih =>
    obtain ⟨hi, cs, rfl, hhi, h⟩ := List.map_eq_cons_iff.1 h
    obtain ⟨lo, rest, rfl, hlo, hrest⟩ := List.map_eq_cons_iff.1 h
    obtain ⟨h1, h2⟩ := hlt x List.mem_cons_self
    rw [hexPairs, digitOf_of_digitVal hhi (by omega), digitOf_of_digitVal hlo (by omega),
      ih (fun y hy => hlt y (List.mem_cons_of_mem x hy)) hrest]
    rfl

/-- A string of digits has as many bytes as pairs. -/
theorem hexBytes_of_digits {xs : List (Nat × Nat)} {cs : List Byte} (hlt : ∀ x ∈ xs, x.1 ≤ 15 ∧ x.2 ≤ 15)
    (h : cs.map digitVal = xs.flatMap fun x => [some x.1, some x.2]) :
    hexBytes cs = .ok (xs.map fun x => BitVec.ofNat 8 (16 * x.1 + x.2)) := by
  have hlen : cs.length = 2 * xs.length := by
    have := congrArg List.length h
    simpa [List.length_flatMap, mul_comm] using this
  rw [hexBytes, if_neg (by omega), hexPairs_of_digits hlt h]

section
variable {c : Config.Params} {s : State} {arg : BufArg} (hf : s.inFault = false)
include hf

theorem execAt_pdechex_outside (h : ¬ InBuf c arg) (pd : PReg) : execAt c (.pdechex pd arg) s = failed 7 1 s :=
  execAt_failed (k := .bufferRange) (by simp) hf (inputBytes_bind_outside h _ _)

theorem execAt_pdechex (h : InBuf c arg) (pd : PReg) :
    execAt c (.pdechex pd arg) s = decoderOutcome pd (hexBytes (bytesAt s arg) >>= decodePoint) s :=
  execAt_decoderOutcome (by simp) hf ((inputBytes_bind_inBuf h s _).trans (bind_assoc ..).symm)

end

/-- Settles O50: the bytes that the digits stand for (`hexBytes_odd`, `hexBytes_bad_digit`, `hexBytes_of_digits`) go to the
decoder of R242 (`execAt_pdechex`, `decoderOutcome_decodePoint`). -/
theorem decodeHexPoints : Obligations.DecodeHexPoints := by
  refine ofEvery fun c s pd arg hf => ⟨fun h => execAt_pdechex_outside hf h pd, fun h hodd => ?_, fun h heven hbad => ?_,
    fun h xs hlt hxs => ?_⟩
  · rw [execAt_pdechex hf h, hexBytes_odd (by rwa [length_bytesAt])]
    rfl
  · rw [execAt_pdechex hf h, hexBytes_bad_digit (by rwa [length_bytesAt]) hbad]
    rfl
  · rw [execAt_pdechex hf h, hexBytes_of_digits hlt hxs]
    exact decoderOutcome_decodePoint ..

/-! ## Round trips (R246) -/

/-- A command that wrote its output and did not fail answered its length, and left every point register. -/
theorem res_and_readP_of_wrote {c : Config.Params} {arg : BufArg} {out : List Byte} {s t : State}
    (h : Wrote c arg out s (.next t)) (hf : t.inFault = false) :
    t.res = BitVec.ofNat 32 out.length ∧ ∀ r, t.readP r = s.readP r := by
  unfold Wrote at h
  split_ifs at h with hroom hin
  · simp [inFault_of_failed h] at hf
  · simp [inFault_of_failed h] at hf
  · obtain ⟨buf, ht, -⟩ := h
    cases ht
    exact ⟨rfl, fun _ => rfl⟩

/-- Two halves of one length, each of a canonical value, are the two coordinates. -/
theorem decodeCoords_append {xs ys : List Byte} (hlen : xs.length = ys.length) (hpos : ys.length ≠ 0)
    (hx : beValue xs < Rom.p) (hy : beValue ys < Rom.p) :
    decodeCoords (xs ++ ys) = .ok (.aff (beValue xs) (beValue ys)) := by
  have hhalf : (xs ++ ys).length / 2 = xs.length := by rw [List.length_append]; omega
  rw [decodeCoords, if_neg (by rw [List.length_append]; omega), hhalf, List.take_left, List.drop_left]
  exact if_neg (by omega)

/-- The lead byte `04` is followed by the two coordinates. -/
theorem decodePoint_uncompressed (ds : List Byte) : decodePoint (0x04 :: ds) = decodeCoords ds := by simp [decodePoint]

/-- The decoder reads the canonical form back. -/
theorem decodePoint_sec1Bytes {x y : Nat} (hx : x < Rom.p) (hy : y < Rom.p) :
    decodePoint (sec1Bytes false x y) = .ok (.aff x y) := by
  have hcoords := decodeCoords_append (xs := beBytes coordBytes x) (ys := beBytes coordBytes y) (by simp)
    (by simp [coordBytes]) (by rwa [beValue_coordBytes hx]) (by rwa [beValue_coordBytes hy])
  rw [beValue_coordBytes hx, beValue_coordBytes hy] at hcoords
  exact (decodePoint_uncompressed _).trans hcoords

/-- The first half of the bytes behind the lead byte, which the decoder reads `x` from. -/
def xHalf (e : List Byte) : List Byte := (e.drop 1).take ((e.length - 1) / 2)

/-- The second half, which it reads `y` from. -/
def yHalf (e : List Byte) : List Byte := e.drop (1 + (e.length - 1) / 2)

/-- A finite decoded point has the values of the two halves as its coordinates. -/
theorem coords_of_decodePoint {e : List Byte} {x y : Nat} (h : decodePoint e = .ok (.aff x y)) :
    x = beValue (xHalf e) ∧ y = beValue (yHalf e) := by
  cases e with
  | nil => cases h
  | cons lead ds =>
    simp only [decodePoint, decodeCoords] at h
    split_ifs at h <;> cases h
    rw [xHalf, yHalf, Nat.add_comm 1]
    exact ⟨rfl, rfl⟩

/-- An encoding of 65 bytes with lead byte `04` is the canonical form of its halves. -/
theorem sec1Bytes_halves {e : List Byte} (hlen : e.length = 65) (hhead : e.head? = some 0x04) :
    sec1Bytes false (beValue (xHalf e)) (beValue (yHalf e)) = e := by
  obtain ⟨ds, rfl⟩ := List.head?_eq_some_iff.1 hhead
  have hx : (xHalf (0x04 :: ds)).length = coordBytes := by rw [xHalf, List.length_take, List.length_drop, hlen]; rfl
  have hy : (yHalf (0x04 :: ds)).length = coordBytes := by rw [yHalf, List.length_drop, hlen]; rfl
  have hsplit : xHalf (0x04 :: ds) ++ yHalf (0x04 :: ds) = ds := by
    rw [xHalf, yHalf, Nat.add_comm 1]
    exact List.take_append_drop ..
  rw [sec1Bytes, if_neg Bool.false_ne_true, ← hx, beBytes_beValue, hx, ← hy, beBytes_beValue, hsplit]

/-- A `PDEC` that did not fail left in its register the point that its bytes stand for. -/
theorem decodePoint_of_pdec {c : Config.Params} {s t : State} {pd : PReg} {arg : BufArg} (hf : s.inFault = false)
    (ht : execAt c (.pdec pd arg) s = .next t) (hft : t.inFault = false) :
    decodePoint (bytesAt s arg) = .ok (t.readP pd) := by
  by_cases hin : InBuf c arg
  · rw [execAt_pdec hf hin] at ht
    exact readP_of_decoderOutcome ht hft
  · rw [execAt_pdec_outside hf hin] at ht
    simp [inFault_of_failed ht.symm] at hft

/-- A `PENC` of a canonical finite point that did not fail answered 65, left the point registers, and left bytes that `PDEC`
reads as the point. -/
theorem pdec_of_penc {c : Config.Params} {s t : State} {pa : PReg} {arg : BufArg} {x y : Nat} (hf : s.inFault = false)
    (hread : s.readP pa = .aff x y) (hx : x < Rom.p) (hy : y < Rom.p)
    (ht : execAt c (.penc pa false arg) s = .next t) (hft : t.inFault = false) :
    t.res = 65 ∧ (∀ r, t.readP r = s.readP r) ∧
      ∀ pd, execAt c (.pdec pd ⟨arg.addr, 65⟩) t = storedP pd (.aff x y) t := by
  have hout : Wrote c arg (sec1Bytes false x y) s (.next t) := ht ▸ execAt_penc hf hread false arg
  obtain ⟨hin, hbytes⟩ := bytesAt_of_wrote hout hft
  obtain ⟨hlen, hkeep⟩ := res_and_readP_of_wrote hout hft
  have hres : t.res = 65 := by simpa [sec1Bytes, coordBytes] using hlen
  rw [hres] at hin hbytes
  refine ⟨hres, hkeep, fun pd => (execAt_pdec hft hin pd).trans ?_⟩
  rw [hbytes, decodePoint_sec1Bytes hx hy]
  rfl

/-- Settles O51: `PDEC` reads what `PENC` wrote (`pdec_of_penc`), and `PENC` writes the coordinates that `PDEC` read
(`decodePoint_of_pdec`, `coords_of_decodePoint`). -/
theorem pointRoundTrip : Obligations.PointRoundTrip := by
  refine ofEvery fun c => ⟨fun s t pa pd arg x y hf hread hx hy ht hft => ?_, fun s t pd arg out hf ht hft hfin => ?_⟩
  · obtain ⟨hres, hkeep, hdec⟩ := pdec_of_penc hf hread hx hy ht hft
    obtain ⟨u, hu, huf, hpd, hframe⟩ := storedP_next pd (.aff x y) t
    refine ⟨hres, hdec pd, u, (hdec pd).trans hu, ?_⟩
    have hpa : u.readP pa = .aff x y := by
      by_cases hr : pd = pa
      · rw [← hr, hpd]
      · rw [hframe pa hr, hkeep, hread]
    obtain ⟨-, -, -, hpeq⟩ := pointReads.2 c u (huf.trans hft)
    rw [hpeq, hpa, hpd, if_pos rfl]
  · have hdec := decodePoint_of_pdec hf ht hft
    cases hA : t.readP pd with
    | inf => exact absurd hA hfin
    | aff x y =>
      rw [hA] at hdec
      obtain ⟨hx, hy⟩ := canonical_decodePoint hdec
      obtain ⟨hxe, hye⟩ := coords_of_decodePoint hdec
      refine ⟨beBytes coordBytes x, beBytes coordBytes y, beBytes_length .., beBytes_length .., ?_, ?_,
        execAt_penc hft hA false out, fun hlen hhead => ?_⟩
      · rw [beSum_coordBytes hx, hxe, xHalf, length_bytesAt, beSum_eq_beValue]
      · rw [beSum_coordBytes hy, hye, yHalf, length_bytesAt, beSum_eq_beValue]
      · have hcanon := sec1Bytes_halves (by rw [length_bytesAt, hlen]; rfl) hhead
        rw [← hxe, ← hye] at hcanon
        exact hcanon.symm

end Sys2Proof.Machine
end

section
/-! PROOFS. Point validation (46_point_codec.md R247). -/

namespace Sys2Proof.Machine

open Sys2Proof.Safety

/-! ## The four tests -/

theorem onCurve_eq_false_iff (x y : Nat) :
    onCurve x y = false ↔ ¬ y * y ≡ x * x * x + 0 * x + 7 [MOD Rom.p] :=
  decide_eq_false_iff_not

section
variable {x y : Nat}

/-- Test 2: a coordinate outside `1..p-1`. -/
theorem validatePoint_range (h : x < 1 ∨ Rom.p - 1 < x ∨ y < 1 ∨ Rom.p - 1 < y) :
    validatePoint (.aff x y) = raise .domain 2 :=
  if_pos h

variable (hrange : ¬ (x < 1 ∨ Rom.p - 1 < x ∨ y < 1 ∨ Rom.p - 1 < y))
include hrange

/-- Test 3: the curve equation. -/
theorem validatePoint_equation (h : onCurve x y = false) : validatePoint (.aff x y) = raise .domain 3 := by
  rw [validatePoint, if_neg hrange, if_pos h]

variable (hcurve : ¬ onCurve x y = false)
include hcurve

/-- Test 4: the order. -/
theorem validatePoint_order (h : pmul (.aff x y) Rom.n ≠ .inf) : validatePoint (.aff x y) = raise .domain 4 := by
  rw [validatePoint, if_neg hrange, if_neg hcurve, if_pos h]

theorem validatePoint_passes (h : pmul (.aff x y) Rom.n = .inf) : validatePoint (.aff x y) = .ok () := by
  rw [validatePoint, if_neg hrange, if_neg hcurve, if_neg (not_not_intro h)]

end

/-! ## The command -/

section
variable {c : Config.Params} {s : State} {pa : PReg} (hf : s.inFault = false)
include hf

theorem execAt_pvalid_raise {n : Nat} (h : validatePoint (s.readP pa) = raise .domain n) :
    execAt c (.pvalid pa) s = failed 2 (BitVec.ofNat 32 n) s := by
  refine execAt_failed (k := .domain) (by simp) hf ?_
  rw [body, bodyPvalid, Engine.countCommand_readP, h]
  rfl

theorem execAt_pvalid_ok (h : validatePoint (s.readP pa) = .ok ()) : execAt c (.pvalid pa) s = answered 1 s := by
  refine execAt_answered (by simp) hf ?_
  rw [body, bodyPvalid, Engine.countCommand_readP, h]
  rfl

end

/-- Settles O52: the command ends as the first of the four tests that fails says, or answers 1 (`execAt_pvalid_raise`,
`execAt_pvalid_ok`). -/
theorem validatePoints : Obligations.ValidatePoints := by
  refine ofEvery fun c s pa hf => ⟨fun h => ?_, fun x y h => ⟨fun hout => ?_, fun hx hxp hy hyp => ?_⟩⟩
  · exact execAt_pvalid_raise hf (n := 1) (by rw [h]; rfl)
  · exact execAt_pvalid_raise hf (h ▸ validatePoint_range hout)
  · have hrange : ¬ (x < 1 ∨ Rom.p - 1 < x ∨ y < 1 ∨ Rom.p - 1 < y) := by omega
    refine ⟨fun heq => ?_, fun heq => ?_⟩
    · exact execAt_pvalid_raise hf (h ▸ validatePoint_equation hrange ((onCurve_eq_false_iff x y).2 heq))
    · have hcurve : ¬ onCurve x y = false := fun hoff => (onCurve_eq_false_iff x y).1 hoff heq
      exact ⟨fun hord => execAt_pvalid_raise hf (h ▸ validatePoint_order hrange hcurve hord),
        fun hord => execAt_pvalid_ok hf (h ▸ validatePoint_passes hrange hcurve hord)⟩

end Sys2Proof.Machine
end

section
/-! PROOFS. The step of a command word (60_exceptions.md R262, R263, R265, R272), and the state after `Reset`
(70_reset_and_hazards.md R300). -/

namespace Sys2Proof.Machine

open Sys2Proof.Safety

/-! ## Commands that are not rejected -/

section

variable {c : Config.Params} {i : Instr} {s : State}

/-- A command that the engine does not reject runs its pseudocode (R262, R265). -/
theorem execAt_eq_runBody (h : s.inFault = false ∨ i = .clrerr) : execAt c i s = runBody c (body i) s :=
  if_neg fun ⟨hf, hi⟩ => h.elim (fun hf' => by simp [hf] at hf') hi

/-- The pseudocode of a command that raises an error fails the command with it (R262, R263). -/
theorem runBody_error {r : Raise} (h : body i c s.countCommand = .error r) :
    runBody c (body i) s = failed r.kind.code r.info s := by
  rw [runBody, h]
  rfl

end

/-! ## Rejection (R265) -/

/-- `CLRERR` is a word that decodes. -/
theorem decodeWord_clrerrWord : decodeWord clrerrWord = .ok .clrerr := decodeOfEncode .clrerr rfl

/-- In fault every word but that of `CLRERR` is rejected, legal or not. -/
theorem commandOn_turnedAway {c : Config.Params} {w : CmdWord} {s : State} (hf : s.inFault = true)
    (hw : w ≠ clrerrWord) : commandOn c (execAt c) w s = turnedAway s := by
  cases hd : decodeWord w with
  | ok i =>
    have hi : i ≠ .clrerr := fun h => hw (eq_clrerrWord_of_decodeWord (h ▸ hd))
    rw [commandOn_ok hd, execAt_eq_runCommand c hi]
    exact runCommand_inFault hf
  | error e => exact commandOn_illegal_turnedAway (illegalLine_eq_some_iff.2 ⟨e, hd, rfl⟩) hf

/-- Settles O7: an illegal word is none of `CLRERR`, a command that is not rejected is its pseudocode
(`execAt_eq_runBody`), and the pseudocode is run to its end (`runBody_ok`) or raises (`runBody_error`). -/
theorem commandStep : Obligations.CommandStep := by
  refine ofEvery fun c w s => ⟨commandOn_turnedAway, fun hrun => ⟨fun n hn => ?_, fun hlegal => ?_⟩⟩
  · have hw : w ≠ clrerrWord := by
      rintro rfl
      simp [illegalLine_eq_none_iff.2 ⟨_, decodeWord_clrerrWord⟩] at hn
    exact commandOn_illegal_failed hn (hrun.resolve_right hw)
  · obtain ⟨i, hd⟩ := illegalLine_eq_none_iff.1 hlegal
    have hi : w = clrerrWord → i = .clrerr := by
      rintro rfl
      simpa [decodeWord_clrerrWord] using hd.symm
    have hstep : commandOn c (execAt c) w s = runBody c (body i) s :=
      (commandOn_ok hd).trans (execAt_eq_runBody (hrun.imp_right hi))
    refine ⟨i, hd, ?_⟩
    cases hb : body i c s.countCommand with
    | ok e =>
      refine .inl ⟨e, rfl, hstep.trans (runBody_ok hb), fun hw => ?_⟩
      obtain ⟨-, -, hkept⟩ := body_keeps (fun h => hw (eq_clrerrWord_of_decodeWord (h ▸ hd))) hb
      exact hkept
    | error r => exact .inr ⟨r, rfl, r.kind.code_bounds.1, r.kind.code_bounds.2, hstep.trans (runBody_error hb)⟩

/-- Settles O8: `commandOn_turnedAway` is the rejection, `execAt_clrerr` the return; the data transactions do in fault what
they do in every state (`dataTransactions`). -/
theorem rejectionWhileInFault : Obligations.RejectionWhileInFault := by
  refine ofEvery fun c s hf => ?_
  obtain ⟨hwrite, hread, hcsr⟩ := dataTransactions.2 c s
  refine ⟨fun w => commandOn_turnedAway hf, ?_, fun a b ha => ?_, fun a ha => ⟨_, hread a ha, rfl⟩,
    fun x hx => ⟨_, hcsr x hx, rfl⟩, ⟨_, rfl, Engine.reset_inFault _⟩⟩
  · exact ⟨{ s with toEngine := s.clearError }, (commandOn_ok decodeWord_clrerrWord).trans (execAt_clrerr c s),
      s.clearError_inFault⟩
  · obtain ⟨buf, hnext, hbyte, -⟩ := hwrite a b ha
    exact ⟨_, hnext, hbyte⟩

/-! ## What a command leaves and answers (R263, R272) -/

/-- A command that is executed ends without a fault: it sets none, and in fault it is `CLRERR`. -/
theorem inFault_of_executed {c : Config.Params} {i : Instr} {s : State} {e : Engine}
    (hi : s.inFault = true → i = .clrerr) (hb : body i c s.countCommand = .ok e) : e.inFault = false := by
  cases hf : s.inFault with
  | false => exact inFault_of_body hb hf
  | true =>
    obtain rfl := hi hf
    cases hb
    exact Engine.clearError_inFault _

/-- Settles O10: of the three ends of a command, only an error taken leaves a fault that was not there before; it writes the
control registers of `takeError`. -/
theorem failedCommandChanges : Obligations.FailedCommandChanges := by
  refine ofEvery fun c w s t hf h ht => ?_
  rcases commandOn_cases h with ⟨hf', -⟩ | ⟨i, e, -, hi, hb, rfl⟩ | ⟨-, r, rfl⟩
  · simp [hf] at hf'
  · simp [inFault_of_executed hi hb] at ht
  · exact ⟨⟨r.kind.code, r.info, r.kind.code_bounds.1, r.kind.code_bounds.2, rfl, rfl, rfl⟩, rfl, rfl, rfl, rfl, rfl,
      fun _ => rfl, rfl, rfl⟩

/-- Settles O11: one status for each of the three ends of a command (`commandOn_cases`). -/
theorem responseRecord : Obligations.ResponseRecord := by
  refine ofEvery fun c w s t h => ?_
  rcases commandOn_cases h with ⟨hf, rfl⟩ | ⟨i, e, -, hi, hb, rfl⟩ | ⟨hf, r, rfl⟩
  · exact ⟨0xFF, rfl, .inr (.inr ⟨rfl, hf, rfl⟩)⟩
  · exact ⟨0, rfl, .inl ⟨rfl, inFault_of_executed hi hb, cseq_of_body hb⟩⟩
  · exact ⟨r.kind.code, rfl, .inr (.inl ⟨r.kind.code_bounds.1, r.kind.code_bounds.2, hf, r.info, rfl⟩)⟩

/-! ## Reset (R300) -/

/-- Settles O17: `Reset` and power-on both leave `Engine.reset`, for the next epoch and for the first. -/
theorem resetValues : Obligations.ResetValues := by
  refine ofEvery fun c s => ⟨_, rfl, fun u hu => ?_⟩
  have hreset : ∃ epoch, u.toEngine = Engine.reset epoch := by
    simp only [List.mem_cons, List.not_mem_nil, or_false] at hu
    rcases hu with rfl | rfl <;> exact ⟨_, rfl⟩
  obtain ⟨epoch, hu⟩ := hreset
  rw [hu]
  exact ⟨Engine.reset_readM epoch, Engine.reset_readP epoch, rfl, rfl, rfl, rfl, rfl, rfl, rfl, fun _ => rfl⟩

end Sys2Proof.Machine
end

section
/-! PROOFS. The errors that each command can raise once decoded (60_exceptions.md R261, R264). -/

namespace Sys2Proof.Machine

open Sys2Proof.Safety

/-- Every error that this part of a pseudocode can raise is listed in `es`, as code and info. -/
def RaisesOnly {α : Type} (es : List (Nat × Nat)) (x : Except Raise α) : Prop :=
  ∀ r, x = .error r → ∃ e ∈ es, r.kind.code = BitVec.ofNat 8 e.1 ∧ r.info = BitVec.ofNat 32 e.2

/-! ## The parts of a pseudocode -/

namespace RaisesOnly

variable {α β : Type} {es : List (Nat × Nat)}

theorem ok (a : α) : RaisesOnly es (.ok a : Except Raise α) := fun _ h => by cases h

theorem raise {k : ErrorKind} {n : Nat} (h : (k.code.toNat, n) ∈ es) :
    RaisesOnly es (Machine.raise k n : Except Raise α) := by
  intro r hr
  cases hr
  exact ⟨_, h, (BitVec.ofNat_toNat 8 k.code).symm, rfl⟩

theorem mono {fs : List (Nat × Nat)} {x : Except Raise α} (h : RaisesOnly es x) (hsub : es ⊆ fs) : RaisesOnly fs x :=
  fun r hr =>
    let ⟨e, he, hre⟩ := h r hr
    ⟨e, hsub he, hre⟩

theorem bind {x : Except Raise α} {f : α → Except Raise β} (hx : RaisesOnly es x)
    (hf : ∀ a, x = .ok a → RaisesOnly es (f a)) : RaisesOnly es (x >>= f) := by
  cases x with
  | ok a => exact hf a rfl
  | error r => exact fun r' hr => hx r' (by cases hr; rfl)

theorem ite {p : Prop} [Decidable p] {x y : Except Raise α} (hx : p → RaisesOnly es x) (hy : ¬ p → RaisesOnly es y) :
    RaisesOnly es (if p then x else y) := by
  split
  case isTrue h => exact hx h
  case isFalse h => exact hy h

end RaisesOnly

/-! ## Operands and results -/

section

variable {es : List (Nat × Nat)} {c : Config.Params} {e : Engine}

/-- `M[i] <- v` raises nothing when the value fits (10_state.md R23). -/
theorem raisesOnly_writeM_fits {v : Int} (h : Fits c v) (md : MReg) : RaisesOnly es (writeM md v c e) := by
  rw [writeM_fits h]
  exact .ok _

theorem raisesOnly_writeM (h : (6, 0) ∈ es) (md : MReg) (v : Int) : RaisesOnly es (writeM md v c e) :=
  .ite (fun _ => .raise h) fun _ => .ok _

theorem raisesOnly_inputBytes (h : (7, 1) ∈ es) (arg : BufArg) : RaisesOnly es (inputBytes arg c e) :=
  .ite (fun _ => .ok _) fun _ => .raise h

theorem raisesOnly_outputBytes (hroom : (7, 2) ∈ es) (hrange : (7, 1) ∈ es) (arg : BufArg) (out : List Byte) :
    RaisesOnly es (outputBytes arg out c e) :=
  .ite (fun _ => .raise hroom) fun _ => .ite (fun _ => .ok _) fun _ => .raise hrange

theorem raisesOnly_nonzeroOperand (h : (5, 0) ∈ es) (v : Int) : RaisesOnly es (nonzeroOperand v) :=
  .ite (fun _ => .raise h) fun _ => .ok _

theorem raisesOnly_scalarOperand (h : (8, 3) ∈ es) (v : Int) : RaisesOnly es (scalarOperand v) :=
  .ite (fun _ => .raise h) fun _ => .ok _

theorem raisesOnly_affineOperand (h : (8, 2) ∈ es) (A : Point) : RaisesOnly es (affineOperand A) := by
  cases A with
  | inf => exact .raise h
  | aff x y => exact .ok _

/-- A divisor or modulus that was tested is the operand, and not zero (41_mpi_arith.md R130, 44_field.md R190). -/
theorem eq_and_ne_zero_of_nonzeroOperand {v b : Int} (h : nonzeroOperand v = .ok b) : b = v ∧ v ≠ 0 := by
  unfold nonzeroOperand at h
  split_ifs at h with hv
  · cases h
  · cases h
    exact ⟨rfl, hv⟩

/-- The coordinates of a point that was tested are canonical where the point is. -/
theorem lt_p_of_affineOperand {A : Point} {xy : Nat × Nat} (hA : CanonicalPoint A) (h : affineOperand A = .ok xy) :
    xy.1 < Rom.p ∧ xy.2 < Rom.p := by
  cases A with
  | inf => cases h
  | aff x y =>
    cases h
    exact hA

/-- A reduction by a register can only find the modulus zero: its result fits where the modulus does. -/
theorem raisesOnly_reduced (hs : e.Sound c) (h : (5, 0) ∈ es) (md mm : MReg) (v : Int → Int) :
    RaisesOnly es (nonzeroOperand (e.readM mm) >>= fun m => writeM md (nmod (v m) m) c e) := by
  refine (raisesOnly_nonzeroOperand h _).bind fun m hm => ?_
  obtain ⟨rfl, hm0⟩ := eq_and_ne_zero_of_nonzeroOperand hm
  exact raisesOnly_writeM_fits ((nmod_natAbs_lt _ hm0).trans (hs.fits mm)) md

/-- A left shift into a register can only overflow (41_mpi_arith.md R139). -/
theorem raisesOnly_writeShiftedUp (h : (6, 0) ∈ es) (md : MReg) (v : Int) (k : Nat) :
    RaisesOnly es (writeShiftedUp md v k c e) :=
  .ite (fun _ => .raise h) fun _ => raisesOnly_writeM h md _

end

/-! ## Strings and points -/

theorem raisesOnly_parseInt (r : Nat) (bs : List Byte) : RaisesOnly [(1, 1), (1, 2)] (parseInt r bs) := by
  refine .ite (fun _ => .raise (by decide)) fun _ => ?_
  split
  · exact .raise (by decide)
  · exact .ok _

theorem raisesOnly_pointOf (x y : Int) : RaisesOnly [(2, 2)] (pointOf x y) :=
  .ite (fun _ => .raise (by decide)) fun _ => .ok _

theorem raisesOnly_decodeCoords (ds : List Byte) : RaisesOnly [(1, 4), (2, 2)] (decodeCoords ds) :=
  .ite (fun _ => .raise (by decide)) fun _ => .ite (fun _ => .raise (by decide)) fun _ => .ok _

theorem raisesOnly_decodePoint (bs : List Byte) :
    RaisesOnly [(1, 1), (1, 4), (3, 1), (3, 2), (2, 2)] (decodePoint bs) := by
  cases bs with
  | nil => exact .raise (by decide)
  | cons lead ds =>
    refine .ite (fun _ => .ite (fun _ => .raise (by decide)) fun _ => .ok _) fun _ => ?_
    refine .ite (fun _ => .raise (by decide)) fun _ => .ite (fun _ => .raise (by decide)) fun _ => ?_
    exact (raisesOnly_decodeCoords ds).mono (by decide)

theorem raisesOnly_hexBytes (cs : List Byte) : RaisesOnly [(1, 3), (1, 2)] (hexBytes cs) := by
  refine .ite (fun _ => .raise (by decide)) fun _ => ?_
  split
  · exact .raise (by decide)
  · exact .ok _

theorem raisesOnly_validatePoint (A : Point) : RaisesOnly [(2, 1), (2, 2), (2, 3), (2, 4)] (validatePoint A) := by
  cases A with
  | inf => exact .raise (by decide)
  | aff x y =>
    refine .ite (fun _ => .raise (by decide)) fun _ => .ite (fun _ => .raise (by decide)) fun _ => ?_
    exact .ite (fun _ => .raise (by decide)) fun _ => .ok _

/-! ## Every command -/

/-- The pseudocode of a command raises what is listed for it, when the registers hold what they may hold: a result that is no
larger than an operand, or than 256 bits, cannot overflow. -/
theorem body_raisesOnly {c : Config.Params} {e : Engine} (hs : e.Sound c) (i : Instr) :
    RaisesOnly (raisable i) (body i c e) := by
  cases i with
  | clrerr | cmp | iseven | testbit | bitlen | pinf | pgen | pmov | pisinf | peq | pneg | padd | pdbl => exact .ok _
  | curve => exact .ite (fun _ => .raise (by simp [raisable, ErrorKind.code])) fun _ => .ok _
  | ldcp md idx => exact raisesOnly_writeM_fits (fits_of_lt_two_pow_256 c (v := romValue idx) (romValue_lt idx)) md
  | ldi md imm =>
    exact raisesOnly_writeM_fits (fits_of_lt_two_pow_256 c ((natAbs_signedImm_le imm).trans_lt (by norm_num))) md
  | mov md ma => exact raisesOnly_writeM_fits (hs.fits ma) md
  | add | sub | mul | sqr => exact raisesOnly_writeM (by simp [raisable]) _ _
  | div md ma mb =>
    refine (raisesOnly_nonzeroOperand (by simp [raisable]) _).bind fun b _ => ?_
    exact raisesOnly_writeM_fits ((tquo_natAbs_le _ b).trans_lt (hs.fits ma)) md
  | mod md ma mb => exact raisesOnly_reduced hs (by simp [raisable]) md mb fun _ => e.readM ma
  | divrem mq mr ma mb =>
    refine (raisesOnly_nonzeroOperand (by simp [raisable]) _).bind fun b _ => ?_
    refine (raisesOnly_writeM_fits ((tquo_natAbs_le _ b).trans_lt (hs.fits ma)) mq).bind fun _ _ => ?_
    exact raisesOnly_writeM_fits ((trem_natAbs_le _ b).trans_lt (hs.fits ma)) mr
  | modinv md ma mm =>
    refine .ite (fun _ => .raise (by simp [raisable, ErrorKind.code])) fun hm => ?_
    refine .ite (fun _ => .raise (by simp [raisable, ErrorKind.code])) fun _ => ?_
    refine raisesOnly_writeM_fits ?_ md
    exact (invMod_lt (Nat.pos_of_ne_zero hm) _).trans (hs.fits mm)
  | shl md ma =>
    exact .ite (fun _ => raisesOnly_writeShiftedUp (by simp [raisable]) md _ _) fun _ =>
      raisesOnly_writeM_fits ((shiftDown_natAbs_le _ _).trans_lt (hs.fits ma)) md
  | shr md ma =>
    exact .ite (fun _ => raisesOnly_writeM_fits ((shiftDown_natAbs_le _ _).trans_lt (hs.fits ma)) md) fun _ =>
      raisesOnly_writeShiftedUp (by simp [raisable]) md _ _
  | frombu | frombs =>
    exact (raisesOnly_inputBytes (by simp [raisable]) _).bind fun _ _ => raisesOnly_writeM (by simp [raisable]) _ _
  | tobu | tobs | tostr => exact raisesOnly_outputBytes (by simp [raisable]) (by simp [raisable]) _ _
  | parse md radix =>
    refine (raisesOnly_inputBytes (by simp [raisable]) _).bind fun bs _ => ?_
    refine ((raisesOnly_parseInt radix bs).mono (by simp [raisable])).bind fun v _ => ?_
    exact raisesOnly_writeM (by simp [raisable]) md v
  | fadd md ma mb mm => exact raisesOnly_reduced hs (by simp [raisable]) md mm fun _ => e.readM ma + e.readM mb
  | fsub md ma mb mm => exact raisesOnly_reduced hs (by simp [raisable]) md mm fun _ => e.readM ma - e.readM mb
  | fmul md ma mb mm => exact raisesOnly_reduced hs (by simp [raisable]) md mm fun _ => e.readM ma * e.readM mb
  | fsqr md ma mm => exact raisesOnly_reduced hs (by simp [raisable]) md mm fun _ => e.readM ma * e.readM ma
  | fdiv md ma mb mm =>
    refine (raisesOnly_nonzeroOperand (by simp [raisable]) _).bind fun m hm => ?_
    obtain ⟨rfl, hm0⟩ := eq_and_ne_zero_of_nonzeroOperand hm
    refine .ite (fun _ => .raise (by simp [raisable, ErrorKind.code])) fun _ => ?_
    exact raisesOnly_writeM_fits ((nmod_natAbs_lt _ hm0).trans (hs.fits mm)) md
  | feq =>
    refine (raisesOnly_nonzeroOperand (by simp [raisable]) _).bind fun _ _ => ?_
    exact (raisesOnly_nonzeroOperand (by simp [raisable]) _).bind fun _ _ => .ok _
  | pseta => exact (raisesOnly_pointOf _ _).bind fun _ _ => .ok _
  | pgetx md pa =>
    refine (raisesOnly_affineOperand (by simp [raisable]) _).bind fun xy hxy => ?_
    exact raisesOnly_writeM_fits (fits_of_lt_p c (lt_p_of_affineOperand (hs.points pa) hxy).1) md
  | pgety md pa =>
    refine (raisesOnly_affineOperand (by simp [raisable]) _).bind fun xy hxy => ?_
    exact raisesOnly_writeM_fits (fits_of_lt_p c (lt_p_of_affineOperand (hs.points pa) hxy).2) md
  | pmul => exact (raisesOnly_scalarOperand (by simp [raisable]) _).bind fun _ _ => .ok _
  | pmul2 =>
    refine (raisesOnly_scalarOperand (by simp [raisable]) _).bind fun _ _ => ?_
    exact (raisesOnly_scalarOperand (by simp [raisable]) _).bind fun _ _ => .ok _
  | penc =>
    refine (raisesOnly_affineOperand (by simp [raisable]) _).bind fun _ _ => ?_
    exact raisesOnly_outputBytes (by simp [raisable]) (by simp [raisable]) _ _
  | pdec =>
    refine (raisesOnly_inputBytes (by simp [raisable]) _).bind fun bs _ => ?_
    exact ((raisesOnly_decodePoint bs).mono (by simp [raisable])).bind fun _ _ => .ok _
  | pdechex =>
    refine (raisesOnly_inputBytes (by simp [raisable]) _).bind fun cs _ => ?_
    refine ((raisesOnly_hexBytes cs).mono (by simp [raisable])).bind fun bs _ => ?_
    exact ((raisesOnly_decodePoint bs).mono (by simp [raisable])).bind fun _ _ => .ok _
  | pvalid => exact (raisesOnly_validatePoint _).bind fun _ _ => .ok _

/-- Settles O16: a command that ends in fault raised an error (`inFault_of_body`), which is one of its list
(`body_raisesOnly`), whether or not a word stands for the command. -/
theorem errorsRaised : Obligations.ErrorsRaised := by
  refine ofEvery fun c i s t hs _ hf h ht => ?_
  rw [execAt_eq_runBody (.inl hf)] at h ⊢
  cases hb : body i c s.countCommand with
  | ok e =>
    rw [runBody_ok hb] at h
    cases h
    have hclear : e.inFault = false := inFault_of_body hb hf
    exact absurd (hclear.symm.trans ht) Bool.false_ne_true
  | error r =>
    obtain ⟨e, he, hcode, hinfo⟩ := body_raisesOnly (inv_iff.1 hs).1.countCommand i r hb
    exact ⟨e, he, by rw [runBody_error hb, hcode, hinfo]⟩

end Sys2Proof.Machine
end
